-- ==== Sys2Proof/Word.lean ====
section
/-! DEFINITION. The carrier words of the block: the integer types of `00_scope.md` section 5.1 (`u8`, `i8`, `u32`) as bit
vectors. An `i8` is carried as a `U8` and read with `BitVec.toInt`. -/

namespace Sys2Proof

/-- An 8-bit carrier: `u8` read with `toNat`, `i8` read with `toInt` (`sext_8`). -/
abbrev U8 := BitVec 8

/-- A `u32`: quantities, thresholds, full-travel counts. -/
abbrev U32 := BitVec 32

/-- The largest `u32`, `2^32 - 1` (R171). -/
abbrev maxU32 : Nat := 4294967295

end Sys2Proof
end

