-- ==== Sys2Proof/Syntax.lean ====
section
/-! DEFINITION. Abstract syntax: the data types of `10_state.md` section 1, the 27 rows of the opcode table as one inductive
`Instr`, and the words of the four ports (`30_encoding.md` rules R96 to R101). -/

namespace Sys2Proof

/-- R22. The quality of a motion instruction: `Retract` opens, `Extend` closes, `Hold` is a timed pause. -/
inductive Direction where
  | extend
  | retract
  | hold
deriving DecidableEq, Repr, Inhabited

/-- R20. A WindowDressingState: an integer position and an integer tilt in degrees. The ranges `0..=100` and `-90..=90`
are the invariant `WState.inRange`, not part of the type. -/
structure WState where
  position : Nat
  tilt : Int
deriving DecidableEq, Repr, Inhabited

/-- R20. The ranges of a WindowDressingState. -/
def WState.inRange (s : WState) : Bool :=
  decide (s.position ≤ 100) && decide (-90 ≤ s.tilt) && decide (s.tilt ≤ 90)

/-- R23. A motion instruction: the record a queue slot holds. -/
structure Motion where
  quality : Direction
  quantity : U32
  completed : WState
deriving DecidableEq, Repr, Inhabited

/-- The 27 rows of `opcode_table.json`, in the table's order. Operands are the raw fields of the word: positions are `u8`,
tilts are `i8` carried as `U8`; an optional field is an `Option` (its presence bit, R95). -/
inductive Instr where
  -- command words, CW (R97 to R99)
  | reset
  | home (channel : U8)
  | setup (channel initPosition initTilt : U8) (fullCycleSteps : U32) (reverse : Option Bool)
      (fullTiltSteps : Option U32) (sgthrs : Option U8)
  | set (channel : U8) (position tilt : Option U8)
  | get (channel : U8)
  | getSg (channel : U8)
  -- sequencer operation words, SOP (R100); the channel is selected outside the word
  | new (fullCycle : U32) (fullTilt : Option U32)
  | newRoller (fullCycle : U32)
  | newVenetian (fullCycle fullTilt : U32)
  | loadState (position tilt : U8)
  | setPosition (target : U8)
  | setTilt (target : U8)
  | addTilt (start stop : U8)
  | setState (position tilt : U8)
  | getNextInstruction
  | getNextInstructionGrouped (threshold : U32)
  | trigEndstop
  | homeFullyOpened
  | homeFullyClosed
  | getCurrentState
  | getDesiredState
  -- motion instruction words, MIW (R96)
  | extend (quantity : U32) (position tilt : U8)
  | retract (quantity : U32) (position tilt : U8)
  | hold (quantity : U32) (position tilt : U8)
  -- report words, RW (R101)
  | ready
  | position (channel currentPosition currentTilt desiredPosition desiredTilt : U8)
  | stallGuardResult (channel sgResult : U8)
deriving DecidableEq, Repr, Inhabited

/-- The four word formats, each a port of the block (R102). -/
inductive Port where
  | cw
  | sop
  | miw
  | rw
deriving DecidableEq, Repr

/-- A word presented on a port, at the port's own width. -/
inductive PortWord where
  | cw (w : BitVec 103)
  | sop (w : BitVec 69)
  | miw (w : BitVec 50)
  | rw (w : BitVec 42)
deriving DecidableEq, Repr

/-- The port a word stands on. -/
def PortWord.port : PortWord → Port
  | .cw _ => .cw
  | .sop _ => .sop
  | .miw _ => .miw
  | .rw _ => .rw

/-- The width in bits of a port's words. -/
def Port.width : Port → Nat
  | .cw => 103
  | .sop => 69
  | .miw => 50
  | .rw => 42

/-- The port whose words encode an instruction (the `format` column of the opcode table). -/
def Instr.port : Instr → Port
  | .reset | .home _ | .setup _ _ _ _ _ _ _ | .set _ _ _ | .get _ | .getSg _ => .cw
  | .new _ _ | .newRoller _ | .newVenetian _ _ | .loadState _ _ | .setPosition _ | .setTilt _ | .addTilt _ _
  | .setState _ _ | .getNextInstruction | .getNextInstructionGrouped _ | .trigEndstop | .homeFullyOpened
  | .homeFullyClosed | .getCurrentState | .getDesiredState => .sop
  | .extend _ _ _ | .retract _ _ _ | .hold _ _ _ => .miw
  | .ready | .position _ _ _ _ _ | .stallGuardResult _ _ => .rw

end Sys2Proof
end

