-- ==== Sys2Proof/Config.lean ====
section
/-! DEFINITION. What a build fixes (the parameters of `00_scope.md` rule R4), and the free values: what the spec leaves
open and no proof may depend on (`93_implementation_defined.md`, treatment "any value"). -/

namespace Sys2Proof

/-- R4, D9. Which homing operation the `home` command performs. -/
inductive HomeTarget where
  | opened
  | closed
deriving DecidableEq, Repr

/-- R4. The named parameters of the block, one field each. They are constant: no step writes them. -/
structure Params where
  /-- `NCH`, number of channels. -/
  nch : Nat
  /-- `MASKW`, width of each shared flag word. -/
  maskw : Nat
  /-- `QCAP`, capacity of each instruction queue. -/
  qcap : Nat
  /-- `HOLD_QUANTITY`. -/
  holdQuantity : U32
  /-- `ENDSTOP_HOLD_QUANTITY`. -/
  endstopHoldQuantity : U32
  /-- `DEFAULT_FULL_CYCLE_QUANTITY`. -/
  defaultFullCycle : U32
  /-- `INIT_STATE`. -/
  initState : WState
  /-- `TICK_PERIOD`; no rule reads it (R281). -/
  tickPeriod : Nat
  /-- `ENDSTOP_GUARD`, in time units. -/
  endstopGuard : Nat
  /-- `PULSE_FREQUENCY`, pulses per second. -/
  pulseFrequency : Nat
  /-- `TIME_HZ`, time units per second. -/
  timeHz : Nat
  /-- `TICK_PULSE_BUDGET`. -/
  tickPulseBudget : U32
  /-- `HOME_TARGET`. -/
  homeTarget : HomeTarget
  /-- `DIRBIT(Extend)`. -/
  dirExtend : Bool
  /-- `DIRBIT(Retract)`. -/
  dirRetract : Bool
  /-- `DIRBIT(Hold)`. -/
  dirHold : Bool
  /-- `STALL_FEATURE`. -/
  stallFeature : Bool
deriving DecidableEq, Repr

/-- R4, the constraints column. -/
def Params.wf (p : Params) : Bool :=
  decide (1 ≤ p.nch) && decide (p.nch ≤ 256) && decide (p.nch ≤ p.maskw) && decide (1 ≤ p.qcap) && p.initState.inRange
    && decide (0 < p.tickPeriod) && decide (1 ≤ p.pulseFrequency) && decide (1 ≤ p.timeHz)
    && (p.dirExtend != p.dirRetract)

/-- R4, D4, R301. `DEFAULT_FULL_TILT_QUANTITY` is `none`: every channel is a roller after reset. -/
def Config.defaultFullTilt : Option U32 := none

/-- The build that `State.reset` starts from. DESIGN CHOICE (log 1): parameter set V of `95_test_vectors.md`, with
`MASKW = 8`, `DEFAULT_FULL_CYCLE_QUANTITY = 100000` and `INIT_STATE = (0, 0)`; unsafe, so no statement rests on it. -/
def Config.build : Params where
  nch := 2
  maskw := 8
  qcap := 1024
  holdQuantity := 500#32
  endstopHoldQuantity := 500#32
  defaultFullCycle := 100000#32
  initState := { position := 0, tilt := 0 }
  tickPeriod := 250000
  endstopGuard := 500000
  pulseFrequency := 10000
  timeHz := 1000000
  tickPulseBudget := 2500#32
  homeTarget := .opened
  dirExtend := false
  dirRetract := true
  dirHold := false
  stallFeature := true

/-- What the environment can do between two atomic transitions of the block. -/
inductive EnvEvent where
  /-- A decoded command word is presented on the command port (R97, R230). -/
  | command (w : BitVec 103)
  /-- One byte arrives on the inbound stream (R90, R92). -/
  | byte (b : U8)
  /-- A read or write failure on the byte stream (R260 class 1). -/
  | transportError
  /-- A partial read or short frame (R260 class 2). -/
  | framingError
  /-- The control loop's timer starts a dispatcher pass (R190). -/
  | tick
  /-- The control loop proceeds: the next channel step of the pass in progress (R191). -/
  | proceed
  /-- Endstop Watcher `c` is scheduled (R271). -/
  | watch (c : Nat)
  /-- Limit-switch line `c` takes the level `level` (R288). -/
  | line (c : Nat) (level : Bool)
  /-- Pulse generator `c` emits up to `n` pending pulses (R283). -/
  | drain (c : Nat) (n : Nat)
  /-- Time advances by `n` units (R280). -/
  | advance (n : Nat)
  /-- The protocol encoder takes the next report of the stream from the report output port (R101; log 18). -/
  | encode
  /-- Power-up: the other cause of a device reset (R300). -/
  | powerUp
deriving DecidableEq, Repr, Inhabited

/-- An event of the model: one of the environment's, or a word presented on one of the block's three inner ports (log 3). -/
inductive Event where
  | env (e : EnvEvent)
  /-- A request word on the sequencer port of channel `c` (R100). -/
  | request (c : Nat) (w : BitVec 69)
  /-- A motion instruction word on the dispatcher's input for channel `c` (R96). -/
  | motion (c : Nat) (w : BitVec 50)
  /-- A report word on the report port (R101). -/
  | report (w : BitVec 42)
deriving DecidableEq, Repr, Inhabited

/-- U4 (log 7). Whether a generator that still has pulses in flight reports `ready`: any value. -/
opaque Config.pgReady : Nat → Bool

/-- U9 (log 7). The `sg_result` that the stepper-driver configuration channel supplies: any value. -/
opaque Config.stallGuard : Nat → U8

/-- U20 (log 7). The level of `dir[c]` after the RESET command, until the first direction change: any value. -/
opaque Config.resetDir : Nat → Nat → Bool

/-- U31 to U33 (log 8). The free schedule: what the environment does when nothing is placed in `inputs`. -/
opaque Config.schedule : Nat → EnvEvent

/-- U14, U37 (log 9). The protocol decoder: the command word a JSON payload stands for, or a Decode error. -/
opaque Config.decodePayload : List U8 → Option (BitVec 103)

/-- U37 (log 9). The protocol encoder: the JSON text of a report word. -/
opaque Config.encodeReport : BitVec 42 → List U8

end Sys2Proof
end

