-- ==== Sys2Proof/WellFormed.lean ====
section
/-! DEFINITION. Which instructions a port's word may carry. Command words have no operand restriction here: what an
out-of-range command operand does is the command's own business (R231 to R233). The words of the inner ports carry
WindowDressingStates, whose ranges R20 and R96 fix. -/

namespace Sys2Proof

/-- R20, R95. A `u8` position operand in `0..=100`. -/
def positionOk (p : U8) : Bool := decide (p.toNat ≤ 100)

/-- R20, R95. An `i8` tilt operand in `-90..=90`. -/
def tiltOk (t : U8) : Bool := decide (-90 ≤ t.toInt) && decide (t.toInt ≤ 90)

/-- The operand ranges an instruction's word must respect. -/
def Instr.wellFormed : Instr → Bool
  | .reset | .home _ | .setup _ _ _ _ _ _ _ | .set _ _ _ | .get _ | .getSg _ => true
  | .new _ _ | .newRoller _ | .newVenetian _ _ => true
  | .loadState p t => positionOk p && tiltOk t
  | .setPosition p => positionOk p
  | .setTilt t => tiltOk t
  | .addTilt a b => tiltOk a && tiltOk b
  | .setState p t => positionOk p && tiltOk t
  | .getNextInstruction | .getNextInstructionGrouped _ | .trigEndstop | .homeFullyOpened | .homeFullyClosed
  | .getCurrentState | .getDesiredState => true
  | .extend _ p t => positionOk p && tiltOk t
  | .retract _ p t => positionOk p && tiltOk t
  | .hold _ p t => positionOk p && tiltOk t
  | .ready => true
  | .position _ cp ct dp dt => positionOk cp && tiltOk ct && positionOk dp && tiltOk dt
  | .stallGuardResult _ _ => true

end Sys2Proof
end

