-- ==== Sys2Proof/Decode.lean ====
section
/-! DEFINITION. Decoding and encoding the words of the four ports (`30_encoding.md` sections 2 to 6). Decoding is total and
rejects by name; the encoder after it is written from the same tables. Bit 0 is the least significant bit, and where a word
is laid out in bytes the least significant byte comes first (R69, D52). -/

namespace Sys2Proof

/-- Why a word, or a row of bytes, is no instruction. -/
inductive DecodeError where
  /-- CW `op` 110 or 111 (R104). -/
  | reservedOp
  /-- SOP code 1111 (R104). -/
  | reservedSop
  /-- MIW quality 11 (R96, R104). -/
  | reservedQuality
  /-- RW kind 11 (R101, U27; DESIGN CHOICE, log 19). -/
  | reservedKind
  /-- A bit that must be zero is not (R97 to R101, R104). -/
  | mustBeZero
  /-- A value bit is set with its presence bit clear (R104). -/
  | valueWithoutPresence
  /-- `NEW_VENETIAN` with bit 36 clear (R100, U25). -/
  | presenceRequired
  /-- A position above 100 or a tilt outside -90..=90 in a word of an inner port (R20, R96, U26). -/
  | operandRange
  /-- Not the number of bytes, or the padding of the last byte is not zero: no word of the port. R69 and D52 do not speak of
  such rows of bytes; refusing them is the model's DESIGN CHOICE (log 20). -/
  | notAWord
deriving DecidableEq, Repr

/-- R95. An optional field: a presence bit and a value that must be zero when it is clear. -/
def optField {n : Nat} (present : Bool) (v : BitVec n) : Except DecodeError (Option (BitVec n)) :=
  if present then .ok (some v) else if v = 0#n then .ok none else .error .valueWithoutPresence

/-- `optField` for a boolean value (`reverse`, R98). -/
def optFlag (present v : Bool) : Except DecodeError (Option Bool) :=
  if present then .ok (some v) else if v = false then .ok none else .error .valueWithoutPresence

/-- An instruction, provided the bits the format does not list are zero (R97, R100). -/
def ifZero {n : Nat} (rest : BitVec n) (i : Instr) : Except DecodeError Instr :=
  if rest = 0#n then .ok i else .error .mustBeZero

/-- An instruction, provided its operands are in range (R20, R96). -/
def ifInRange (i : Instr) : Except DecodeError Instr :=
  if i.wellFormed then .ok i else .error .operandRange

/-- The SETUP fields of R98. -/
def decodeSetup (w : BitVec 103) : Except DecodeError Instr :=
  match optFlag (w.getLsbD 59) (w.getLsbD 60), optField (w.getLsbD 61) (w.extractLsb' 62 32),
      optField (w.getLsbD 94) (w.extractLsb' 95 8) with
  | .ok reverse, .ok fullTilt, .ok sgthrs =>
    .ok (.setup (w.extractLsb' 3 8) (w.extractLsb' 11 8) (w.extractLsb' 19 8) (w.extractLsb' 27 32) reverse fullTilt sgthrs)
  | _, _, _ => .error .valueWithoutPresence

/-- The SET fields of R99; bits `[102:29]` are zero. -/
def decodeSet (w : BitVec 103) : Except DecodeError Instr :=
  match optField (w.getLsbD 11) (w.extractLsb' 12 8), optField (w.getLsbD 20) (w.extractLsb' 21 8) with
  | .ok position, .ok tilt => ifZero (w.extractLsb' 29 74) (.set (w.extractLsb' 3 8) position tilt)
  | _, _ => .error .valueWithoutPresence

/-- R97. A command word. `RESET` ignores every other bit. -/
def decodeCw (w : BitVec 103) : Except DecodeError Instr :=
  match (w.extractLsb' 0 3).toNat with
  | 0 => .ok .reset
  | 1 => ifZero (w.extractLsb' 11 92) (.home (w.extractLsb' 3 8))
  | 2 => decodeSetup w
  | 3 => decodeSet w
  | 4 => ifZero (w.extractLsb' 11 92) (.get (w.extractLsb' 3 8))
  | 5 => ifZero (w.extractLsb' 11 92) (.getSg (w.extractLsb' 3 8))
  | _ => .error .reservedOp

/-- R100, SOP `NEW`. -/
def decodeNew (w : BitVec 69) : Except DecodeError Instr :=
  match optField (w.getLsbD 36) (w.extractLsb' 37 32) with
  | .ok fullTilt => .ok (.new (w.extractLsb' 4 32) fullTilt)
  | .error e => .error e

/-- An instruction whose bits from 12 up must be zero and whose operands must be in range. -/
def ifZeroInRange {n : Nat} (rest : BitVec n) (i : Instr) : Except DecodeError Instr :=
  if rest = 0#n then ifInRange i else .error .mustBeZero

/-- R100. A sequencer operation word. -/
def decodeSop (w : BitVec 69) : Except DecodeError Instr :=
  match (w.extractLsb' 0 4).toNat with
  | 0 => decodeNew w
  | 1 => ifZero (w.extractLsb' 36 33) (.newRoller (w.extractLsb' 4 32))
  | 2 => if w.getLsbD 36 then .ok (.newVenetian (w.extractLsb' 4 32) (w.extractLsb' 37 32)) else .error .presenceRequired
  | 3 => ifZeroInRange (w.extractLsb' 20 49) (.loadState (w.extractLsb' 4 8) (w.extractLsb' 12 8))
  | 4 => ifZeroInRange (w.extractLsb' 12 57) (.setPosition (w.extractLsb' 4 8))
  | 5 => ifZeroInRange (w.extractLsb' 12 57) (.setTilt (w.extractLsb' 4 8))
  | 6 => ifZeroInRange (w.extractLsb' 20 49) (.addTilt (w.extractLsb' 4 8) (w.extractLsb' 12 8))
  | 7 => ifZeroInRange (w.extractLsb' 20 49) (.setState (w.extractLsb' 4 8) (w.extractLsb' 12 8))
  | 8 => ifZero (w.extractLsb' 4 65) .getNextInstruction
  | 9 => ifZero (w.extractLsb' 36 33) (.getNextInstructionGrouped (w.extractLsb' 4 32))
  | 10 => ifZero (w.extractLsb' 4 65) .trigEndstop
  | 11 => ifZero (w.extractLsb' 4 65) .homeFullyOpened
  | 12 => ifZero (w.extractLsb' 4 65) .homeFullyClosed
  | 13 => ifZero (w.extractLsb' 4 65) .getCurrentState
  | 14 => ifZero (w.extractLsb' 4 65) .getDesiredState
  | _ => .error .reservedSop

/-- R96. A motion instruction word. -/
def decodeMiw (w : BitVec 50) : Except DecodeError Instr :=
  match (w.extractLsb' 48 2).toNat with
  | 0 => ifInRange (.extend (w.extractLsb' 0 32) (w.extractLsb' 32 8) (w.extractLsb' 40 8))
  | 1 => ifInRange (.retract (w.extractLsb' 0 32) (w.extractLsb' 32 8) (w.extractLsb' 40 8))
  | 2 => ifInRange (.hold (w.extractLsb' 0 32) (w.extractLsb' 32 8) (w.extractLsb' 40 8))
  | _ => .error .reservedQuality

/-- R101. A report word. R104 does not speak of this port, and U27 says of kind 11 only that it is never produced: that kind
11, a bit of `READY` or `STALL_GUARD_RESULT` beyond its fields that is not zero, and a `POSITION` state out of range make no
instruction is the model's DESIGN CHOICE (log 19). -/
def decodeRw (w : BitVec 42) : Except DecodeError Instr :=
  match (w.extractLsb' 0 2).toNat with
  | 0 => ifZero (w.extractLsb' 2 40) .ready
  | 1 => ifInRange (.position (w.extractLsb' 2 8) (w.extractLsb' 10 8) (w.extractLsb' 18 8) (w.extractLsb' 26 8)
      (w.extractLsb' 34 8))
  | 2 => ifZero (w.extractLsb' 18 24) (.stallGuardResult (w.extractLsb' 2 8) (w.extractLsb' 10 8))
  | _ => .error .reservedKind

/-- R102. The instruction a port's word encodes. -/
def decode : PortWord → Except DecodeError Instr
  | .cw w => decodeCw w
  | .sop w => decodeSop w
  | .miw w => decodeMiw w
  | .rw w => decodeRw w

/-- R69, D52. The number whose bytes, least significant first, are given. -/
def bytesToNat : List U8 → Nat
  | [] => 0
  | b :: rest => b.toNat + 256 * bytesToNat rest

/-- R69, D52. The `count` lowest bytes of a number, least significant first. -/
def natToBytes : Nat → Nat → List U8
  | 0, _ => []
  | count + 1, w => BitVec.ofNat 8 w :: natToBytes count (w / 256)

/-- The number of bytes a port's word takes. -/
def Port.bytes (p : Port) : Nat := (p.width + 7) / 8

/-- A number as a word of a port. -/
def Port.word : Port → Nat → PortWord
  | .cw, w => .cw (BitVec.ofNat 103 w)
  | .sop, w => .sop (BitVec.ofNat 69 w)
  | .miw, w => .miw (BitVec.ofNat 50 w)
  | .rw, w => .rw (BitVec.ofNat 42 w)

/-- R69, D52. The word of a port that a row of bytes lays out, least significant byte first. That the row must have exactly the
port's bytes, and zero in the padding of the last one, is a DESIGN CHOICE (log 20). -/
def wordOfBytes (p : Port) (bytes : List U8) : Except DecodeError PortWord :=
  if bytes.length = p.bytes ∧ bytesToNat bytes < 2 ^ p.width then .ok (p.word (bytesToNat bytes)) else .error .notAWord

/-- Decoding from bytes: total on every row of bytes. -/
def decodeBytes (p : Port) (bytes : List U8) : Except DecodeError Instr :=
  match wordOfBytes p bytes with
  | .ok w => decode w
  | .error e => .error e

/-- The ports a word of `nbits` bits may stand on. The four widths, exact or in whole bytes, name their port; a shorter
count names no port, and then every port wide enough is tried in the order of the opcode table (log 10). -/
def candidatePorts (nbits : Nat) : List Port :=
  match [Port.cw, .sop, .miw, .rw].filter fun p => nbits == p.width || nbits == 8 * p.bytes with
  | [] => [Port.cw, .sop, .miw, .rw].filter fun p => decide (nbits ≤ p.width)
  | ports => ports

/-- The instruction one port's decoder reads from the bytes of a number, its bits above the number's own being zero. -/
def decodeOn (w : Nat) (p : Port) : Option Instr :=
  match decodeBytes p (natToBytes p.bytes w) with
  | .ok i => some i
  | .error _ => none

/-- The port on which a word of `nbits` bits is read (log 10). -/
def tableWordPort (nbits w : Nat) : Option Port :=
  if w < 2 ^ nbits then (candidatePorts nbits).find? fun p => (decodeOn w p).isSome else none

/-- The instruction the decoder reads from an instruction whose bits are `w`. -/
def decodeTableWord (nbits w : Nat) : Option Instr :=
  match tableWordPort nbits w with
  | some p => decodeOn w p
  | none => none

/-! ### The encoder -/

/-- A field value `v` at bit `lo` of a `k`-bit word that is otherwise zero. -/
def place {n : Nat} (k lo : Nat) (v : BitVec n) : BitVec k := (v.setWidth k) <<< lo

/-- A presence bit, or a boolean field, at bit `lo` (R95). -/
def placeBit (k lo : Nat) (b : Bool) : BitVec k := place k lo (BitVec.ofBool b)

/-- R98. -/
def encodeSetup (channel position tilt : U8) (fullCycle : U32) (reverse : Option Bool) (fullTilt : Option U32)
    (sgthrs : Option U8) : BitVec 103 :=
  place 103 0 2#3 ||| place 103 3 channel ||| place 103 11 position ||| place 103 19 tilt ||| place 103 27 fullCycle
    ||| placeBit 103 59 reverse.isSome ||| placeBit 103 60 (reverse.getD false)
    ||| placeBit 103 61 fullTilt.isSome ||| place 103 62 (fullTilt.getD 0#32)
    ||| placeBit 103 94 sgthrs.isSome ||| place 103 95 (sgthrs.getD 0#8)

/-- R99. -/
def encodeSet (channel : U8) (position tilt : Option U8) : BitVec 103 :=
  place 103 0 3#3 ||| place 103 3 channel ||| placeBit 103 11 position.isSome ||| place 103 12 (position.getD 0#8)
    ||| placeBit 103 20 tilt.isSome ||| place 103 21 (tilt.getD 0#8)

/-- R97. A command word that carries nothing but its channel. -/
def encodeChannelCw (op : BitVec 3) (channel : U8) : BitVec 103 := place 103 0 op ||| place 103 3 channel

/-- R100, SOP `NEW`. -/
def encodeNew (fullCycle : U32) (fullTilt : Option U32) : BitVec 69 :=
  place 69 0 0#4 ||| place 69 4 fullCycle ||| placeBit 69 36 fullTilt.isSome ||| place 69 37 (fullTilt.getD 0#32)

/-- R100, SOP `NEW_VENETIAN`: bit 36 is 1. -/
def encodeNewVenetian (fullCycle fullTilt : U32) : BitVec 69 :=
  place 69 0 2#4 ||| place 69 4 fullCycle ||| placeBit 69 36 true ||| place 69 37 fullTilt

/-- R100. A sequencer operation word with no operand. -/
def encodeBareSop (sop : BitVec 4) : BitVec 69 := place 69 0 sop

/-- R100. A sequencer operation word with one `u32` operand. -/
def encodeWordSop (sop : BitVec 4) (a : U32) : BitVec 69 := place 69 0 sop ||| place 69 4 a

/-- R100. A sequencer operation word with one byte operand. -/
def encodeByteSop (sop : BitVec 4) (a : U8) : BitVec 69 := place 69 0 sop ||| place 69 4 a

/-- R100. A sequencer operation word with two byte operands. -/
def encodeBytePairSop (sop : BitVec 4) (a b : U8) : BitVec 69 := place 69 0 sop ||| place 69 4 a ||| place 69 12 b

/-- R96. -/
def encodeMotion (quality : BitVec 2) (quantity : U32) (position tilt : U8) : BitVec 50 :=
  place 50 0 quantity ||| place 50 32 position ||| place 50 40 tilt ||| place 50 48 quality

/-- R101, kind POSITION. -/
def encodePosition (channel currentPosition currentTilt desiredPosition desiredTilt : U8) : BitVec 42 :=
  place 42 0 1#2 ||| place 42 2 channel ||| place 42 10 currentPosition ||| place 42 18 currentTilt
    ||| place 42 26 desiredPosition ||| place 42 34 desiredTilt

/-- R101, kind STALL_GUARD_RESULT. -/
def encodeStallGuard (channel sgResult : U8) : BitVec 42 :=
  place 42 0 2#2 ||| place 42 2 channel ||| place 42 10 sgResult

/-- The word of an instruction. `RESET` is encoded with every ignored bit zero. -/
def encode : Instr → PortWord
  | .reset => .cw (encodeChannelCw 0#3 0#8)
  | .home c => .cw (encodeChannelCw 1#3 c)
  | .setup c p t fc r ft sg => .cw (encodeSetup c p t fc r ft sg)
  | .set c p t => .cw (encodeSet c p t)
  | .get c => .cw (encodeChannelCw 4#3 c)
  | .getSg c => .cw (encodeChannelCw 5#3 c)
  | .new fc ft => .sop (encodeNew fc ft)
  | .newRoller fc => .sop (encodeWordSop 1#4 fc)
  | .newVenetian fc ft => .sop (encodeNewVenetian fc ft)
  | .loadState p t => .sop (encodeBytePairSop 3#4 p t)
  | .setPosition p => .sop (encodeByteSop 4#4 p)
  | .setTilt t => .sop (encodeByteSop 5#4 t)
  | .addTilt a b => .sop (encodeBytePairSop 6#4 a b)
  | .setState p t => .sop (encodeBytePairSop 7#4 p t)
  | .getNextInstruction => .sop (encodeBareSop 8#4)
  | .getNextInstructionGrouped th => .sop (encodeWordSop 9#4 th)
  | .trigEndstop => .sop (encodeBareSop 10#4)
  | .homeFullyOpened => .sop (encodeBareSop 11#4)
  | .homeFullyClosed => .sop (encodeBareSop 12#4)
  | .getCurrentState => .sop (encodeBareSop 13#4)
  | .getDesiredState => .sop (encodeBareSop 14#4)
  | .extend q p t => .miw (encodeMotion 0#2 q p t)
  | .retract q p t => .miw (encodeMotion 1#2 q p t)
  | .hold q p t => .miw (encodeMotion 2#2 q p t)
  | .ready => .rw 0#42
  | .position c cp ct dp dt => .rw (encodePosition c cp ct dp dt)
  | .stallGuardResult c v => .rw (encodeStallGuard c v)

/-- The number a port's word is. -/
def PortWord.toNat : PortWord → Nat
  | .cw w => w.toNat
  | .sop w => w.toNat
  | .miw w => w.toNat
  | .rw w => w.toNat

/-- The bytes that lay a word out, least significant first. -/
def wordToBytes (w : PortWord) : List U8 := natToBytes w.port.bytes w.toNat

end Sys2Proof
end

