-- ==== Sys2Proof/Machine/State.lean ====
section
/-! DEFINITION. The state of the block (`10_state.md`), of the agents around it that the spec describes, and the state after
reset. State is plain data: every queue, flag word and record is a list of values. -/

namespace Sys2Proof.Machine

/-- Why a step stops. Nothing the spec calls fatal is here: a fatal fault is a state (`FATAL`, R262), not a stop. -/
inductive Fault where
  /-- A word of the sequencer port or of the motion port names channel `c`, which does not exist (R68: the channel space is
  `0 .. NCH-1`, "inside the block every index is in range"). Raised by the meanings of the SOP and MIW rows. Safe. -/
  | noSuchChannel (c : Nat)
deriving DecidableEq, Repr

/-- Why a word has no meaning. -/
inductive Refusal where
  /-- An instruction whose meaning is not written yet; no arm answers it. Safe. -/
  | notModelled (mnemonic : String)
  /-- A word of an inner port that is no instruction. For the sequencer and motion ports the spec says so: "a model refuses
  it" (R96, R104). For the report port it says only that kind 11 is never produced (U27), and refusing is the model's DESIGN
  CHOICE (log 19). Raised by the step that takes the word. Safe. -/
  | illegalWord (e : DecodeError)
  /-- An operand outside the range the operation is defined on (R20, R123, R143, R150, R151, R154, R96). Raised by the
  meanings of the SOP, MIW and RW rows that carry a WindowDressingState; decoding already refuses such words. Safe. -/
  | operandRange
deriving DecidableEq, Repr

/-- R260, R262. The fatal conditions that `FATAL` can latch. -/
inductive FatalCode where
  | mergeMismatch
  | mergeOverflow
deriving DecidableEq, Repr

/-- R260, D50. The number `FATAL` holds for a fatal condition. -/
def FatalCode.code : FatalCode → Nat
  | .mergeMismatch => 6
  | .mergeOverflow => 7

/-- R25 to R29. One channel's sequencer record `S[c]`. -/
structure Sequencer where
  /-- `S[c].fcq`. -/
  fcq : U32
  /-- `S[c].ftq`; tilt capability means it is `some` (R26). -/
  ftq : Option U32
  /-- `S[c].cur`. -/
  cur : WState
  /-- `S[c].des`. -/
  des : WState
  /-- `S[c].Q`, oldest first. -/
  queue : List Motion
deriving DecidableEq, Repr, Inhabited

/-- R31 to R34. One channel's dispatcher record `D[c]`. -/
structure Dispatcher where
  /-- `D[c].buf`. -/
  buf : Option Motion
  /-- `D[c].resume_after`. -/
  resumeAfter : Nat
  /-- `D[c].last_reversal`. -/
  lastReversal : Nat
  /-- `D[c].latched`. -/
  latched : Direction
deriving DecidableEq, Repr, Inhabited

/-- R43, R271. The arm state of an Endstop Watcher. -/
inductive Watcher where
  | armed
  | waitRelease
deriving DecidableEq, Repr, Inhabited

/-- Everything that exists once per channel. -/
structure Channel where
  /-- `S[c]`. -/
  seq : Sequencer
  /-- `D[c]`. -/
  disp : Dispatcher
  /-- `en[c]`, the driver-enable output (R36). -/
  en : Bool
  /-- `dir[c]`, the direction output (R36). -/
  dir : Bool
  /-- `W[c]` (R43). -/
  watcher : Watcher
  /-- The level of limit-switch line `c`, an input (R288). -/
  line : Bool
  /-- The pulses `PG[c]` has accepted and not yet emitted, state of the external generator (R42, R283). -/
  pending : Nat
deriving DecidableEq, Repr, Inhabited

/-- R94, R101. A report, as a record (DESIGN CHOICE, log 15). -/
inductive Report where
  | ready
  | position (channel : Nat) (current desired : WState)
  | stallGuardResult (channel : Nat) (sgResult : U8)
deriving DecidableEq, Repr

/-- R92. The protocol reader's framing state. `Decoded` is entered and left inside one transition, so it is not held. -/
inductive Reader where
  | awaitLength
  /-- Bytes still to come (at least one), and the payload so far. -/
  | awaitPayload (remaining : Nat) (payload : List U8)
deriving DecidableEq, Repr

/-- R100, the "result" column: what the sequencer port answered to the last request. -/
inductive SopResult where
  | nothing
  /-- An option MIW: a valid bit and the instruction. -/
  | motion (m : Option Motion)
  /-- The answer of a read accessor. -/
  | state (s : WState)
deriving DecidableEq, Repr

/-- The whole machine. -/
structure State where
  /-- The build's parameters (R4); constant. -/
  cfg : Params
  /-- The channels `0 .. NCH-1`. -/
  chans : List Channel
  /-- `ENDSTOP`, bit `c` at index `c`, `MASKW` bits (R38). -/
  endstop : List Bool
  /-- `POLARITY` (R39). -/
  polarity : List Bool
  /-- `FATAL` (R45); `none` is the value 0. -/
  fatal : Option FatalCode
  /-- The report stream, oldest first (R44). -/
  reports : List Report
  /-- The reports that the protocol encoder has been presented with on the report output port, oldest first (R101; log 18). -/
  encoded : List Report
  /-- How many reports of the stream the protocol encoder has taken (R101; log 18). -/
  taken : Nat
  /-- `now` (R280), without a bound (R212; log 15). -/
  now : Nat
  /-- The next channel of the dispatcher pass in progress, if one is (R190, R191; log 5). -/
  passAt : Option Nat
  /-- The protocol reader (R92). -/
  reader : Reader
  /-- The channel selected on the sequencer and motion ports (R100; log 3). -/
  sel : Nat
  /-- The sequencer port's last result (R100; log 3). -/
  sopOut : SopResult
  /-- What `setup` handed over to the stepper-driver configuration channel, in order (R287; log 6). -/
  driverCfg : List (Nat × U8)
  /-- The model's own: which free value is next (log 7). -/
  freeAt : Nat
  /-- The model's own: which event of the free schedule is next (log 8). -/
  schedAt : Nat
  /-- The model's own: events placed before the free schedule's (log 8). -/
  inputs : List Event
deriving DecidableEq, Repr

/-- R120. A newly constructed sequencer. -/
def Sequencer.fresh (p : Params) (fullCycle : U32) (fullTilt : Option U32) : Sequencer :=
  { fcq := fullCycle, ftq := fullTilt, cur := p.initState, des := p.initState, queue := [] }

/-- R31 to R34, D30. The dispatcher record at reset. -/
def Dispatcher.atReset : Dispatcher := { buf := none, resumeAfter := 0, lastReversal := 0, latched := .hold }

/-- R301. A channel at reset; the spec gives `dir[c]` no value, so the caller supplies one (log 2). The limit-switch line
is an input and keeps the level it has. -/
def Channel.atReset (p : Params) (dir line : Bool) : Channel :=
  { seq := Sequencer.fresh p p.defaultFullCycle Config.defaultFullTilt, disp := Dispatcher.atReset, en := false, dir := dir,
    watcher := .armed, line := line, pending := 0 }

/-- R301, R302. The state right after reset of a build: power-up. -/
def State.resetOf (p : Params) : State :=
  { cfg := p
    chans := List.replicate p.nch (Channel.atReset p false false)
    endstop := List.replicate p.maskw false
    polarity := List.replicate p.maskw false
    fatal := none
    reports := [.ready]
    encoded := []
    taken := 0
    now := 0
    passAt := none
    reader := .awaitLength
    sel := 0
    sopOut := .nothing
    driverCfg := []
    freeAt := 0
    schedAt := 0
    inputs := [] }

/-- The machine right after reset (R301), for the build `Config.build` (log 1). -/
def State.reset : State := State.resetOf Config.build

end Sys2Proof.Machine
end

