-- ==== Sys2Proof/Machine/Flags.lean ====
section
/-! DEFINITION. The shared flag words and their single-bit atomic operations (`10_state.md` rules R38 to R40, `20_memory.md`
rules R72 to R74), the direction line's level (R200), the deadline tests (R282) and the pause length (R192). -/

namespace Sys2Proof.Machine

/-- R40. Atomic read of one bit. -/
def readBit (word : List Bool) (c : Nat) : Bool := word.getD c false

/-- R40, R73, R74. Atomic set or clear of one bit. -/
def writeBit (word : List Bool) (c : Nat) (b : Bool) : List Bool := word.set c b

/-- R72. `fetch_and_clear`: the bit's value, and the word with that bit 0. -/
def fetchAndClear (word : List Bool) (c : Nat) : Bool × List Bool := (readBit word c, writeBit word c false)

/-- R237. The polarity bit `setup` writes: an absent `reverse` clears it. -/
def reverseBit (reverse : Option Bool) : Bool := reverse.getD false

/-- R4, D36. `DIRBIT`. -/
def dirBit (p : Params) : Direction → Bool
  | .extend => p.dirExtend
  | .retract => p.dirRetract
  | .hold => p.dirHold

/-- R200. The level of the direction line. -/
def dirLevel (p : Params) (quality : Direction) (reversed : Bool) : Bool := dirBit p quality ^^ reversed

/-- R192. `hold_time(q)`, multiplied first and rounded down. -/
def holdTime (p : Params) (quantity : U32) : Nat := quantity.toNat * p.timeHz / p.pulseFrequency

/-- R195. Whether the guard interval since the last direction change has elapsed: `t - last_reversal >= ENDSTOP_GUARD`. -/
def guardElapsed (p : Params) (t lastReversal : Nat) : Bool := decide (lastReversal + p.endstopGuard ≤ t)

/-- R200, R282. Whether the Hold deadline has passed. -/
def deadlinePassed (t resumeAfter : Nat) : Bool := decide (resumeAfter ≤ t)

end Sys2Proof.Machine
end

