-- ==== Sys2Proof/Machine/Operands.lean ====
section
/-! DEFINITION. Operand forms: how the raw fields of a word become positions, tilts, states and instructions
(`30_encoding.md` rules R95, R96), and how reports become words (R101). -/

namespace Sys2Proof.Machine

/-- R95. A `u8` position, zero-extended. -/
def positionOf (p : U8) : Nat := p.toNat

/-- R95. An `i8` tilt, sign-extended. -/
def tiltOf (t : U8) : Int := t.toInt

/-- The WindowDressingState two operand bytes stand for. -/
def stateOf (p t : U8) : WState := { position := positionOf p, tilt := tiltOf t }

/-- R23, R96. The motion instruction a word's fields stand for. -/
def motionOf (quality : Direction) (quantity : U32) (p t : U8) : Motion :=
  { quality := quality, quantity := quantity, completed := stateOf p t }

/-- R232. A value check on an optional operand: an absent field passes. -/
def optOk (check : U8 → Bool) : Option U8 → Bool
  | none => true
  | some v => check v

/-- R93. The state bytes of a WindowDressingState, for a report or motion word. -/
def positionByte (s : WState) : U8 := BitVec.ofNat 8 s.position

/-- R93. The tilt byte of a WindowDressingState, two's complement. -/
def tiltByte (s : WState) : U8 := BitVec.ofInt 8 s.tilt

/-- R96. The instruction row of a motion instruction. -/
def instrOfMotion (m : Motion) : Instr :=
  match m.quality with
  | .extend => .extend m.quantity (positionByte m.completed) (tiltByte m.completed)
  | .retract => .retract m.quantity (positionByte m.completed) (tiltByte m.completed)
  | .hold => .hold m.quantity (positionByte m.completed) (tiltByte m.completed)

/-- R94, R101. The report row of a report. -/
def instrOfReport : Report → Instr
  | .ready => .ready
  | .position c cur des =>
    .position (BitVec.ofNat 8 c) (positionByte cur) (tiltByte cur) (positionByte des) (tiltByte des)
  | .stallGuardResult c v => .stallGuardResult (BitVec.ofNat 8 c) v

/-- R101. The 42-bit word a report is presented as. -/
def reportWord (r : Report) : BitVec 42 :=
  match r with
  | .ready => 0#42
  | .position c cur des =>
    encodePosition (BitVec.ofNat 8 c) (positionByte cur) (tiltByte cur) (positionByte des) (tiltByte des)
  | .stallGuardResult c v => encodeStallGuard (BitVec.ofNat 8 c) v

end Sys2Proof.Machine
end

