-- ==== Sys2Proof/Machine/SeqOps.lean ====
section
/-! DEFINITION. The Instruction Sequencer as pure functions of its record (R126): the queue primitives of `20_memory.md`,
planning (`41_sequencer_motion.md`), fetch, grouping, merge and endstop recovery (`42_sequencer_fetch.md`). -/

namespace Sys2Proof.Machine

/-- R24. The canonical closed extreme. -/
def closedState : WState := { position := 0, tilt := 90 }

/-- R24. The canonical opened extreme. -/
def openedState : WState := { position := 100, tilt := 0 }

/-- R21. Strict order on states: position ascending, then tilt descending. -/
def stateLt (a b : WState) : Bool :=
  decide (a.position < b.position) || (decide (a.position = b.position) && decide (b.tilt < a.tilt))

/-! ### The queue -/

/-- R63. The queue after `q_push_back`: unchanged when full. -/
def pushBack (cap : Nat) (q : List Motion) (m : Motion) : List Motion :=
  if q.length < cap then q ++ [m] else q

/-- R63. The boolean `q_push_back` yields; every caller ignores it. -/
def pushAccepted (cap : Nat) (q : List Motion) : Bool := decide (q.length < cap)

/-- A run of pushes, in order. -/
def pushAll (cap : Nat) (q : List Motion) (ms : List Motion) : List Motion := ms.foldl (pushBack cap) q

/-- R145, R150. Whether the tail, if there is one, has another quality. -/
def tailDiffers (q : List Motion) (quality : Direction) : Bool :=
  match q.getLast? with
  | some tail => tail.quality != quality
  | none => false

/-! ### Construction and state load -/

/-- R120. `new`. -/
def newSequencer (p : Params) (fullCycle : U32) (fullTilt : Option U32) : Sequencer :=
  { fcq := fullCycle, ftq := fullTilt, cur := p.initState, des := p.initState, queue := [] }

/-- R123. `load_state`: the queue is not touched. -/
def loadState (s : WState) (S : Sequencer) : Sequencer := { S with cur := s, des := s }

/-! ### Planning -/

/-- R140. `hold(s)`. -/
def holdAt (p : Params) (s : WState) : Motion := { quality := .hold, quantity := p.holdQuantity, completed := s }

/-- R141. `base()`: where the queue ends. -/
def baseState (S : Sequencer) : WState :=
  match S.queue.getLast? with
  | some tail => tail.completed
  | none => S.cur

/-- R142. Pulses per percentage point of travel. -/
def positionStep (S : Sequencer) : U32 := S.fcq / 100#32

/-- R142. Pulses per degree of tilt. -/
def tiltStep (fullTilt : U32) : U32 := fullTilt / 180#32

/-- R150. The quality of a tilt sweep: `Hold` at the fully open position, otherwise by the sense. -/
def tiltQuality (position : Nat) (start stop : Int) : Direction :=
  if position = 100 then .hold else if stop < start then .retract else .extend

/-- R150. The quantity of each instruction of a tilt sweep. -/
def tiltQuantity (position : Nat) (fullTilt : U32) : U32 := if position = 100 then 0#32 else tiltStep fullTilt

/-- R150. The tilt after `k` degrees of a sweep. -/
def tiltAfter (start stop : Int) (k : Nat) : Int := if start < stop then start + k else start - k

/-- R150. The instructions of a tilt sweep, one per degree. -/
def tiltSweep (fullTilt : U32) (position : Nat) (start stop : Int) : List Motion :=
  (List.range (stop - start).natAbs).map fun k =>
    { quality := tiltQuality position start stop
      quantity := tiltQuantity position fullTilt
      completed := { position := position, tilt := tiltAfter start stop (k + 1) } }

/-- R150. The reversal `Hold` of a tilt: pushed when the tail's quality differs. -/
def pushTiltHold (p : Params) (S : Sequencer) (quality : Direction) : List Motion :=
  if tailDiffers S.queue quality then pushBack p.qcap S.queue (holdAt p (baseState S)) else S.queue

/-- R150. `add_tilt(from, to)`. -/
def addTilt (p : Params) (start stop : Int) (S : Sequencer) : Sequencer :=
  match S.ftq with
  | none => S
  | some fullTilt =>
    if start = stop then S
    else
      { S with
        queue := pushAll p.qcap (pushTiltHold p S (tiltQuality (baseState S).position start stop))
          (tiltSweep fullTilt (baseState S).position start stop) }

/-- R143. The quality of a move: `Retract` opens. -/
def moveQuality (position target : Nat) : Direction := if position < target then .retract else .extend

/-- R147. The position after `k` points of a move. -/
def positionAfter (position target k : Nat) : Nat := if position < target then position + k else position - k

/-- R143. `absolute_change`, on integers (R178 a). -/
def moveLength (position target : Nat) : Nat := if position < target then target - position else position - target

/-- R147. The instructions of a move, one per percentage point. -/
def moveSteps (step : U32) (tilt : Int) (position target : Nat) : List Motion :=
  (List.range (moveLength position target)).map fun k =>
    { quality := moveQuality position target
      quantity := step
      completed := { position := positionAfter position target (k + 1), tilt := tilt } }

/-- R146. The moving-extreme tilt of a venetian. -/
def movingExtreme (quality : Direction) : Int := if quality = .retract then -90 else 90

/-- R146, R147. The tilt held during the move: 0 on a roller. -/
def movingTilt (S : Sequencer) (quality : Direction) : Int :=
  match S.ftq with
  | some _ => movingExtreme quality
  | none => 0

/-- R145. The cleared queue with its reversal `Hold`, if the old tail's quality differs. -/
def restartQueue (p : Params) (S : Sequencer) (quality : Direction) : List Motion :=
  if tailDiffers S.queue quality then pushBack p.qcap [] (holdAt p S.cur) else []

/-- R143. The move part of a plan. -/
def pushMove (p : Params) (target : Nat) (S : Sequencer) : Sequencer :=
  { S with
    queue := pushAll p.qcap S.queue
      (moveSteps (positionStep S) (movingTilt S (moveQuality S.cur.position target)) S.cur.position target) }

/-- R148. `S.des.position <- target`. -/
def setDesPosition (target : Nat) (S : Sequencer) : Sequencer := { S with des := { S.des with position := target } }

/-- R143. `set_position(target)`. On a roller both `add_tilt` calls do nothing, as the pseudocode's guards say. -/
def setPosition (p : Params) (target : Nat) (S : Sequencer) : Sequencer :=
  if S.cur.position = target then S
  else
    let quality := moveQuality S.cur.position target
    let moving := movingTilt S quality
    let cleared : Sequencer := { S with queue := restartQueue p S quality }
    let tilted := addTilt p S.cur.tilt moving cleared
    let moved := setDesPosition target (pushMove p target tilted)
    addTilt p moving S.cur.tilt moved

/-- R151. `set_tilt(target)`. -/
def setTilt (p : Params) (target : Int) (S : Sequencer) : Sequencer :=
  match S.ftq with
  | none => S
  | some _ =>
    let tilted := addTilt p (baseState S).tilt target S
    { tilted with des := { tilted.des with tilt := target } }

/-- R154. `set_state(s)`. -/
def setState (p : Params) (s : WState) (S : Sequencer) : Sequencer := setTilt p s.tilt (setPosition p s.position S)

/-- R152. `home_fully_opened()`. -/
def homeFullyOpened (p : Params) (S : Sequencer) : Sequencer := setPosition p 100 (loadState closedState S)

/-- R153. `home_fully_closed()`. -/
def homeFullyClosed (p : Params) (S : Sequencer) : Sequencer := setPosition p 0 (loadState openedState S)

/-! ### Fetch, merge, grouping -/

/-- R170, R171, R273 (g). `merge(a, b)`: the quality test comes before the overflow test. -/
def merge (a b : Motion) : Except FatalCode Motion :=
  if a.quality ≠ b.quality then .error .mergeMismatch
  else if a.quantity.toNat + b.quantity.toNat > maxU32 then .error .mergeOverflow
  else .ok { quality := a.quality, quantity := a.quantity + b.quantity, completed := b.completed }

/-- R172. The queue after its front `m` was popped and left `rest`: the trailing `Hold`. -/
def queueAfterPop (p : Params) (m : Motion) (rest : List Motion) : List Motion :=
  if rest = [] ∧ m.quality ≠ .hold then pushBack p.qcap [] (holdAt p m.completed) else rest

/-- R172. `get_next_instruction()`. -/
def getNext (p : Params) (S : Sequencer) : Option Motion × Sequencer :=
  match S.queue with
  | [] => (none, S)
  | m :: rest => (some m, { S with cur := m.completed, queue := queueAfterPop p m rest })

/-- R174. The loop's condition: below the threshold, and the front has the accumulated quality. -/
def mayGroup (threshold : U32) (acc : Motion) (S : Sequencer) : Bool :=
  decide (acc.quantity.toNat < threshold.toNat) &&
    (match S.queue with
     | [] => false
     | front :: _ => front.quality == acc.quality)

/-- R174. The grouping loop, with `fuel` iterations at most; `getNextGrouped` gives it one per queued instruction, which
is always enough (`groupLoop_closed`). A failing merge abandons the operation after the pop (R262). -/
def groupLoop (p : Params) (threshold : U32) : Nat → Motion → Sequencer → Except FatalCode Motion × Sequencer
  | 0, acc, S => (.ok acc, S)
  | fuel + 1, acc, S =>
    if mayGroup threshold acc S then
      match getNext p S with
      | (none, S') => (.ok acc, S')
      | (some m, S') =>
        match merge acc m with
        | .error code => (.error code, S')
        | .ok acc' => groupLoop p threshold fuel acc' S'
    else (.ok acc, S)

/-- R174. `get_next_instruction_grouped(threshold)`. -/
def getNextGrouped (p : Params) (threshold : U32) (S : Sequencer) : Except FatalCode (Option Motion) × Sequencer :=
  match getNext p S with
  | (none, S') => (.ok none, S')
  | (some first, S') =>
    match groupLoop p threshold S'.queue.length first S' with
    | (.ok acc, S'') => (.ok (some acc), S'')
    | (.error code, S'') => (.error code, S'')

/-! ### Endstop recovery -/

/-- R176, C1. Whether the open extreme is inferred. -/
def towardOpen (S : Sequencer) : Bool := stateLt S.cur S.des || decide (S.cur.position = 100)

/-- R176. The inferred extreme `E`. -/
def inferredExtreme (S : Sequencer) : WState :=
  { position := if towardOpen S then 100 else 0, tilt := if S.ftq.isSome then 90 else 0 }

/-- R176. The placeholder `Hold`. -/
def endstopHold (p : Params) (e : WState) : Motion :=
  { quality := .hold, quantity := p.endstopHoldQuantity, completed := e }

/-- R176. `trig_endstop()`. -/
def trigEndstop (p : Params) (S : Sequencer) : Sequencer :=
  { S with
    cur := inferredExtreme S
    des := inferredExtreme S
    queue := pushBack p.qcap [] (endstopHold p (inferredExtreme S)) }

end Sys2Proof.Machine
end

