-- ==== Sys2Proof/Machine/Ops.lean ====
section
/-! DEFINITION. The named operations on the whole state: channel access, report emission (R244), the pulse generator's four
primitives (R283), the fatal fault (R262), device reset (R243, R301), and the endstop path (R196), which is the block's only
event handler (R274). -/

namespace Sys2Proof.Machine

/-! ### Access -/

/-- R68. Channel `c`, if it exists. -/
def State.chan? (s : State) (c : Nat) : Option Channel := s.chans[c]?

/-- Channel `c`; a record nothing reads where there is none (DESIGN CHOICE, log 15). -/
def State.chan (s : State) (c : Nat) : Channel := s.chans.getD c default

/-- Write channel `c`; nothing where there is none. -/
def State.setChan (s : State) (c : Nat) (ch : Channel) : State := { s with chans := s.chans.set c ch }

/-- Change channel `c` by a function of its record. -/
def State.onChan (s : State) (c : Nat) (f : Channel → Channel) : State := s.setChan c (f (s.chan c))

/-- R126. Change `S[c]` and nothing else. -/
def State.onSeq (s : State) (c : Nat) (f : Sequencer → Sequencer) : State :=
  s.onChan c fun ch => { ch with seq := f ch.seq }

/-- R45. The number in the fault latch. -/
def State.fatalCode (s : State) : Nat :=
  match s.fatal with
  | none => 0
  | some e => e.code

/-- R262. A halted block. -/
def State.halted (s : State) : Bool := s.fatal.isSome

/-! ### Reports -/

/-- R244. `emit R`. -/
def State.emit (s : State) (r : Report) : State := { s with reports := s.reports ++ [r] }

/-- R244. `emit position(c)`, with the register values of this instant. -/
def State.emitPosition (s : State) (c : Nat) : State :=
  s.emit (.position c (s.chan c).seq.cur (s.chan c).seq.des)

/-- R101. A report is presented on the report output port: the protocol encoder takes it. The report stream, which is what
the block has emitted, is not touched (R245). -/
def State.present (s : State) (r : Report) : State := { s with encoded := s.encoded ++ [r] }

/-! ### The pulse generator (R283 to R285, the reference contract) -/

/-- R283. `stopped()`. -/
def pgStopped (ch : Channel) : Bool := decide (ch.pending = 0)

/-- R284, U4. `ready()`: true when stopped, otherwise any value (`whileBusy`). -/
def pgReady (whileBusy : Bool) (ch : Channel) : Bool := pgStopped ch || whileBusy

/-- R283, R284. `try_push(n)` of a generator that accepts: `n` more pulses pending. Refusal is excluded
(R284; DEDUCED, log 11). -/
def pgPush (n : U32) (ch : Channel) : Channel := { ch with pending := ch.pending + n.toNat }

/-- R283. `clear()`. -/
def pgClear (ch : Channel) : Channel := { ch with pending := 0 }

/-- R283. Up to `n` pending pulses are emitted. -/
def pgDrain (n : Nat) (ch : Channel) : Channel := { ch with pending := ch.pending - n }

/-! ### Faults, reset, the endstop event -/

/-- R262. `raise Fatal(code)`: the first code is latched, and no pass continues. What was written before stands.
The pass in progress ends (DEDUCED, log 12). -/
def State.raiseFatal (s : State) (e : FatalCode) : State :=
  { s with fatal := (match s.fatal with | none => some e | some first => some first), passAt := none }

/-- R301. A channel after device reset. Its direction line has no specified level (U20); its limit-switch line is an input. -/
def Channel.deviceReset (p : Params) (dir : Bool) (ch : Channel) : Channel :=
  { seq := newSequencer p p.defaultFullCycle Config.defaultFullTilt
    disp := { buf := none, resumeAfter := 0, lastReversal := 0, latched := .hold }
    en := false, dir := dir, watcher := .armed, line := ch.line, pending := 0 }

/-- R243, R301, R302. Device reset: every piece of state takes its reset value and `ready` is emitted. The build, the inputs
of the environment and the model's counters are not state of the block and go on
(DEDUCED, log 13). -/
def State.deviceReset (s : State) : State :=
  { s with
    chans := s.chans.mapIdx fun c ch => Channel.deviceReset s.cfg (Config.resetDir s.freeAt c) ch
    endstop := List.replicate s.cfg.maskw false
    polarity := List.replicate s.cfg.maskw false
    fatal := none
    reports := [.ready]
    encoded := []
    taken := 0
    now := 0
    passAt := none
    reader := .awaitLength
    sel := 0
    sopOut := .nothing
    driverCfg := []
    freeAt := s.freeAt + 1 }

/-- R196. What the endstop path does to a channel: recover, discard the buffer, clear the generator, driver off. The other
dispatcher fields and the direction line stay (R213). -/
def endstopChannel (p : Params) (ch : Channel) : Channel :=
  { pgClear ch with seq := trigEndstop p ch.seq, disp := { ch.disp with buf := none }, en := false }

/-- R196, R274. Taking the endstop event on channel `c`: the block's one handler. Nothing is saved and there is no return
operation (R275). -/
def State.takeEndstop (s : State) (c : Nat) : State := (s.onChan c (endstopChannel s.cfg)).emitPosition c

/-- R271. One step of Endstop Watcher `c`; nothing for a channel that does not exist (DEDUCED, log 16). -/
def State.watcherStep (s : State) (c : Nat) : State :=
  match s.chan? c with
  | none => s
  | some ch =>
    match ch.watcher, ch.line with
    | .armed, true =>
      { s.setChan c { ch with watcher := .waitRelease } with endstop := writeBit s.endstop c true }
    | .waitRelease, false => s.setChan c { ch with watcher := .armed }
    | _, _ => s

end Sys2Proof.Machine
end

