-- ==== Sys2Proof/Machine/Commands.lean ====
section
/-! DEFINITION. The host commands (`44_host_commands.md`): the meanings of the six CW rows. -/

namespace Sys2Proof.Machine

open Host

/-- R230 to R233, R262. Applying a command to its channel: a halted block applies none; a channel or a value out of range is
a Decode error, which changes nothing and emits nothing (R261): the next state is the same one (DEDUCED, log 14). -/
def applyCommand (channel : U8) (legal : Bool) (effect : Nat → State → State) (s : State) : Outcome State Fault Refusal :=
  if s.halted then .next s
  else if channel.toNat < s.cfg.nch ∧ legal = true then .next (effect channel.toNat s)
  else .next s

/-- R243. `RESET`: device reset, accepted in every state. -/
def execReset (s : State) : Outcome State Fault Refusal := .next s.deviceReset

/-- R235. The homing operation the build's `HOME_TARGET` names. -/
def homeSequencer (p : Params) (S : Sequencer) : Sequencer :=
  match p.homeTarget with
  | .opened => homeFullyOpened p S
  | .closed => homeFullyClosed p S

/-- R235. The effect of `home`. -/
def homeEffect (c : Nat) (s : State) : State := (s.onSeq c (homeSequencer s.cfg)).emitPosition c

/-- R235. `HOME`. -/
def execHome (channel : U8) (s : State) : Outcome State Fault Refusal := applyCommand channel true homeEffect s

/-- R236. The sequencer `setup` builds: roller or venetian by the presence of `full_tilt_steps`, then `load_state(init)`. -/
def setupSequencer (p : Params) (init : WState) (fullCycle : U32) (fullTilt : Option U32) : Sequencer :=
  match fullTilt with
  | some t => loadState init (newSequencer p fullCycle (some t))
  | none => loadState init (newSequencer p fullCycle none)

/-- R236, R287. The hand-over of `sgthrs` to the stepper-driver configuration channel; the block keeps no copy, the model a
record (DEDUCED, log 6). -/
def handOver (c : Nat) (sgthrs : Option U8) (s : State) : State :=
  match sgthrs with
  | some v => { s with driverCfg := s.driverCfg ++ [(c, v)] }
  | none => s

/-- R236, R237. The effect of `setup`; `D[c]`, the lines, `ENDSTOP` and the generator are left alone (R238). -/
def setupEffect (init : WState) (fullCycle : U32) (reverse : Option Bool) (fullTilt : Option U32) (sgthrs : Option U8)
    (c : Nat) (s : State) : State :=
  let configured := s.onSeq c fun _ => setupSequencer s.cfg init fullCycle fullTilt
  let handed := handOver c sgthrs { configured with polarity := writeBit s.polarity c (reverseBit reverse) }
  handed.emitPosition c

/-- R236. `SETUP`. -/
def execSetup (channel position tilt : U8) (fullCycle : U32) (reverse : Option Bool) (fullTilt : Option U32)
    (sgthrs : Option U8) (s : State) : Outcome State Fault Refusal :=
  applyCommand channel (positionOk position && tiltOk tilt)
    (setupEffect (stateOf position tilt) fullCycle reverse fullTilt sgthrs) s

/-- R239. `set_position` if a position is given. -/
def setPositionIf (p : Params) (position : Option U8) (S : Sequencer) : Sequencer :=
  match position with
  | some x => setPosition p (positionOf x) S
  | none => S

/-- R239. `set_tilt` if a tilt is given. -/
def setTiltIf (p : Params) (tilt : Option U8) (S : Sequencer) : Sequencer :=
  match tilt with
  | some x => setTilt p (tiltOf x) S
  | none => S

/-- R239. The effect of `set`: position first, then tilt, then the report. -/
def setEffect (position tilt : Option U8) (c : Nat) (s : State) : State :=
  (s.onSeq c fun S => setTiltIf s.cfg tilt (setPositionIf s.cfg position S)).emitPosition c

/-- R239. `SET`. -/
def execSet (channel : U8) (position tilt : Option U8) (s : State) : Outcome State Fault Refusal :=
  applyCommand channel (optOk positionOk position && optOk tiltOk tilt) (setEffect position tilt) s

/-- R240. The effect of `get`: the report only. -/
def getEffect (c : Nat) (s : State) : State := s.emitPosition c

/-- R240. `GET`. -/
def execGet (channel : U8) (s : State) : Outcome State Fault Refusal := applyCommand channel true getEffect s

/-- R241, U9. The effect of `get_stall_guard_result`: a report whose value the environment supplies (a free value). -/
def stallGuardEffect (c : Nat) (s : State) : State :=
  { s.emit (.stallGuardResult c (Config.stallGuard s.freeAt)) with freeAt := s.freeAt + 1 }

/-- R241. `GET_SG`: without `STALL_FEATURE` the command does not exist and is a Decode error (R103, R233). -/
def execGetSg (channel : U8) (s : State) : Outcome State Fault Refusal :=
  applyCommand channel s.cfg.stallFeature stallGuardEffect s

end Sys2Proof.Machine
end

