-- ==== Sys2Proof/Machine/Dispatcher.lean ====
section
/-! DEFINITION. The Channel Dispatcher (`43_dispatcher.md`): dispatch of a motion instruction (R198 to R203), the fetch
(R204), the channel step (R205) and the pass (R190). -/

namespace Sys2Proof.Machine

/-- R198, R202. Dispatch of pulses: push the quantity and empty the buffer. -/
def consumePulses (quantity : U32) (ch : Channel) : Channel :=
  { pgPush quantity ch with disp := { ch.disp with buf := none } }

/-- R199, R201. Dispatch of a `Hold`: set the deadline and empty the buffer; never any pulse. -/
def consumeHold (p : Params) (t : Nat) (quantity : U32) (ch : Channel) : Channel :=
  { ch with disp := { ch.disp with resumeAfter := t + holdTime p quantity, buf := none } }

/-- R198, R199, R201, R202. The consumption of an instruction of the latched quality. -/
def consumeMotion (p : Params) (t : Nat) (m : Motion) (ch : Channel) : Channel :=
  if m.quality = .hold then consumeHold p t m.quantity ch else consumePulses m.quantity ch

/-- R200. The direction change: driver on, line set, change recorded, quality latched. -/
def changeDirection (p : Params) (t : Nat) (reversed : Bool) (quality : Direction) (ch : Channel) : Channel :=
  { ch with
    en := true
    dir := dirLevel p quality reversed
    disp := { ch.disp with lastReversal := t, latched := quality } }

/-- R200. When a direction change is allowed. -/
def mayChange (t : Nat) (ch : Channel) : Bool := pgStopped ch && deadlinePassed t ch.disp.resumeAfter

/-- R198 to R203. Dispatch of the instruction `m` that stands in `D[c].buf`, at time `t`. -/
def State.dispatch (s : State) (c : Nat) (m : Motion) (t : Nat) : State :=
  if m.quality = (s.chan c).disp.latched then s.onChan c (consumeMotion s.cfg t m)
  else if mayChange t (s.chan c) then
    ((s.onChan c (changeDirection s.cfg t (readBit s.polarity c) m.quality)).emitPosition c).onChan c
      (consumeMotion s.cfg t m)
  else s

/-- R207 to R209, "effect when fetched": the instruction enters the buffer and `S[c].cur` takes its completed state. -/
def fetchInto (m : Motion) (ch : Channel) : Channel :=
  { ch with seq := { ch.seq with cur := m.completed }, disp := { ch.disp with buf := some m } }

/-- R204. What the result of the grouped fetch does to the channel: it is buffered, and with no result and a stopped
generator the driver is switched off. -/
def bufferFetched (r : Option Motion) (S : Sequencer) (ch : Channel) : Channel :=
  { ch with
    seq := S
    disp := { ch.disp with buf := r }
    en := if r = none ∧ pgStopped ch = true then false else ch.en }

/-- R204. Nothing is buffered: fetch a group. A fatal merge leaves the sequencer as far as it came (R262). -/
def State.fetchGroup (s : State) (c : Nat) : State :=
  match getNextGrouped s.cfg s.cfg.tickPulseBudget (s.chan c).seq with
  | (.ok r, S) => s.onChan c (bufferFetched r S)
  | (.error e, S) => (s.onSeq c fun _ => S).raiseFatal e

/-- R205, step 2, past the `ready` gate. -/
def State.feed (s : State) (c : Nat) (t : Nat) : State :=
  match (s.chan c).disp.buf with
  | some m => s.dispatch c m t
  | none => s.fetchGroup c

/-- R205, step 2: sample `ready` (R197), a free value while pulses are pending (U4). -/
def State.feedCheck (s : State) (c : Nat) (t : Nat) : State :=
  let sampled := { s with freeAt := s.freeAt + 1 }
  if pgReady (Config.pgReady s.freeAt) (s.chan c) then sampled.feed c t else sampled

/-- R194. The state after the endstop flag of channel `c` was consumed. -/
def State.consumeFlag (s : State) (c : Nat) : State := { s with endstop := (fetchAndClear s.endstop c).2 }

/-- R194, R195. Whether the endstop path is taken at time `t`. -/
def State.endstopDue (s : State) (c : Nat) (t : Nat) : Bool :=
  (fetchAndClear s.endstop c).1 && guardElapsed s.cfg t (s.chan c).disp.lastReversal

/-- R205. `channel_step(c)`; `now` is sampled once (R212). A halted block runs none (R262). -/
def State.channelStep (s : State) (c : Nat) : State :=
  if s.halted then s
  else if s.endstopDue c s.now then (s.consumeFlag c).takeEndstop c
  else (s.consumeFlag c).feedCheck c s.now

/-- R191. The channel after `c` in the pass, or the pass's end. -/
def nextInPass (s : State) (c : Nat) : Option Nat := if c + 1 < s.cfg.nch then some (c + 1) else none

/-- R190. A tick starts a pass, unless the block is halted (R262). -/
def State.startPass (s : State) : State := if s.halted then s else { s with passAt := some 0 }

/-- R190, R191. The control loop's next piece of the pass in progress: one channel step, then the next channel. A fatal
fault ends the pass (R262). -/
def State.passStep (s : State) : State :=
  match s.passAt with
  | none => s
  | some c =>
    let stepped := s.channelStep c
    { stepped with passAt := if stepped.halted then none else nextInPass s c }

/-- R190. The whole pass as one function, channels ascending; the model's steps take it one channel at a time. -/
def State.pass (s : State) : State := (List.range s.cfg.nch).foldl State.channelStep s

end Sys2Proof.Machine
end

