-- ==== Sys2Proof/Machine/SeqPort.lean ====
section
/-! DEFINITION. The sequencer operation port (R100): the meanings of the fifteen SOP rows, each on the sequencer of the
channel selected outside the word. Presenting a word on this port is a DESIGN CHOICE (log 3). -/

namespace Sys2Proof.Machine

open Host

/-- R100, R126, R262. A request without a result: it changes `S[sel]` and nothing else but the port's result. A halted block
takes no step. -/
def seqRequest (f : Params → Sequencer → Sequencer) (s : State) : Outcome State Fault Refusal :=
  if s.halted then .next s
  else
    match s.chan? s.sel with
    | none => .fault (.noSuchChannel s.sel)
    | some _ => .next { s.onSeq s.sel (f s.cfg) with sopOut := .nothing }

/-- R100. A read accessor: it yields a state and changes no register. -/
def seqRead (f : Sequencer → WState) (s : State) : Outcome State Fault Refusal :=
  if s.halted then .next s
  else
    match s.chan? s.sel with
    | none => .fault (.noSuchChannel s.sel)
    | some ch => .next { s with sopOut := .state (f ch.seq) }

/-- R100, R172, R174. A fetch: it yields an option MIW, or raises a fatal fault and is abandoned there (R262). -/
def seqFetch (f : Params → Sequencer → Except FatalCode (Option Motion) × Sequencer) (s : State) :
    Outcome State Fault Refusal :=
  if s.halted then .next s
  else
    match s.chan? s.sel with
    | none => .fault (.noSuchChannel s.sel)
    | some ch =>
      match f s.cfg ch.seq with
      | (.ok r, S) => .next { s.onSeq s.sel (fun _ => S) with sopOut := .motion r }
      | (.error e, S) => .next ((s.onSeq s.sel fun _ => S).raiseFatal e)

/-- The single fetch in the form of `seqFetch`: it cannot fail. -/
def fetchOne (p : Params) (S : Sequencer) : Except FatalCode (Option Motion) × Sequencer :=
  (.ok (getNext p S).1, (getNext p S).2)

/-- R20. An operation on WindowDressingStates is defined on operands in range only. -/
def ifRange (ok : Bool) (run : Outcome State Fault Refusal) : Outcome State Fault Refusal :=
  if ok then run else .refused .operandRange

/-- R120. `NEW`. -/
def execNew (fullCycle : U32) (fullTilt : Option U32) (s : State) : Outcome State Fault Refusal :=
  seqRequest (fun p _ => newSequencer p fullCycle fullTilt) s

/-- R121. `NEW_ROLLER`. -/
def execNewRoller (fullCycle : U32) (s : State) : Outcome State Fault Refusal :=
  seqRequest (fun p _ => newSequencer p fullCycle none) s

/-- R122. `NEW_VENETIAN`. -/
def execNewVenetian (fullCycle fullTilt : U32) (s : State) : Outcome State Fault Refusal :=
  seqRequest (fun p _ => newSequencer p fullCycle (some fullTilt)) s

/-- R123. `LOAD_STATE`. -/
def execLoadState (position tilt : U8) (s : State) : Outcome State Fault Refusal :=
  ifRange (positionOk position && tiltOk tilt) (seqRequest (fun _ => loadState (stateOf position tilt)) s)

/-- R143. `SET_POSITION`. -/
def execSetPosition (target : U8) (s : State) : Outcome State Fault Refusal :=
  ifRange (positionOk target) (seqRequest (fun p => setPosition p (positionOf target)) s)

/-- R151. `SET_TILT`. -/
def execSetTilt (target : U8) (s : State) : Outcome State Fault Refusal :=
  ifRange (tiltOk target) (seqRequest (fun p => setTilt p (tiltOf target)) s)

/-- R150. `ADD_TILT`. -/
def execAddTilt (start stop : U8) (s : State) : Outcome State Fault Refusal :=
  ifRange (tiltOk start && tiltOk stop) (seqRequest (fun p => addTilt p (tiltOf start) (tiltOf stop)) s)

/-- R154. `SET_STATE`. -/
def execSetState (position tilt : U8) (s : State) : Outcome State Fault Refusal :=
  ifRange (positionOk position && tiltOk tilt) (seqRequest (fun p => setState p (stateOf position tilt)) s)

/-- R172. `GET_NEXT_INSTRUCTION`. -/
def execGetNextInstruction (s : State) : Outcome State Fault Refusal := seqFetch fetchOne s

/-- R174. `GET_NEXT_INSTRUCTION_GROUPED`. -/
def execGetNextInstructionGrouped (threshold : U32) (s : State) : Outcome State Fault Refusal :=
  seqFetch (fun p => getNextGrouped p threshold) s

/-- R176. `TRIG_ENDSTOP`. -/
def execTrigEndstop (s : State) : Outcome State Fault Refusal := seqRequest trigEndstop s

/-- R152. `HOME_FULLY_OPENED`. -/
def execHomeFullyOpened (s : State) : Outcome State Fault Refusal := seqRequest homeFullyOpened s

/-- R153. `HOME_FULLY_CLOSED`. -/
def execHomeFullyClosed (s : State) : Outcome State Fault Refusal := seqRequest homeFullyClosed s

/-- R124. `GET_CURRENT_STATE`. -/
def execGetCurrentState (s : State) : Outcome State Fault Refusal := seqRead Sequencer.cur s

/-- R125. `GET_DESIRED_STATE`. -/
def execGetDesiredState (s : State) : Outcome State Fault Refusal := seqRead Sequencer.des s

end Sys2Proof.Machine
end

