-- ==== Sys2Proof/Machine/MotionPort.lean ====
section
/-! DEFINITION. The motion instructions (`43_dispatcher.md` section 4): the meanings of the three MIW rows, on the channel
selected outside the word. -/

namespace Sys2Proof.Machine

open Host

/-- R207 to R209. A motion instruction's whole effect on channel `c` at time `now`. One that already stands in `D[c].buf` was
fetched on an earlier tick and is dispatched; with an empty buffer its fetch comes first ("effect when fetched"), then its
dispatch; while the buffer holds another instruction it is not its turn and nothing happens (R30; log 3). The endstop check of
R194 and the gate of R197 are the channel step's: a word presented here is dispatched, and may push pulses, WITHOUT reading or
clearing `ENDSTOP[c]`, which stays pending for the next channel step, and WITHOUT sampling `ready`, as if it had been true, and
the push is accepted (DESIGN CHOICE, log 17). The fetch leaves the queue alone. -/
def State.runMotion (s : State) (c : Nat) (m : Motion) : State :=
  match (s.chan c).disp.buf with
  | some b => if b = m then s.dispatch c m s.now else s
  | none => (s.onChan c (fetchInto m)).dispatch c m s.now

/-- R207 to R209, R262. A motion instruction on the selected channel. -/
def motionRequest (m : Motion) (s : State) : Outcome State Fault Refusal :=
  if s.halted then .next s
  else
    match s.chan? s.sel with
    | none => .fault (.noSuchChannel s.sel)
    | some _ => .next (s.runMotion s.sel m)

/-- R207. `EXTEND`. -/
def execExtend (quantity : U32) (position tilt : U8) (s : State) : Outcome State Fault Refusal :=
  ifRange (positionOk position && tiltOk tilt) (motionRequest (motionOf .extend quantity position tilt) s)

/-- R208. `RETRACT`. -/
def execRetract (quantity : U32) (position tilt : U8) (s : State) : Outcome State Fault Refusal :=
  ifRange (positionOk position && tiltOk tilt) (motionRequest (motionOf .retract quantity position tilt) s)

/-- R209. `HOLD`. -/
def execHold (quantity : U32) (position tilt : U8) (s : State) : Outcome State Fault Refusal :=
  ifRange (positionOk position && tiltOk tilt) (motionRequest (motionOf .hold quantity position tilt) s)

end Sys2Proof.Machine
end

