-- ==== Sys2Proof/Machine/ReportPort.lean ====
section
/-! DEFINITION. The report output port (R101): the meanings of the three RW rows. A report word is what the block presents and
"the protocol encoder turns the word into the JSON of rule R94 and the frame of rule R91", so executing one is the encoder's
taking it. Emission into the report stream is `State.emit`, which only the block's own rules call (R244, R245). That a word
may also be presented by the environment is a DESIGN CHOICE (log 3, log 18). -/

namespace Sys2Proof.Machine

open Host

/-- R101. The encoder takes a report, whether the block is halted or not, since it stands outside the block (log 18). -/
def encodeReportWord (r : Report) (s : State) : Outcome State Fault Refusal := .next (s.present r)

/-- R101, R302. `READY`. -/
def execReady (s : State) : Outcome State Fault Refusal := encodeReportWord .ready s

/-- R101, R244. `POSITION`. A state out of range is refused (DESIGN CHOICE, log 19); any channel byte is taken (log 18). -/
def execPosition (channel currentPosition currentTilt desiredPosition desiredTilt : U8) (s : State) :
    Outcome State Fault Refusal :=
  ifRange (positionOk currentPosition && tiltOk currentTilt && positionOk desiredPosition && tiltOk desiredTilt)
    (encodeReportWord
      (.position channel.toNat (stateOf currentPosition currentTilt) (stateOf desiredPosition desiredTilt)) s)

/-- R101, R241. `STALL_GUARD_RESULT`. -/
def execStallGuardResult (channel sgResult : U8) (s : State) : Outcome State Fault Refusal :=
  encodeReportWord (.stallGuardResult channel.toNat sgResult) s

end Sys2Proof.Machine
end

