-- ==== Sys2Proof/Machine/Dispatch.lean ====
section
/-! DEFINITION. The meaning of every instruction: one arm per constructor of Instr. -/

namespace Sys2Proof.Machine

open Host

def exec (i : Instr) (s : State) : Host.Outcome State Fault Refusal :=
  match i with
  -- command words
  | .reset => Sys2Proof.Machine.execReset s
  | .home channel => Sys2Proof.Machine.execHome channel s
  | .setup channel position tilt fullCycle reverse fullTilt sgthrs => Sys2Proof.Machine.execSetup channel position tilt fullCycle reverse fullTilt sgthrs s
  | .set channel position tilt => Sys2Proof.Machine.execSet channel position tilt s
  | .get channel => Sys2Proof.Machine.execGet channel s
  | .getSg channel => Sys2Proof.Machine.execGetSg channel s
  -- sequencer operation words
  | .new fullCycle fullTilt => Sys2Proof.Machine.execNew fullCycle fullTilt s
  | .newRoller fullCycle => Sys2Proof.Machine.execNewRoller fullCycle s
  | .newVenetian fullCycle fullTilt => Sys2Proof.Machine.execNewVenetian fullCycle fullTilt s
  | .loadState position tilt => Sys2Proof.Machine.execLoadState position tilt s
  | .setPosition target => Sys2Proof.Machine.execSetPosition target s
  | .setTilt target => Sys2Proof.Machine.execSetTilt target s
  | .addTilt start stop => Sys2Proof.Machine.execAddTilt start stop s
  | .setState position tilt => Sys2Proof.Machine.execSetState position tilt s
  | .getNextInstruction => Sys2Proof.Machine.execGetNextInstruction s
  | .getNextInstructionGrouped threshold => Sys2Proof.Machine.execGetNextInstructionGrouped threshold s
  | .trigEndstop => Sys2Proof.Machine.execTrigEndstop s
  | .homeFullyOpened => Sys2Proof.Machine.execHomeFullyOpened s
  | .homeFullyClosed => Sys2Proof.Machine.execHomeFullyClosed s
  | .getCurrentState => Sys2Proof.Machine.execGetCurrentState s
  | .getDesiredState => Sys2Proof.Machine.execGetDesiredState s
  -- motion instruction words
  | .extend quantity position tilt => Sys2Proof.Machine.execExtend quantity position tilt s
  | .retract quantity position tilt => Sys2Proof.Machine.execRetract quantity position tilt s
  | .hold quantity position tilt => Sys2Proof.Machine.execHold quantity position tilt s
  -- report words
  | .ready => Sys2Proof.Machine.execReady s
  | .position channel currentPosition currentTilt desiredPosition desiredTilt => Sys2Proof.Machine.execPosition channel currentPosition currentTilt desiredPosition desiredTilt s
  | .stallGuardResult channel sgResult => Sys2Proof.Machine.execStallGuardResult channel sgResult s

end Sys2Proof.Machine
end

