-- ==== Sys2Proof/Machine/Transport.lean ====
section
/-! DEFINITION. The protocol reader (R90, R92), as far as the spec gives it: framing is exact, the JSON text of a payload is a
free function (U37; log 9). And the outbound frame (R91). -/

namespace Sys2Proof.Machine

open Host

/-- R104, R260 class 3, R261. A word presented at the command port: an illegal one changes nothing. -/
def applyWord (w : BitVec 103) (s : State) : Outcome State Fault Refusal :=
  match decode (.cw w) with
  | .ok i => exec i s
  | .error _ => .next s

/-- R92, R103. A complete payload: decoded and applied, or discarded. No JSON command is the reset, which only the
zero-length frame requests (R90). -/
def applyPayload (payload : List U8) (s : State) : Outcome State Fault Refusal :=
  match Config.decodePayload payload with
  | none => .next s
  | some w => if decode (.cw w) = .ok .reset then .next s else applyWord w s

/-- R92. One inbound byte. -/
def readByte (b : U8) (s : State) : Outcome State Fault Refusal :=
  match s.reader with
  | .awaitLength =>
    if b = 0#8 then exec .reset s else .next { s with reader := .awaitPayload b.toNat [] }
  | .awaitPayload remaining payload =>
    if remaining ≤ 1 then applyPayload (payload ++ [b]) { s with reader := .awaitLength }
    else .next { s with reader := .awaitPayload (remaining - 1) (payload ++ [b]) }

/-- R260 class 2. A partial read: the frame is discarded (DEDUCED, log 14). -/
def discardFrame (s : State) : State := { s with reader := .awaitLength }

/-- R91, R260 class 4. The outbound frame of a payload, or nothing when it does not fit (an Encode error). -/
def outFrame (payload : List U8) : Option (List U8) :=
  if payload.length + 2 ≤ 255 then some (BitVec.ofNat 8 (payload.length + 2) :: (payload ++ [0x0D#8, 0x0A#8])) else none

/-- R101. The protocol encoder takes the next report of the stream, if there is one it has not taken (log 18). -/
def State.encodeNext (s : State) : State :=
  match s.reports[s.taken]? with
  | none => s
  | some r => State.present { s with taken := s.taken + 1 } r

/-- R91. The bytes of the outbound stream: every report the encoder has taken that fits, framed. -/
def State.outBytes (s : State) : List U8 :=
  s.encoded.flatMap fun r => (outFrame (Config.encodeReport (reportWord r))).getD []

end Sys2Proof.Machine
end

