-- ==== Sys2Proof/Machine/Events.lean ====
section
/-! DEFINITION. How the machine comes to its next transition: the next event (R75, R230, U31 to U33), what each event does,
and where a word is placed so that the next step runs it. -/

namespace Sys2Proof.Machine

open Host

/-- The next event: the first placed one, or the free schedule's next (log 8). -/
def State.nextEvent (s : State) : Event :=
  match s.inputs with
  | e :: _ => e
  | [] => .env (Config.schedule s.schedAt)

/-- The state with its next event taken. -/
def State.takeEvent (s : State) : State :=
  match s.inputs with
  | _ :: rest => { s with inputs := rest }
  | [] => { s with schedAt := s.schedAt + 1 }

/-- R75, R190, R230. The events the control loop's one thread serves between passes only. -/
def waitsForPass : Event → Bool
  | .env (.command _) | .env (.byte _) | .env .tick => true
  | _ => false

/-- R190. The control loop is inside a pass. -/
def State.inPass (s : State) : Bool := s.passAt.isSome

/-- R288. A limit-switch line takes a level. -/
def setLine (level : Bool) (ch : Channel) : Channel := { ch with line := level }

/-- R271, R262. The watcher step of an event; a halted block takes none (DEDUCED, log 12). -/
def State.watch (s : State) (c : Nat) : State := if s.halted then s else s.watcherStep c

/-- What an environment event does. -/
def envStep (e : EnvEvent) (s : State) : Outcome State Fault Refusal :=
  match e with
  | .command w => applyWord w s
  | .byte b => readByte b s
  | .transportError => .next s
  | .framingError => .next (discardFrame s)
  | .tick => .next s.startPass
  | .proceed => .next s.passStep
  | .watch c => .next (s.watch c)
  | .line c level => .next (s.onChan c (setLine level))
  | .drain c n => .next (s.onChan c (pgDrain n))
  | .advance n => .next { s with now := s.now + n }
  | .encode => .next s.encodeNext
  | .powerUp => .next s.deviceReset

/-- R96, R100, R104. A word presented on an inner port: decoded and run, or refused. For a report word the refusal is the
model's DESIGN CHOICE (log 19). -/
def runWord (w : PortWord) (s : State) : Outcome State Fault Refusal :=
  match decode w with
  | .ok i => exec i s
  | .error e => .refused (.illegalWord e)

/-- What an event does. -/
def react (e : Event) (s : State) : Outcome State Fault Refusal :=
  match e with
  | .env e => envStep e s
  | .request c w => runWord (.sop w) { s with sel := c }
  | .motion c w => runWord (.miw w) { s with sel := c }
  | .report w => runWord (.rw w) s

/-- One transition: an event that must wait for the pass in progress lets the pass go on by one channel step, and stays;
any other is taken. -/
def transition (s : State) : Outcome State Fault Refusal :=
  if s.inPass = true ∧ waitsForPass s.nextEvent = true then .next s.passStep
  else react s.nextEvent s.takeEvent

/-- The event that presents a word on its port; the inner ports with channel 0 selected. -/
def wordEvent : PortWord → Event
  | .cw w => .env (.command w)
  | .sop w => .request 0 w
  | .miw w => .motion 0 w
  | .rw w => .report w

/-- The state whose next transition takes the word `w`: first among the placed events, and between passes. -/
def State.withWord (s : State) (w : PortWord) : State :=
  { s with inputs := wordEvent w :: s.inputs, passAt := none }

/-- The word placed for a row of `nbits` bits; when no port reads an instruction from it, the first port that could carry it. -/
def fetchWord (nbits w : Nat) : Option PortWord :=
  match tableWordPort nbits w with
  | some p => some (p.word w)
  | none =>
    match candidatePorts nbits with
    | p :: _ => some (p.word w)
    | [] => none

end Sys2Proof.Machine
end

