-- ==== Sys2Proof/Machine/Step.lean ====
section
/-! DEFINITION. One step of the machine, and the placing of an instruction word for it. -/

namespace Sys2Proof.Machine

/-- One atomic transition of the block or of an agent around it (R75). -/
def step (s : State) : Host.Outcome State Fault Refusal := transition s

/-- The state in which the word `w` of `nbits` bits is what the next step takes. -/
def State.withFetchWord (s : State) (nbits w : Nat) : State :=
  match fetchWord nbits w with
  | some word => s.withWord word
  | none => s

end Sys2Proof.Machine
end

