-- ==== Sys2Proof/Safety.lean ====
section
/-! DEFINITION. What counts as a well-formed state and a safe run: the invariants the rules promise, and the closed forms of
the plans of `41_sequencer_motion.md` that statements compare the sequencer with. -/

namespace Sys2Proof.Machine

/-! ### Well-formed states -/

/-- R20, R29, R60. A sequencer record whose states are in range and whose queue fits. -/
abbrev Sequencer.wf (p : Params) (S : Sequencer) : Prop :=
  S.cur.inRange = true ∧ S.des.inRange = true ∧ S.queue.length ≤ p.qcap ∧ ∀ m ∈ S.queue, m.completed.inRange = true

/-- R20. The buffered instruction, if any, carries a state in range. -/
abbrev bufferWf (buf : Option Motion) : Prop := ∀ m ∈ buf.toList, m.completed.inRange = true

/-- A well-formed channel. -/
abbrev Channel.wf (p : Params) (ch : Channel) : Prop := ch.seq.wf p ∧ bufferWf ch.disp.buf

/-- R90, R92. The framing state of a payload of 1 to 255 bytes that is not complete. -/
def readerWf : Reader → Bool
  | .awaitLength => true
  | .awaitPayload remaining payload => decide (1 ≤ remaining) && decide (remaining + payload.length ≤ 255)

/-- R38, R40. A flag word of `MASKW` bits, those from `NCH` up clear. -/
abbrev flagsWf (p : Params) (word : List Bool) : Prop :=
  word.length = p.maskw ∧ ∀ b ∈ word.drop p.nch, b = false

/-- R190. The pass in progress, if any, is at a channel. -/
abbrev passWf (p : Params) (passAt : Option Nat) : Prop := ∀ c ∈ passAt.toList, c < p.nch

/-- A well-formed state: the constraints of R4, one record per channel (R68), flag words of `MASKW` bits (R38), and every
WindowDressingState in range (R20). -/
abbrev State.wf (s : State) : Prop :=
  s.cfg.wf = true ∧ s.chans.length = s.cfg.nch ∧ flagsWf s.cfg s.endstop ∧ flagsWf s.cfg s.polarity ∧
    (∀ ch ∈ s.chans, ch.wf s.cfg) ∧ passWf s.cfg s.passAt ∧ readerWf s.reader = true

/-! ### Safety properties -/

/-- R155. One opens and the other closes. -/
def opposed : Direction → Direction → Bool
  | .extend, .retract => true
  | .retract, .extend => true
  | _, _ => false

/-- R155. No `Extend` stands directly next to a `Retract`. -/
def smooth : List Motion → Bool
  | [] => true
  | [_] => true
  | a :: b :: rest => !opposed a.quality b.quality && smooth (b :: rest)

/-- R155, for every channel. -/
abbrev State.smoothQueues (s : State) : Prop := ∀ ch ∈ s.chans, smooth ch.seq.queue = true

/-- R320. While `Hold` is the latched quality the generator is stopped. -/
abbrev State.holdDrained (s : State) : Prop := ∀ ch ∈ s.chans, ch.disp.latched = .hold → ch.pending = 0

/-- R33, R280. No direction change lies in the future. -/
abbrev State.timely (s : State) : Prop := ∀ ch ∈ s.chans, ch.disp.lastReversal ≤ s.now

/-- R302. The stream has been restarted by a device reset and holds its first report only. -/
abbrev State.justReset (s : State) : Prop := s.reports = [.ready] ∧ s.now = 0 ∧ s.fatal = none

/-- R244, R245, R302. What a report that a transition other than a reset emits may be: never `ready`, and a position report
carries the registers of the channel at that instant. -/
def State.shows (t : State) : Report → Prop
  | .ready => False
  | .position c cur des => cur = (t.chan c).seq.cur ∧ des = (t.chan c).seq.des
  | .stallGuardResult _ _ => True

/-- R245. The events in which the block may emit: a command, given as a word or by a byte that completes its frame; a channel
step of a pass; a motion word. -/
def mayEmit : Event → Bool
  | .env (.command _) | .env (.byte _) | .env .proceed | .motion _ _ => true
  | _ => false

/-- R171, last sentence. The build's quantities, and every queued one, are below `2^31`. -/
abbrev State.smallQuantities (s : State) : Prop :=
  s.cfg.tickPulseBudget.toNat < 2147483648 ∧ s.cfg.holdQuantity.toNat < 2147483648 ∧
    s.cfg.endstopHoldQuantity.toNat < 2147483648 ∧
    ∀ ch ∈ s.chans, ∀ m ∈ ch.seq.queue, m.quantity.toNat < 2147483648

/-! ### Legal words (R96 to R101, R104) -/

/-- R97 to R99, R104. The command words that are not illegal. -/
def legalCw (w : BitVec 103) : Prop :=
  w.extractLsb' 0 3 = 0#3 ∨
    ((w.extractLsb' 0 3 = 1#3 ∨ w.extractLsb' 0 3 = 4#3 ∨ w.extractLsb' 0 3 = 5#3) ∧ w.extractLsb' 11 92 = 0#92) ∨
    (w.extractLsb' 0 3 = 2#3 ∧ (w.getLsbD 59 = false → w.getLsbD 60 = false) ∧
      (w.getLsbD 61 = false → w.extractLsb' 62 32 = 0#32) ∧ (w.getLsbD 94 = false → w.extractLsb' 95 8 = 0#8)) ∨
    (w.extractLsb' 0 3 = 3#3 ∧ (w.getLsbD 11 = false → w.extractLsb' 12 8 = 0#8) ∧
      (w.getLsbD 20 = false → w.extractLsb' 21 8 = 0#8) ∧ w.extractLsb' 29 74 = 0#74)

/-- R100, R104. The sequencer operation words that are not illegal: must-be-zero bits zero, `[36]` of `NEW_VENETIAN` set; and,
by the model's choice (log 3), states in range (R20). -/
def legalSop (w : BitVec 69) : Prop :=
  (w.extractLsb' 0 4 = 0#4 ∧ (w.getLsbD 36 = false → w.extractLsb' 37 32 = 0#32)) ∨
    ((w.extractLsb' 0 4 = 1#4 ∨ w.extractLsb' 0 4 = 9#4) ∧ w.extractLsb' 36 33 = 0#33) ∨
    (w.extractLsb' 0 4 = 2#4 ∧ w.getLsbD 36 = true) ∨
    ((w.extractLsb' 0 4 = 3#4 ∨ w.extractLsb' 0 4 = 7#4) ∧ w.extractLsb' 20 49 = 0#49 ∧
      positionOk (w.extractLsb' 4 8) = true ∧ tiltOk (w.extractLsb' 12 8) = true) ∨
    (w.extractLsb' 0 4 = 4#4 ∧ w.extractLsb' 12 57 = 0#57 ∧ positionOk (w.extractLsb' 4 8) = true) ∨
    (w.extractLsb' 0 4 = 5#4 ∧ w.extractLsb' 12 57 = 0#57 ∧ tiltOk (w.extractLsb' 4 8) = true) ∨
    (w.extractLsb' 0 4 = 6#4 ∧ w.extractLsb' 20 49 = 0#49 ∧ tiltOk (w.extractLsb' 4 8) = true ∧
      tiltOk (w.extractLsb' 12 8) = true) ∨
    ((w.extractLsb' 0 4 = 8#4 ∨ (10 ≤ (w.extractLsb' 0 4).toNat ∧ (w.extractLsb' 0 4).toNat ≤ 14)) ∧
      w.extractLsb' 4 65 = 0#65)

/-- R96. The motion instruction words that are not refused. -/
def legalMiw (w : BitVec 50) : Prop :=
  w.extractLsb' 48 2 ≠ 3#2 ∧ positionOk (w.extractLsb' 32 8) = true ∧ tiltOk (w.extractLsb' 40 8) = true

/-- R101, R20. The report words the model's decoder takes (refusing the others is its choice, log 19): the bits beyond a row's
fields zero, and states in range. -/
def legalRw (w : BitVec 42) : Prop :=
  (w.extractLsb' 0 2 = 0#2 ∧ w.extractLsb' 2 40 = 0#40) ∨
    (w.extractLsb' 0 2 = 1#2 ∧ positionOk (w.extractLsb' 10 8) = true ∧ tiltOk (w.extractLsb' 18 8) = true ∧
      positionOk (w.extractLsb' 26 8) = true ∧ tiltOk (w.extractLsb' 34 8) = true) ∨
    (w.extractLsb' 0 2 = 2#2 ∧ w.extractLsb' 18 24 = 0#24)

/-! ### Plans in closed form, from the pseudocode of R143 and R150 -/

/-- R141. Where the queue ends. -/
def endOf (S : Sequencer) : WState := (S.queue.getLast?.map Motion.completed).getD S.cur

/-- R145, R150. The reversal `Hold` before a segment of quality `quality`, given the tail before it and the state there. -/
def reversalHold (p : Params) (tail : Option Motion) (quality : Direction) (s : WState) : List Motion :=
  match tail with
  | some m => if m.quality = quality then [] else [{ quality := .hold, quantity := p.holdQuantity, completed := s }]
  | none => []

/-- R143. The quality of a move. -/
def travelQuality (position target : Nat) : Direction := if target > position then .retract else .extend

/-- R146. The tilt held while a venetian moves. -/
def travelTilt (position target : Nat) : Int := if target > position then -90 else 90

/-- R147. The instructions of a move, one per percentage point. -/
def travelRun (quantity : U32) (tilt : Int) (position target : Nat) : List Motion :=
  if target > position then
    (List.range (target - position)).map fun k =>
      { quality := .retract, quantity := quantity, completed := { position := position + (k + 1), tilt := tilt } }
  else
    (List.range (position - target)).map fun k =>
      { quality := .extend, quantity := quantity, completed := { position := position - (k + 1), tilt := tilt } }

/-- R150. The quality of a tilt. -/
def sweepQuality (position : Nat) (start stop : Int) : Direction :=
  if position = 100 then .hold else if stop < start then .retract else .extend

/-- R150. The instructions of a tilt, one per degree; of quantity 0 at position 100. -/
def sweepRun (fullTilt : U32) (position : Nat) (start stop : Int) : List Motion :=
  (List.range (stop - start).natAbs).map fun k : Nat =>
    { quality := sweepQuality position start stop
      quantity := if position = 100 then 0#32 else fullTilt / 180#32
      completed := { position := position, tilt := if stop > start then start + (k + 1 : Nat) else start - (k + 1 : Nat) } }

/-- R150. A tilt segment planned after the instructions `before`, whose end is the state `here`: its reversal `Hold` and its
sweep. -/
def tiltSegment (p : Params) (before : List Motion) (here : WState) (fullTilt : U32) (start stop : Int) : List Motion :=
  if start = stop then []
  else
    reversalHold p before.getLast? (sweepQuality here.position start stop) here
      ++ sweepRun fullTilt here.position start stop

/-- R143, R145, R147. The plan of a roller's move, before the capacity is applied. -/
def rollerPlan (p : Params) (S : Sequencer) (target : Nat) : List Motion :=
  reversalHold p S.queue.getLast? (travelQuality S.cur.position target) S.cur
    ++ travelRun (S.fcq / 100#32) 0 S.cur.position target

/-- R143, R145 to R147, R150. The plan of a venetian's move, before the capacity is applied: reversal `Hold`, tilt to the
moving extreme, move, tilt back. -/
def venetianPlan (p : Params) (S : Sequencer) (fullTilt : U32) (target : Nat) : List Motion :=
  let moving := travelTilt S.cur.position target
  let start := reversalHold p S.queue.getLast? (travelQuality S.cur.position target) S.cur
  let tilted := start ++ tiltSegment p start S.cur fullTilt S.cur.tilt moving
  let moved := tilted ++ travelRun (S.fcq / 100#32) moving S.cur.position target
  moved ++ tiltSegment p moved { position := target, tilt := moving } fullTilt moving S.cur.tilt

/-- R143. The plan of a move. -/
def movePlan (p : Params) (S : Sequencer) (target : Nat) : List Motion :=
  match S.ftq with
  | none => rollerPlan p S target
  | some fullTilt => venetianPlan p S fullTilt target

/-- R143, R144, R148, R149. The record after `set_position(target)`: the plan, cut off at the capacity. -/
def planned (p : Params) (S : Sequencer) (target : Nat) : Sequencer :=
  if S.cur.position = target then S
  else { S with des := { S.des with position := target }, queue := (movePlan p S target).take p.qcap }

/-- R151. The record after `set_tilt(target)`: what still fits is appended. -/
def tilted (p : Params) (S : Sequencer) (target : Int) : Sequencer :=
  match S.ftq with
  | none => S
  | some fullTilt =>
    { S with
      des := { S.des with tilt := target }
      queue := S.queue ++
        (tiltSegment p S.queue (endOf S) fullTilt (endOf S).tilt target).take (p.qcap - S.queue.length) }

/-- R152, R153. The record after homing from the extreme `start` to the position `target`. -/
def homed (p : Params) (S : Sequencer) (start : WState) (target : Nat) : Sequencer :=
  planned p { S with cur := start, des := start } target

/-- R235. The record after the homing that the build's `HOME_TARGET` names. -/
def homedPer (p : Params) (S : Sequencer) : Sequencer :=
  match p.homeTarget with
  | .opened => homed p S { position := 0, tilt := 90 } 100
  | .closed => homed p S { position := 100, tilt := 0 } 0

/-! ### The states that statements speak of -/

/-- Channel `c`, whose record was `ch`, with another sequencer record and its position report: what a command leaves. -/
def State.afterCommand (s : State) (c : Nat) (ch : Channel) (S : Sequencer) : State :=
  { s with chans := s.chans.set c { ch with seq := S }, reports := s.reports ++ [.position c S.cur S.des] }

/-- The selected channel, whose record was `ch`, with another sequencer record: what a request leaves, `out` being what the
port answers (R100's column "result"). -/
def State.afterRequest (s : State) (ch : Channel) (S : Sequencer) (out : SopResult) : State :=
  { s with chans := s.chans.set s.sel { ch with seq := S }, sopOut := out }

/-- The MIW row of a quality. -/
def motionRow (quality : Direction) (quantity : U32) (position tilt : U8) : Instr :=
  match quality with
  | .extend => .extend quantity position tilt
  | .retract => .retract quantity position tilt
  | .hold => .hold quantity position tilt

/-- R198, R199, R201, R202. A channel after the consumption of its buffered instruction at time `t`. -/
def Channel.consumed (p : Params) (t : Nat) (quality : Direction) (quantity : U32) (ch : Channel) : Channel :=
  match quality with
  | .hold =>
    { ch with disp := { ch.disp with buf := none, resumeAfter := t + quantity.toNat * p.timeHz / p.pulseFrequency } }
  | _ => { ch with pending := ch.pending + quantity.toNat, disp := { ch.disp with buf := none } }

/-- R200. A channel after a direction change at time `t`, before the consumption. -/
def Channel.turned (p : Params) (t : Nat) (polarity : Bool) (quality : Direction) (ch : Channel) : Channel :=
  let level := match quality with
    | .extend => p.dirExtend
    | .retract => p.dirRetract
    | .hold => p.dirHold
  { ch with en := true, dir := level ^^ polarity, disp := { ch.disp with lastReversal := t, latched := quality } }

/-- R205. The state a `channel_step(c)` reaches at its step 2: the endstop flag consumed, `ready` sampled. -/
def State.atFeed (s : State) (c : Nat) : State := { s with endstop := s.endstop.set c false, freeAt := s.freeAt + 1 }

/-- R195. The endstop path is not taken: the flag is clear, or the guard interval is not over. -/
abbrev State.noEndstop (s : State) (c : Nat) (ch : Channel) : Prop :=
  s.endstop.getD c false = false ∨ s.now < ch.disp.lastReversal + s.cfg.endstopGuard

/-- R238. Two states that differ in nothing a host command may read or write: the dispatcher records, the driver lines, the
generators, the watchers, the limit switches and `ENDSTOP` may differ. -/
abbrev State.sameForHost (s t : State) : Prop :=
  t.cfg = s.cfg ∧ t.chans.map Channel.seq = s.chans.map Channel.seq ∧ t.polarity = s.polarity ∧ t.fatal = s.fatal ∧
    t.reports = s.reports ∧ t.freeAt = s.freeAt ∧ t.driverCfg = s.driverCfg

/-- R35, R238. Two states that agree in what a host command leaves alone. -/
abbrev State.sameDispatch (s t : State) : Prop :=
  t.chans.map Channel.disp = s.chans.map Channel.disp ∧ t.chans.map Channel.en = s.chans.map Channel.en ∧
    t.chans.map Channel.dir = s.chans.map Channel.dir ∧ t.chans.map Channel.pending = s.chans.map Channel.pending ∧
    t.chans.map Channel.watcher = s.chans.map Channel.watcher ∧ t.chans.map Channel.line = s.chans.map Channel.line ∧
    t.endstop = s.endstop

end Sys2Proof.Machine
end

