-- ==== Sys2Proof/Certificates/Slice0/Obligations.lean ====
section
/-! DEFINITION. What is claimed of the model: one proposition per obligation, in the order of OBLIGATIONS.json. Every statement
quantifies over the build's parameters (`cfg`), so none rests on `Config.build` (log 1). -/

section

open Host Sys2Proof Sys2Proof.Machine

/-! ### Words -/

/-- R96 to R101. Decoding the word of a well-formed instruction gives the instruction back, every operand at every value. -/
def Obligations.DecodeEncode : Prop := ∀ i : Instr, i.wellFormed = true → decode (encode i) = .ok i

/-- R96 to R101. Every word that decodes is the encoding of what it decodes to, and that is well-formed; only `RESET` ignores
bits (R97). -/
def Obligations.EncodeDecode : Prop :=
  ∀ (w : PortWord) (i : Instr), decode w = .ok i → i.wellFormed = true ∧ (i ≠ .reset → encode i = w)

/-- R69, D52. Laid out in bytes, least significant byte first, an instruction's word is read back; a word of the table's
width in whole bytes is one of its port's. The padding bits are zero (log 20). -/
def Obligations.BytesDecode : Prop :=
  ∀ i : Instr, i.wellFormed = true →
    decodeBytes i.port (wordToBytes (encode i)) = .ok i ∧
      decodeTableWord (8 * i.port.bytes) (encode i).toNat = some i

/-- The words of test vector X10 of `95_test_vectors.md` decode to the instructions it writes beside them; so do four request
words written out from R100, and two words that R104 calls illegal do not decode. -/
def Obligations.WrittenWordsDecode : Prop :=
  decode (.cw 0xC3502D00002#103) = .ok (.setup 0 0 90 100000 none none none) ∧
    decode (.cw 0x2D38000C3502D00002#103) = .ok (.setup 0 0 90 100000 (some true) (some 180) none) ∧
    decode (.cw 0x6803#103) = .ok (.set 0 (some 6) none) ∧
    decode (.cw 0x9#103) = .ok (.home 1) ∧ decode (.cw 0x4#103) = .ok (.get 0) ∧ decode (.cw 0x0#103) = .ok .reset ∧
    decode (.miw 0x10032000003E8#50) = .ok (.retract 1000 50 0) ∧
    decode (.miw 0x2A76400000000#50) = .ok (.hold 0 100 (-89)) ∧
    decode (.miw 0x5A63000003E8#50) = .ok (.extend 1000 99 90) ∧
    decode (.rw 0x16819680001#42) = .ok (.position 0 0 90 6 90) ∧
    decode (.rw 0x16806980401#42) = .ok (.position 0 1 (-90) 1 90) ∧
    decode (.sop 0x324#69) = .ok (.setPosition 50) ∧ decode (.sop 0xFD006#69) = .ok (.addTilt 0 (-3)) ∧
    decode (.sop 0x169000186A02#69) = .ok (.newVenetian 100000 180) ∧
    decode (.sop 0x9C49#69) = .ok (.getNextInstructionGrouped 2500) ∧
    decode (.cw 0x6#103) = .error .reservedOp ∧ decode (.sop 0xF#69) = .error .reservedSop

/-- R104, R96 to R101, U26. Which words of the block's ports are legal; an illegal word at the command port changes nothing and
emits nothing, one at an inner port is refused. `RESET` (op 000) ignores every other bit. Two clauses are the model's choice:
that a sequencer operation word with a state out of range is refused (log 3), and what a legal report word is (log 19). -/
def Obligations.IllegalWords : Prop :=
  (∀ w : BitVec 103, (∃ i, decode (.cw w) = .ok i) ↔ legalCw w) ∧
    (∀ w : BitVec 69, (∃ i, decode (.sop w) = .ok i) ↔ legalSop w) ∧
    (∀ w : BitVec 50, (∃ i, decode (.miw w) = .ok i) ↔ legalMiw w) ∧
    (∀ w : BitVec 42, (∃ i, decode (.rw w) = .ok i) ↔ legalRw w) ∧
    (∀ (w : BitVec 103) (s : State), ¬ legalCw w → applyWord w s = .next s) ∧
    (∀ (w : BitVec 69) (s : State), ¬ legalSop w → ∃ e, runWord (.sop w) s = .refused (.illegalWord e)) ∧
    (∀ (w : BitVec 50) (s : State), ¬ legalMiw w → ∃ e, runWord (.miw w) s = .refused (.illegalWord e)) ∧
    (∀ (w : BitVec 42) (s : State), ¬ legalRw w → ∃ e, runWord (.rw w) s = .refused (.illegalWord e))

/-! ### Steps -/

/-- A step takes the next placed event, and the word it presents is decoded and run by `exec`: on the command port, and with
the channel selected on the sequencer and motion ports, and on the report port. A command waits for the pass in progress
(log 3, log 5, log 8). -/
def Obligations.StepRunsDecoded : Prop :=
  (∀ (s : State) (w : BitVec 103) (rest : List Event) (i : Instr), s.inputs = .env (.command w) :: rest → s.passAt = none →
      decode (.cw w) = .ok i → step s = exec i { s with inputs := rest }) ∧
    (∀ (s : State) (c : Nat) (w : BitVec 69) (rest : List Event) (i : Instr), s.inputs = .request c w :: rest →
      decode (.sop w) = .ok i → step s = exec i { s with inputs := rest, sel := c }) ∧
    (∀ (s : State) (c : Nat) (w : BitVec 50) (rest : List Event) (i : Instr), s.inputs = .motion c w :: rest →
      decode (.miw w) = .ok i → step s = exec i { s with inputs := rest, sel := c }) ∧
    (∀ (s : State) (w : BitVec 42) (rest : List Event) (i : Instr), s.inputs = .report w :: rest →
      decode (.rw w) = .ok i → step s = exec i { s with inputs := rest })

/-- The host's placing of a word (log 3, log 8, log 10): the next step runs the instruction the decoder reads from it, between
passes, with channel 0 selected exactly for a word of the sequencer or the motion port. -/
def Obligations.FetchRunsDecoded : Prop :=
  ∀ (s : State) (nbits w : Nat) (i : Instr), decodeTableWord nbits w = some i →
    step (s.withFetchWord nbits w) =
      exec i { s with passAt := none, sel := if i.port = .sop ∨ i.port = .miw then 0 else s.sel }

/-- R190, R230. A command, a byte or a tick that arrives inside a pass waits: the step is the pass's next channel step, and
the event stays where it is (log 5). -/
def Obligations.CommandsWaitForPass : Prop :=
  ∀ (s : State) (c : Nat) (e : Event) (rest : List Event), s.passAt = some c → s.inputs = e :: rest →
    (e = .env .tick ∨ (∃ b, e = .env (.byte b)) ∨ ∃ w, e = .env (.command w)) →
    step s = .next { s.channelStep c with
      passAt := if (s.channelStep c).fatal.isSome then none else if c + 1 < s.cfg.nch then some (c + 1) else none }

/-! ### Reset -/

/-- R301, R302. What power-up leaves, for every build. `dir[c]` and the line's level are left out: the spec gives none. -/
def Obligations.ResetState : Prop :=
  ∀ p : Params,
    (∀ c, c < p.nch → ∃ ch, (State.resetOf p).chans[c]? = some ch ∧
      ch.seq = { fcq := p.defaultFullCycle, ftq := none, cur := p.initState, des := p.initState, queue := [] } ∧
      ch.disp = { buf := none, resumeAfter := 0, lastReversal := 0, latched := .hold } ∧ ch.en = false ∧
      ch.watcher = .armed ∧ ch.pending = 0) ∧
    (State.resetOf p).chans.length = p.nch ∧ (State.resetOf p).endstop = List.replicate p.maskw false ∧
    (State.resetOf p).polarity = List.replicate p.maskw false ∧ (State.resetOf p).fatal = none ∧
    (State.resetOf p).now = 0 ∧ (State.resetOf p).reports = [.ready]

/-- R243, R300. The zero-length frame, as a byte in `AwaitLength` and as any command word whose `op` is 000, and power-up, in a
pass or not, reset the device in every state, a halted one included, to the same effect: every register at its reset value,
and the report stream restarted with `ready`. -/
def Obligations.ResetCommand : Prop :=
  ∀ s : State, ∃ t, exec .reset s = .next t ∧ (∀ w : BitVec 103, w.extractLsb' 0 3 = 0#3 → applyWord w s = .next t) ∧
    (s.reader = .awaitLength → readByte 0#8 s = .next t) ∧
    envStep .powerUp s = .next t ∧
    (∀ (u : State) (rest : List Event), u.inputs = .env .powerUp :: rest → { u with inputs := rest } = s → step u = .next t) ∧
    (∀ c, c < s.chans.length → ∃ ch, t.chans[c]? = some ch ∧
      ch.seq = { fcq := s.cfg.defaultFullCycle, ftq := none, cur := s.cfg.initState, des := s.cfg.initState, queue := [] } ∧
      ch.disp = { buf := none, resumeAfter := 0, lastReversal := 0, latched := .hold } ∧ ch.en = false ∧
      ch.watcher = .armed ∧ ch.pending = 0) ∧
    t.chans.length = s.chans.length ∧ t.cfg = s.cfg ∧ t.endstop = List.replicate s.cfg.maskw false ∧
    t.polarity = List.replicate s.cfg.maskw false ∧ t.fatal = none ∧ t.now = 0 ∧ t.reports = [.ready]

/-- The invariants hold right after reset, for every build that meets the constraints of R4. -/
def Obligations.ResetInvariants : Prop :=
  ∀ p : Params, p.wf = true →
    (State.resetOf p).wf ∧ (State.resetOf p).smoothQueues ∧ (State.resetOf p).holdDrained ∧ (State.resetOf p).timely

/-! ### Commands -/

/-- R235. `home`: the sequencer is forced to the opposite extreme and a full move is planned (R152, R153, R143); the report
shows both. Nothing else changes. -/
def Obligations.HomeCommand : Prop :=
  ∀ (c : U8) (s : State) (ch : Channel), s.fatal = none → c.toNat < s.cfg.nch → s.chans[c.toNat]? = some ch →
    exec (.home c) s = .next (s.afterCommand c.toNat ch (homedPer s.cfg ch.seq))

/-- R236, R237. `setup`: a new sequencer seeded with `init`, the polarity bit set exactly for `reverse: true`, `sgthrs` handed
over, one report. `D[c]`, the lines and the generator are as before (R238). -/
def Obligations.SetupCommand : Prop :=
  ∀ (c pos tilt : U8) (fc : U32) (reverse : Option Bool) (ft : Option U32) (sgthrs : Option U8) (s : State) (ch : Channel),
    s.fatal = none → c.toNat < s.cfg.nch → s.chans[c.toNat]? = some ch → pos.toNat ≤ 100 →
    -90 ≤ tilt.toInt → tilt.toInt ≤ 90 →
    exec (.setup c pos tilt fc reverse ft sgthrs) s = .next
      { s with
        chans := s.chans.set c.toNat
          { ch with
            seq :=
              { fcq := fc, ftq := ft, cur := { position := pos.toNat, tilt := tilt.toInt },
                des := { position := pos.toNat, tilt := tilt.toInt }, queue := [] } }
        polarity := s.polarity.set c.toNat (decide (reverse = some true))
        driverCfg := s.driverCfg ++ (sgthrs.map fun v => (c.toNat, v)).toList
        reports := s.reports ++ [.position c.toNat { position := pos.toNat, tilt := tilt.toInt }
          { position := pos.toNat, tilt := tilt.toInt }] }

/-- R239. `set`: the position first, then the tilt, then the report; with neither, the report alone. -/
def Obligations.SetCommand : Prop :=
  ∀ (c : U8) (pos tilt : Option U8) (s : State) (ch : Channel), s.fatal = none → c.toNat < s.cfg.nch →
    s.chans[c.toNat]? = some ch → (∀ x, pos = some x → x.toNat ≤ 100) →
    (∀ x, tilt = some x → -90 ≤ x.toInt ∧ x.toInt ≤ 90) →
    exec (.set c pos tilt) s = .next (s.afterCommand c.toNat ch
      (match pos, tilt with
        | none, none => ch.seq
        | some x, none => planned s.cfg ch.seq x.toNat
        | none, some y => tilted s.cfg ch.seq y.toInt
        | some x, some y => tilted s.cfg (planned s.cfg ch.seq x.toNat) y.toInt))

/-- R240. `get`: one position report with the two state registers, and no other change. -/
def Obligations.GetCommand : Prop :=
  ∀ (c : U8) (s : State) (ch : Channel), s.fatal = none → c.toNat < s.cfg.nch → s.chans[c.toNat]? = some ch →
    exec (.get c) s = .next { s with reports := s.reports ++ [.position c.toNat ch.seq.cur ch.seq.des] }

/-- R241. `get_stall_guard_result`: one report with a value the environment supplies; only the model's counter of free values
(log 7) moves on. Without `STALL_FEATURE` the command is refused. -/
def Obligations.GetStallGuardCommand : Prop :=
  ∀ (c : U8) (s : State), s.fatal = none → c.toNat < s.cfg.nch →
    (s.cfg.stallFeature = true → ∃ v, exec (.getSg c) s =
      .next { s with reports := s.reports ++ [.stallGuardResult c.toNat v], freeAt := s.freeAt + 1 }) ∧
    (s.cfg.stallFeature = false → exec (.getSg c) s = .next s)

/-- R231, R232, R261. A command whose channel does not exist, or that carries a position or tilt out of range, leaves the
state as it was and emits nothing. -/
def Obligations.RefusedCommands : Prop :=
  ∀ s : State,
    (∀ c : U8, s.cfg.nch ≤ c.toNat →
      exec (.home c) s = .next s ∧ exec (.get c) s = .next s ∧ exec (.getSg c) s = .next s ∧
      (∀ p t, exec (.set c p t) s = .next s) ∧
      (∀ p t fc r ft sg, exec (.setup c p t fc r ft sg) s = .next s)) ∧
    (∀ c p t fc r ft sg, (100 < p.toNat ∨ t.toInt < -90 ∨ 90 < t.toInt) → exec (.setup c p t fc r ft sg) s = .next s) ∧
    (∀ c (p : U8) t, 100 < p.toNat → exec (.set c (some p) t) s = .next s) ∧
    (∀ c p (t : U8), t.toInt < -90 ∨ 90 < t.toInt → exec (.set c p (some t)) s = .next s)

/-- R262. A halted block: no instruction but `RESET` changes anything, no tick starts a pass, no channel step and no watcher
step changes anything. A report word changes only what the protocol encoder, which stands outside the block, has taken
(log 18). That a word on an inner port and a watcher step change nothing then is the model's reading (log 12). -/
def Obligations.HaltedBlock : Prop :=
  ∀ s : State, s.fatal.isSome = true →
    (∀ i : Instr, i.wellFormed = true → i ≠ .reset →
      ∃ t, exec i s = .next t ∧ (i.port ≠ .rw → t = s) ∧ { t with encoded := s.encoded } = s) ∧
      s.startPass = s ∧ (∀ c, s.channelStep c = s) ∧ ∀ c, s.watch c = s

/-- R238, R35, R78. A command other than `RESET` writes no dispatcher record, line, generator, watcher or `ENDSTOP` bit, and
reads none: from two states that differ only in those it does the same to the rest. -/
def Obligations.CommandsAndDispatcherApart : Prop :=
  ∀ (i : Instr) (s t s' : State), i.port = .cw → i ≠ .reset → exec i s = .next t → s.sameForHost s' →
    s.sameDispatch t ∧ ∃ t', exec i s' = .next t' ∧ s'.sameDispatch t' ∧ t.sameForHost t'

/-! ### Sequencer operations -/

/-- R120 to R122. Construction: the given quantities, `INIT_STATE` twice, an empty queue. -/
def Obligations.ConstructorRequests : Prop :=
  ∀ (s : State) (ch : Channel) (fc ft : U32) (o : Option U32), s.fatal = none → s.chans[s.sel]? = some ch →
    exec (.new fc o) s = .next (s.afterRequest ch
      { fcq := fc, ftq := o, cur := s.cfg.initState, des := s.cfg.initState, queue := [] } .nothing) ∧
    exec (.newRoller fc) s = .next (s.afterRequest ch
      { fcq := fc, ftq := none, cur := s.cfg.initState, des := s.cfg.initState, queue := [] } .nothing) ∧
    exec (.newVenetian fc ft) s = .next (s.afterRequest ch
      { fcq := fc, ftq := some ft, cur := s.cfg.initState, des := s.cfg.initState, queue := [] } .nothing)

/-- R123. `load_state`: both state registers, nothing else; the queue is kept. -/
def Obligations.LoadStateRequest : Prop :=
  ∀ (s : State) (ch : Channel) (p t : U8), s.fatal = none → s.chans[s.sel]? = some ch → p.toNat ≤ 100 →
    -90 ≤ t.toInt → t.toInt ≤ 90 →
    exec (.loadState p t) s = .next (s.afterRequest ch
      { ch.seq with
        cur := { position := p.toNat, tilt := t.toInt }, des := { position := p.toNat, tilt := t.toInt } } .nothing)

/-- R143 to R148. `set_position`: a no-op at the current position; otherwise the queue becomes the plan, cut off at `QCAP`, and
`S.des.position` the target. -/
def Obligations.SetPositionRequest : Prop :=
  ∀ (s : State) (ch : Channel) (x : U8), s.fatal = none → s.chans[s.sel]? = some ch → x.toNat ≤ 100 →
    exec (.setPosition x) s = .next (s.afterRequest ch (planned s.cfg ch.seq x.toNat) .nothing)

/-- R149 (a sentence the spec marks as derived). A plan of `set_position` has at most 101 instructions on a roller and 463 on a
venetian, so with that capacity nothing of it is lost; with a smaller one it is cut off at its far end and `S.des` still names
the target. -/
def Obligations.PlanLength : Prop :=
  ∀ (p : Params) (S : Sequencer) (target : Nat), S.cur.inRange = true → target ≤ 100 → S.cur.position ≠ target →
    (S.ftq = none → (movePlan p S target).length ≤ 101) ∧ (movePlan p S target).length ≤ 463 ∧
      (setPosition p target S).queue = (movePlan p S target).take p.qcap ∧
      (463 ≤ p.qcap → (setPosition p target S).queue = movePlan p S target) ∧
      (setPosition p target S).des.position = target

/-- R150. `add_tilt`: on a roller, or between equal angles, nothing; otherwise the reversal `Hold` where the tail's quality
differs and one instruction per degree, as far as they fit. -/
def Obligations.AddTiltRequest : Prop :=
  ∀ (s : State) (ch : Channel) (a b : U8), s.fatal = none → s.chans[s.sel]? = some ch → -90 ≤ a.toInt → a.toInt ≤ 90 →
    -90 ≤ b.toInt → b.toInt ≤ 90 →
    exec (.addTilt a b) s = .next (s.afterRequest ch
      (match ch.seq.ftq with
        | none => ch.seq
        | some ft =>
          { ch.seq with
            queue := ch.seq.queue ++
              (tiltSegment s.cfg ch.seq.queue (endOf ch.seq) ft a.toInt b.toInt).take
                (s.cfg.qcap - ch.seq.queue.length) }) .nothing)

/-- R151. `set_tilt`: on a roller nothing; otherwise the tilt from where the queue ends is appended and `S.des.tilt` written. -/
def Obligations.SetTiltRequest : Prop :=
  ∀ (s : State) (ch : Channel) (t : U8), s.fatal = none → s.chans[s.sel]? = some ch → -90 ≤ t.toInt → t.toInt ≤ 90 →
    exec (.setTilt t) s = .next (s.afterRequest ch (tilted s.cfg ch.seq t.toInt) .nothing)

/-- R154. `set_state` is `set_position` and then `set_tilt`. -/
def Obligations.SetStateRequest : Prop :=
  ∀ (s : State) (ch : Channel) (p t : U8), s.fatal = none → s.chans[s.sel]? = some ch → p.toNat ≤ 100 →
    -90 ≤ t.toInt → t.toInt ≤ 90 →
    exec (.setState p t) s =
        .next (s.afterRequest ch (tilted s.cfg (planned s.cfg ch.seq p.toNat) t.toInt) .nothing) ∧
      ∃ u, exec (.setPosition p) s = .next u ∧ exec (.setTilt t) u = exec (.setState p t) s

/-- R152, R153. Homing: both state registers forced to the opposite extreme, then `set_position` to the extreme. -/
def Obligations.HomingRequests : Prop :=
  ∀ (s : State) (ch : Channel), s.fatal = none → s.chans[s.sel]? = some ch →
    exec .homeFullyOpened s =
        .next (s.afterRequest ch (homed s.cfg ch.seq { position := 0, tilt := 90 } 100) .nothing) ∧
      exec .homeFullyClosed s =
        .next (s.afterRequest ch (homed s.cfg ch.seq { position := 100, tilt := 0 } 0) .nothing)

/-- R172, R173. `get_next_instruction`: nothing from an empty queue; else the front is popped, `S.cur` takes its completed
state, and one `Hold` of `HOLD_QUANTITY` follows when real motion has drained the queue. -/
def Obligations.GetNextRequest : Prop :=
  ∀ (s : State) (ch : Channel), s.fatal = none → s.chans[s.sel]? = some ch → 1 ≤ s.cfg.qcap →
    (ch.seq.queue = [] → exec .getNextInstruction s = .next { s with sopOut := .motion none }) ∧
    ∀ m rest, ch.seq.queue = m :: rest →
      exec .getNextInstruction s = .next (s.afterRequest ch
        { ch.seq with
          cur := m.completed
          queue := if rest = [] ∧ m.quality ≠ .hold then
            [{ quality := .hold, quantity := s.cfg.holdQuantity, completed := m.completed }] else rest }
        (.motion (some m)))

/-- R174, R171, R262. `get_next_instruction_grouped(threshold)`: nothing from an empty queue; else the front and the shortest
run of the same quality after it that reaches the threshold, or ends before another quality or at the queue's end, as one
instruction. If the sum exceeds `2^32 - 1` the operation ends in `Fatal(MergeOverflow)`, with what was popped popped; that a
pass in progress ends with it is the model's reading of R262 (log 12). -/
def Obligations.GroupedRequest : Prop :=
  ∀ (s : State) (ch : Channel) (th : U32), s.fatal = none → s.chans[s.sel]? = some ch → 1 ≤ s.cfg.qcap →
    (ch.seq.queue = [] → exec (.getNextInstructionGrouped th) s = .next { s with sopOut := .motion none }) ∧
    ∀ first rest, ch.seq.queue = first :: rest →
      ∃ k last, k ≤ rest.length ∧ (first :: rest.take k).getLast? = some last ∧
        (∀ m ∈ rest.take k, m.quality = first.quality) ∧
        (∀ j, j < k → ((first :: rest.take j).map fun m => m.quantity.toNat).sum < th.toNat) ∧
        ((((first :: rest.take k).map fun m => m.quantity.toNat).sum ≤ 4294967295 ∧
          (th.toNat ≤ ((first :: rest.take k).map fun m => m.quantity.toNat).sum ∨
            ∀ m ∈ (rest.drop k).head?, m.quality ≠ first.quality) ∧
          exec (.getNextInstructionGrouped th) s = .next (s.afterRequest ch
            { ch.seq with
              cur := last.completed
              queue := if rest.drop k = [] ∧ first.quality ≠ .hold then
                [{ quality := .hold, quantity := s.cfg.holdQuantity, completed := last.completed }] else rest.drop k }
            (.motion (some
              { quality := first.quality
                quantity := BitVec.ofNat 32 ((first :: rest.take k).map fun m => m.quantity.toNat).sum
                completed := last.completed })))) ∨
        (4294967295 < ((first :: rest.take k).map fun m => m.quantity.toNat).sum ∧
          exec (.getNextInstructionGrouped th) s = .next
            { s with
              chans := s.chans.set s.sel
                { ch with
                  seq := { ch.seq with
                    cur := last.completed
                    queue := if rest.drop k = [] ∧ first.quality ≠ .hold then
                      [{ quality := .hold, quantity := s.cfg.holdQuantity, completed := last.completed }]
                      else rest.drop k } }
              fatal := some .mergeOverflow
              passAt := none }))

/-- R171, R262, R264. Two instructions of one quality whose quantities together exceed `2^32 - 1`, the first below the
threshold: the grouped fetch raises `Fatal(MergeOverflow)`, both instructions stay popped and `S.cur` stays advanced. -/
def Obligations.GroupedOverflow : Prop :=
  ∀ (s : State) (ch : Channel) (th : U32) (a b : Motion) (rest : List Motion), s.fatal = none →
    s.chans[s.sel]? = some ch → 1 ≤ s.cfg.qcap → ch.seq.queue = a :: b :: rest → a.quality = b.quality →
    a.quantity.toNat < th.toNat → 4294967295 < a.quantity.toNat + b.quantity.toNat →
    exec (.getNextInstructionGrouped th) s = .next
        { s with
          chans := s.chans.set s.sel
            { ch with
              seq := { ch.seq with
                cur := b.completed
                queue := if rest = [] ∧ b.quality ≠ .hold then
                  [{ quality := .hold, quantity := s.cfg.holdQuantity, completed := b.completed }] else rest } }
          fatal := some .mergeOverflow
          passAt := none } ∧
      FatalCode.mergeOverflow.code = 7

/-- R176. `trig_endstop`: the inferred extreme in both state registers and one placeholder `Hold` in the queue. -/
def Obligations.TrigEndstopRequest : Prop :=
  ∀ (s : State) (ch : Channel) (e : WState), s.fatal = none → s.chans[s.sel]? = some ch → 1 ≤ s.cfg.qcap →
    e.position = (if ch.seq.cur.position < ch.seq.des.position ∨
        (ch.seq.cur.position = ch.seq.des.position ∧ ch.seq.des.tilt < ch.seq.cur.tilt) ∨ ch.seq.cur.position = 100
      then 100 else 0) →
    e.tilt = (if ch.seq.ftq = none then 0 else 90) →
    exec .trigEndstop s = .next (s.afterRequest ch
      { ch.seq with
        cur := e, des := e
        queue := [{ quality := .hold, quantity := s.cfg.endstopHoldQuantity, completed := e }] } .nothing)

/-- R177. A second `trig_endstop` in a row changes nothing. -/
def Obligations.TrigEndstopIdempotent : Prop :=
  ∀ s t : State, exec .trigEndstop s = .next t → exec .trigEndstop t = .next t

/-- R124, R125. The read accessors answer `S.cur` and `S.des` and change no register. -/
def Obligations.ReadAccessors : Prop :=
  ∀ (s : State) (ch : Channel), s.fatal = none → s.chans[s.sel]? = some ch →
    exec .getCurrentState s = .next { s with sopOut := .state ch.seq.cur } ∧
      exec .getDesiredState s = .next { s with sopOut := .state ch.seq.des }

/-- R126. A sequencer operation writes `S[sel]` (and the port's answer, and on a fatal merge the latch) and nothing else. -/
def Obligations.RequestsTouchOneSequencer : Prop :=
  ∀ (i : Instr) (s t : State), i.port = .sop → exec i s = .next t →
    (∀ c, c ≠ s.sel → t.chans[c]? = s.chans[c]?) ∧
      (∀ ch, s.chans[s.sel]? = some ch → ∃ S, t.chans[s.sel]? = some { ch with seq := S }) ∧
      { t with chans := s.chans, sopOut := s.sopOut, fatal := s.fatal, passAt := s.passAt } = s

/-- R68, R20. Where the inner ports stop by name: a channel that does not exist is a fault, an operand out of range a refusal
(log 3, log 19). -/
def Obligations.InnerPortStops : Prop :=
  ∀ (i : Instr) (s : State), s.fatal = none →
    ((i.port = .sop ∨ i.port = .miw) → i.wellFormed = true → s.chans.length ≤ s.sel →
      exec i s = .fault (.noSuchChannel s.sel)) ∧
    (i.wellFormed = false → exec i s = .refused .operandRange)

/-! ### Motion instructions -/

/-- R198, R199, R207 to R209 (log 3, log 17). `EXTEND`, `RETRACT` or `HOLD`, standing in the buffer and of the latched quality: pulses,
or for a `Hold` the deadline, at once; the buffer is emptied and nothing else changes. -/
def Obligations.MotionSameQuality : Prop :=
  ∀ (d : Direction) (q : U32) (p t : U8) (s : State) (ch : Channel), s.fatal = none → s.chans[s.sel]? = some ch →
    p.toNat ≤ 100 → -90 ≤ t.toInt → t.toInt ≤ 90 → ch.disp.latched = d →
    ch.disp.buf = some { quality := d, quantity := q, completed := { position := p.toNat, tilt := t.toInt } } →
    exec (motionRow d q p t) s =
      .next { s with chans := s.chans.set s.sel (ch.consumed s.cfg s.now d q) }

/-- R200 to R202, R207 to R209 (log 3, log 17). One of another quality, with the generator stopped and the deadline passed: driver on,
line set, change recorded and latched, report, then the consumption. -/
def Obligations.MotionDirectionChange : Prop :=
  ∀ (d : Direction) (q : U32) (p t : U8) (s : State) (ch : Channel), s.fatal = none → s.chans[s.sel]? = some ch →
    p.toNat ≤ 100 → -90 ≤ t.toInt → t.toInt ≤ 90 → ch.disp.latched ≠ d → ch.pending = 0 → ch.disp.resumeAfter ≤ s.now →
    ch.disp.buf = some { quality := d, quantity := q, completed := { position := p.toNat, tilt := t.toInt } } →
    exec (motionRow d q p t) s =
      .next
        { s with
          chans := s.chans.set s.sel
            ((ch.turned s.cfg s.now (s.polarity.getD s.sel false) d).consumed s.cfg s.now d q)
          reports := s.reports ++ [.position s.sel ch.seq.cur ch.seq.des] }

/-- R203, R207 to R209, R30 (log 3). One of another quality while pulses are pending or the deadline is ahead, and one while
another instruction stands in the buffer: no state changes. -/
def Obligations.MotionWaits : Prop :=
  ∀ (d : Direction) (q : U32) (p t : U8) (s : State) (ch : Channel) (m : Motion), s.fatal = none →
    s.chans[s.sel]? = some ch → p.toNat ≤ 100 → -90 ≤ t.toInt → t.toInt ≤ 90 → ch.disp.buf = some m →
    ((m = { quality := d, quantity := q, completed := { position := p.toNat, tilt := t.toInt } } ∧
        ch.disp.latched ≠ d ∧ (ch.pending ≠ 0 ∨ s.now < ch.disp.resumeAfter)) ∨
      m ≠ { quality := d, quantity := q, completed := { position := p.toNat, tilt := t.toInt } }) →
    exec (motionRow d q p t) s = .next s

/-- R207 to R209, "effect when fetched" (log 3, log 17). With an empty buffer the instruction is fetched first: `S.cur` takes its
completed state, it stands in the buffer, and is then dispatched as one that stood there. -/
def Obligations.MotionFetchedFirst : Prop :=
  ∀ (d : Direction) (q : U32) (p t : U8) (s : State) (ch : Channel), s.fatal = none → s.chans[s.sel]? = some ch →
    p.toNat ≤ 100 → -90 ≤ t.toInt → t.toInt ≤ 90 → ch.disp.buf = none →
    exec (motionRow d q p t) s =
      exec (motionRow d q p t)
        { s with
          chans := s.chans.set s.sel
            { ch with
              seq := { ch.seq with cur := { position := p.toNat, tilt := t.toInt } }
              disp := { ch.disp with
                buf := some { quality := d, quantity := q, completed := { position := p.toNat, tilt := t.toInt } } } } }

/-! ### Reports -/

/-- R101, R245. A report word on the report output port is taken by the protocol encoder, and nothing else changes, the report
stream included; the encoder takes the stream's reports in order, each as its own row of the opcode table. That the encoder
is held as a list and that any report word may be presented to it are the model's choice (log 3, log 18). -/
def Obligations.ReportsAppended : Prop :=
  ∀ s : State,
    exec .ready s = .next { s with encoded := s.encoded ++ [.ready] } ∧
    (∀ c v, exec (.stallGuardResult c v) s = .next { s with encoded := s.encoded ++ [.stallGuardResult c.toNat v] }) ∧
    (∀ c cp ct dp dt, positionOk cp = true → tiltOk ct = true → positionOk dp = true → tiltOk dt = true →
      exec (.position c cp ct dp dt) s = .next { s with encoded := s.encoded ++
        [.position c.toNat { position := cp.toNat, tilt := ct.toInt } { position := dp.toNat, tilt := dt.toInt }] }) ∧
    (s.reports[s.taken]? = none → envStep .encode s = .next s) ∧
    (∀ r, s.reports[s.taken]? = some r →
      envStep .encode s = .next { s with encoded := s.encoded ++ [r], taken := s.taken + 1 }) ∧
    (∀ c cur des, s.reports[s.taken]? = some (.position c cur des) → c < 256 → cur.inRange = true → des.inRange = true →
      envStep .encode s = exec (instrOfReport (.position c cur des)) { s with taken := s.taken + 1 })

/-- R101. The word of a report decodes to its row of the opcode table, with the report's own values. -/
def Obligations.ReportWords : Prop :=
  (decode (.rw (reportWord .ready)) = .ok .ready) ∧
    (∀ c v, c < 256 → ∃ k : U8, k.toNat = c ∧ decode (.rw (reportWord (.stallGuardResult c v))) = .ok (.stallGuardResult k v)) ∧
    (∀ c cur des, c < 256 → cur.inRange = true → des.inRange = true →
      ∃ k cp ct dp dt : U8, k.toNat = c ∧ cp.toNat = cur.position ∧ ct.toInt = cur.tilt ∧ dp.toNat = des.position ∧
        dt.toInt = des.tilt ∧ decode (.rw (reportWord (.position c cur des))) = .ok (.position k cp ct dp dt))

/-! ### The dispatcher -/

/-- R194, R196, R213. The endstop path, when the flag is set and the guard interval over: recover, discard the buffer, clear
the generator, driver off, report. -/
def Obligations.EndstopPath : Prop :=
  ∀ (s : State) (c : Nat) (ch : Channel) (e : WState), s.fatal = none → s.chans[c]? = some ch → 1 ≤ s.cfg.qcap →
    s.endstop.getD c false = true → ch.disp.lastReversal + s.cfg.endstopGuard ≤ s.now →
    e.position = (if ch.seq.cur.position < ch.seq.des.position ∨
        (ch.seq.cur.position = ch.seq.des.position ∧ ch.seq.des.tilt < ch.seq.cur.tilt) ∨ ch.seq.cur.position = 100
      then 100 else 0) →
    e.tilt = (if ch.seq.ftq = none then 0 else 90) →
    s.channelStep c =
      { s with
        endstop := s.endstop.set c false
        chans := s.chans.set c
          { ch with
            seq :=
              { ch.seq with
                cur := e, des := e
                queue := [{ quality := .hold, quantity := s.cfg.endstopHoldQuantity, completed := e }] }
            disp := { ch.disp with buf := none }
            en := false
            pending := 0 }
        reports := s.reports ++ [.position c e e] }

/-- R194, R195, R214. A flag that is set inside the guard interval is consumed and lost: the step is the one of the state whose
flag was clear. And whatever else a channel step does, the flag is 0 after it. -/
def Obligations.GuardedTriggerLost : Prop :=
  ∀ (s : State) (c : Nat) (ch : Channel), s.fatal = none → s.chans[c]? = some ch →
    (s.channelStep c).endstop = s.endstop.set c false ∧
    (s.now < ch.disp.lastReversal + s.cfg.endstopGuard →
      s.channelStep c = ({ s with endstop := s.endstop.set c false } : State).channelStep c)

/-- R197, R205, R284. Step 2 with no endstop: `ready` is sampled; when it is true the channel is fed, when it is false nothing
happens. What is sampled is true for a stopped generator, and otherwise the model's next free value (log 7). -/
def Obligations.ReadyGate : Prop :=
  ∀ (s : State) (c : Nat) (ch : Channel), s.fatal = none → s.chans[c]? = some ch → s.noEndstop c ch →
    (s.channelStep c =
      if pgReady (Config.pgReady s.freeAt) ch = true then (s.atFeed c).feed c s.now else s.atFeed c) ∧
    (ch.pending = 0 → pgReady (Config.pgReady s.freeAt) ch = true) ∧
    (ch.pending ≠ 0 → pgReady (Config.pgReady s.freeAt) ch = Config.pgReady s.freeAt)

/-- R198 to R203. Feeding a channel whose buffer holds an instruction is running that instruction's row of the opcode table on
the channel, at the time sampled for the step (log 3, log 17). -/
def Obligations.FeedRunsBuffered : Prop :=
  ∀ (s : State) (c : Nat) (ch : Channel) (m : Motion), s.fatal = none → s.chans[c]? = some ch →
    ch.disp.buf = some m → m.completed.inRange = true →
    exec (instrOfMotion m) { s with sel := c } = .next { s.feed c s.now with sel := c }

/-- R204. Feeding a channel with an empty buffer is the grouped fetch of its sequencer with `TICK_PULSE_BUDGET`: the result is
buffered, nothing is dispatched, and with no result and a stopped generator the driver is switched off. A fatal merge halts
the block instead. -/
def Obligations.FeedFetches : Prop :=
  ∀ (s : State) (c : Nat) (ch : Channel), s.fatal = none → s.chans[c]? = some ch → ch.disp.buf = none →
    ∃ u, exec (.getNextInstructionGrouped s.cfg.tickPulseBudget) { s with sel := c } = .next u ∧
      ((∃ r S, u.fatal = none ∧ u.sopOut = .motion r ∧ u.chans[c]? = some { ch with seq := S } ∧
        s.feed c s.now =
          { s with
            chans := s.chans.set c
              { ch with
                seq := S
                disp := { ch.disp with buf := r }
                en := if r = none ∧ ch.pending = 0 then false else ch.en } }) ∨
      (u.fatal ≠ none ∧ s.feed c s.now = { u with sel := s.sel }))

/-- R191, R193, R262. A channel step leaves every other channel, the other endstop bits, its own channel's watcher and
limit-switch line, the polarity word, the clock, the reader and the rest of the state alone, and emits at most one report. Of
the fault latch and the pass in progress it changes only what a fatal merge does (log 12), and of the model's counter of free
values at most one is used (log 7). -/
def Obligations.ChannelStepFrame : Prop :=
  ∀ (s t : State) (c : Nat), s.channelStep c = t →
    (∀ d, d ≠ c → t.chans[d]? = s.chans[d]? ∧ t.endstop[d]? = s.endstop[d]?) ∧
    (∀ a b, s.chans[c]? = some a → t.chans[c]? = some b → b.watcher = a.watcher ∧ b.line = a.line) ∧
    (∃ rs : List Report, rs.length ≤ 1 ∧ t.reports = s.reports ++ rs) ∧
    ((t.fatal = s.fatal ∧ t.passAt = s.passAt) ∨
      (s.fatal = none ∧ t.fatal = some .mergeOverflow ∧ t.passAt = none)) ∧
    (t.freeAt = s.freeAt ∨ t.freeAt = s.freeAt + 1) ∧
    { t with
      chans := s.chans, endstop := s.endstop, reports := s.reports, fatal := s.fatal, passAt := s.passAt
      freeAt := s.freeAt } = s

/-- R192. `hold_time` is the quotient rounded down: the largest number of time units not longer than the pause. -/
def Obligations.HoldTimeRoundsDown : Prop :=
  ∀ (p : Params) (q : U32), 1 ≤ p.pulseFrequency →
    holdTime p q * p.pulseFrequency ≤ q.toNat * p.timeHz ∧
      q.toNat * p.timeHz < (holdTime p q + 1) * p.pulseFrequency ∧ holdTime p 0#32 = 0

/-- R190. A tick starts a pass, and taking it to its end channel by channel is one `channel_step` for each channel, in
ascending order. -/
def Obligations.PassRunsEveryChannel : Prop :=
  ∀ s : State, s.fatal = none → 1 ≤ s.cfg.nch →
    (State.passStep^[s.cfg.nch]) s.startPass =
      { (List.range s.cfg.nch).foldl State.channelStep s with passAt := none }

/-! ### Around the block -/

/-- R271. The Endstop Watcher: armed and asserted, it sets its bit and waits; waiting and released, it re-arms; otherwise
nothing. -/
def Obligations.WatcherTransitions : Prop :=
  ∀ (s : State) (c : Nat) (ch : Channel), s.fatal = none → s.chans[c]? = some ch →
    (ch.watcher = .armed → ch.line = true → s.watch c =
      { s with endstop := s.endstop.set c true, chans := s.chans.set c { ch with watcher := .waitRelease } }) ∧
    (ch.watcher = .waitRelease → ch.line = false → s.watch c =
      { s with chans := s.chans.set c { ch with watcher := .armed } }) ∧
    ((ch.watcher = .armed ∧ ch.line = false) ∨ (ch.watcher = .waitRelease ∧ ch.line = true) → s.watch c = s)

/-- R90, R92. The reader collects exactly the announced number of bytes before it decodes, and then awaits a length again. The
payload's meaning is a free function (log 9). -/
def Obligations.FramesCollected : Prop :=
  ∀ (s : State) (l : U8) (payload : List U8) (b : U8), s.reader = .awaitLength → l ≠ 0#8 →
    payload.length + 1 = l.toNat →
    ∃ t, readByte l s = .next t ∧ t = { s with reader := .awaitPayload l.toNat [] } ∧
      ∃ u, (payload.foldlM (fun v x => match readByte x v with | .next v' => some v' | _ => none) t) = some u ∧
        readByte b u = applyPayload (payload ++ [b]) s

/-- R91. The outbound frame: length byte, payload, CR, LF, the length counting the two; a payload of more than 253 bytes has
none. -/
def Obligations.OutboundFrames : Prop :=
  ∀ payload : List U8,
    (payload.length ≤ 253 → ∃ l : U8, l.toNat = payload.length + 2 ∧
      outFrame payload = some ([l] ++ payload ++ [0x0D#8, 0x0A#8])) ∧
    (253 < payload.length → outFrame payload = none)

/-! ### Invariants of every step -/

/-- R20 (a sentence the spec marks as derived), R29, R38, R68, R92. Every step keeps the state well-formed. -/
def Obligations.StepKeepsWf : Prop := ∀ s t : State, s.wf → step s = .next t → t.wf

/-- R155 (a sentence the spec marks as derived). No queue ever gets an `Extend` next to a `Retract`. -/
def Obligations.StepKeepsSmoothQueues : Prop :=
  ∀ s t : State, s.wf → s.smoothQueues → step s = .next t → t.smoothQueues

/-- R320 (a sentence the spec marks as derived). While `Hold` is the latched quality the generator stays stopped. -/
def Obligations.StepKeepsHoldDrained : Prop := ∀ s t : State, s.holdDrained → step s = .next t → t.holdDrained

/-- R33, R212, R280. A direction change is recorded with the time of the step that makes it, and time does not go back: no
recorded change lies in the future. -/
def Obligations.StepKeepsTimely : Prop := ∀ s t : State, s.timely → step s = .next t → t.timely

/-- R206, R283. The direction line and the latched quality of a channel change only when its generator has no pulse in flight;
pulses become more only by a channel step of the channel or a motion word on it; a device reset, which restarts the report
stream, is the one exception. And the generator's own drain takes pending pulses away, as many as it likes, and changes
nothing else. -/
def Obligations.DirectionChangesDrained : Prop :=
  ∀ (s t : State) (c : Nat) (a b : Channel), step s = .next t → s.chans[c]? = some a → t.chans[c]? = some b →
    (t.justReset ∨
      (((b.dir ≠ a.dir ∨ b.disp.latched ≠ a.disp.latched) → a.pending = 0) ∧
        (a.pending < b.pending → s.passAt = some c ∨ ∃ w, s.nextEvent = .motion c w))) ∧
    ∀ n rest, s.inputs = .env (.drain c n) :: rest →
      t = { s with inputs := rest, chans := s.chans.set c { a with pending := a.pending - n } }

/-- R44, R45, R280, R4, R244, R245. Unless a step resets the device, the report stream only grows, time does not go back and the
fault latch is kept; and no step changes the build or the number of channels. What a step emits is at most one report, never
`ready`, a position report showing the channel's registers as they then are, and it emits only on a command (or the byte that
completes its frame), in a channel step of a pass (`proceed`, or an event that waits for the pass), or on a motion word. -/
def Obligations.StepMonotone : Prop :=
  ∀ s t : State, step s = .next t →
    t.cfg = s.cfg ∧ t.chans.length = s.chans.length ∧
      (t.justReset ∨
        ((∃ rs, t.reports = s.reports ++ rs ∧ rs.length ≤ 1 ∧ (∀ r ∈ rs, t.shows r) ∧
            (rs ≠ [] → mayEmit s.nextEvent = true ∨ (s.passAt.isSome = true ∧ s.nextEvent = .env .tick))) ∧
          s.now ≤ t.now ∧ (s.fatal = none ∨ t.fatal = s.fatal)))

/-- R263 ("Under this spec it is unreachable", an inference of the spec's). No step ever latches `MergeMismatch`. -/
def Obligations.MismatchUnreachable : Prop :=
  ∀ s t : State, s.fatal ≠ some .mergeMismatch → step s = .next t → t.fatal ≠ some .mergeMismatch

/-- R171 (a sentence the spec marks as derived). With the build's quantities and the queued ones below `2^31` they stay so, and
no step latches a fault, except a grouped request whose threshold is `2^31` or more. -/
def Obligations.OverflowExcluded : Prop :=
  ∀ s t : State, s.smallQuantities → step s = .next t →
    t.smallQuantities ∧
      (s.fatal = none → t.fatal = none ∨ ∃ c w rest th, s.inputs = .request c w :: rest ∧
        decode (.sop w) = .ok (.getNextInstructionGrouped th) ∧ 2147483648 ≤ th.toNat)

end
end

