-- ==== Sys2Proof/Laws/Queue.lean ====
section
/-! SUPPORT. The queue primitives: a run of pushes keeps what fits, and the no-opposed-neighbours property of R155. -/

namespace Sys2Proof.Machine

/-- A push appends what still fits. -/
theorem pushBack_eq (cap : Nat) (q : List Motion) (m : Motion) : pushBack cap q m = q ++ [m].take (cap - q.length) := by
  unfold pushBack
  split
  · next h => rw [List.take_of_length_le (by simp; omega)]
  · next h => rw [show cap - q.length = 0 by omega]; simp

/-- A run of pushes appends what still fits, in order (R63). -/
theorem pushAll_eq (cap : Nat) (q ms : List Motion) : pushAll cap q ms = q ++ ms.take (cap - q.length) := by
  induction ms generalizing q with
  | nil => simp [pushAll]
  | cons m ms ih =>
    have h1 : pushAll cap q (m :: ms) = pushAll cap (pushBack cap q m) ms := rfl
    rw [h1, ih, pushBack_eq]
    by_cases h : q.length < cap
    · obtain ⟨k, hk⟩ : ∃ k, cap - q.length = k + 1 := ⟨cap - q.length - 1, by omega⟩
      rw [hk]
      simp only [List.take_succ_cons, List.take_nil, List.length_append, List.length_cons, List.length_nil,
        List.append_assoc, List.singleton_append]
      congr 3
      omega
    · rw [show cap - q.length = 0 by omega]
      simp
      omega

/-- R60. Pushes keep the capacity bound. -/
theorem pushAll_length_le {cap : Nat} {q ms : List Motion} (h : q.length ≤ cap) : (pushAll cap q ms).length ≤ cap := by
  rw [pushAll_eq, List.length_append, List.length_take]
  omega

theorem pushBack_length_le {cap : Nat} {q : List Motion} {m : Motion} (h : q.length ≤ cap) :
    (pushBack cap q m).length ≤ cap := pushAll_length_le (ms := [m]) h

/-- What a run of pushes leaves in the queue was there or was pushed. -/
theorem mem_pushAll {cap : Nat} {q ms : List Motion} {m : Motion} (h : m ∈ pushAll cap q ms) : m ∈ q ∨ m ∈ ms := by
  rw [pushAll_eq, List.mem_append] at h
  exact h.imp_right List.mem_of_mem_take

theorem mem_pushBack {cap : Nat} {q : List Motion} {m x : Motion} (h : x ∈ pushBack cap q m) : x ∈ q ∨ x = m := by
  simpa using mem_pushAll (ms := [m]) h

/-- Pushing what fits within a bigger plan: the truncated plan (R149). -/
theorem pushAll_take (cap : Nat) (q ms : List Motion) (h : q.length ≤ cap) : pushAll cap q ms = (q ++ ms).take cap := by
  rw [pushAll_eq, List.take_append, List.take_of_length_le h]

/-! ### No opposed neighbours (R155) -/

theorem opposed_self (d : Direction) : opposed d d = false := by cases d <;> rfl

theorem opposed_hold_left (d : Direction) : opposed .hold d = false := rfl

theorem opposed_hold_right (d : Direction) : opposed d .hold = false := by cases d <;> rfl

/-- The tail of a smooth queue is smooth. -/
theorem smooth_tail {m : Motion} {q : List Motion} (h : smooth (m :: q) = true) : smooth q = true := by
  cases q with
  | nil => rfl
  | cons b rest => simp only [smooth, Bool.and_eq_true] at h; exact h.2

/-- A run of one quality is smooth. -/
theorem smooth_of_same {d : Direction} {q : List Motion} (h : ∀ m ∈ q, m.quality = d) : smooth q = true := by
  induction q with
  | nil => rfl
  | cons a rest ih =>
    cases rest with
    | nil => rfl
    | cons b rest =>
      have ha := h a (by simp)
      have hb := h b (by simp)
      simp only [smooth, ha, hb, opposed_self, Bool.not_false, Bool.true_and]
      exact ih fun m hm => h m (by simp_all)

/-- Two smooth queues join when the last of the one is not opposed to the first of the other. -/
theorem smooth_append {q r : List Motion} (hq : smooth q = true) (hr : smooth r = true)
    (h : ∀ a ∈ q.getLast?, ∀ b ∈ r.head?, opposed a.quality b.quality = false) : smooth (q ++ r) = true := by
  induction q with
  | nil => simpa using hr
  | cons a rest ih =>
    cases rest with
    | nil =>
      cases r with
      | nil => rfl
      | cons b r =>
        have := h a (by simp) b (by simp)
        simp [smooth, this, hr]
    | cons b rest =>
      have h1 : opposed a.quality b.quality = false := by simp [smooth] at hq; exact hq.1
      have h2 := ih (smooth_tail hq) (by intro x hx y hy; exact h x (by simpa using hx) y hy)
      simp only [List.cons_append] at h2 ⊢
      simp [smooth, h1, h2]

/-- A prefix of a smooth queue is smooth. -/
theorem smooth_take {q : List Motion} (h : smooth q = true) (n : Nat) : smooth (q.take n) = true := by
  induction q generalizing n with
  | nil => simp [smooth]
  | cons a rest ih =>
    cases n with
    | zero => rfl
    | succ n =>
      cases rest with
      | nil => simp [smooth]
      | cons b rest =>
        cases n with
        | zero => rfl
        | succ n =>
          have h1 : opposed a.quality b.quality = false := by simp [smooth] at h; exact h.1
          have h2 := ih (smooth_tail h) (n + 1)
          simp only [List.take_succ_cons] at h2 ⊢
          simp [smooth, h1, h2]

end Sys2Proof.Machine
end

