-- ==== Sys2Proof/Laws/Sequencer.lean ====
section
/-! SUPPORT. What each sequencer operation can do: its frame, the closed form of its queue, and that it keeps states in range,
the capacity bound (R20, R60) and the no-opposed-neighbours property (R155). -/

namespace Sys2Proof.Machine

theorem inRange_iff (s : WState) : s.inRange = true ↔ s.position ≤ 100 ∧ -90 ≤ s.tilt ∧ s.tilt ≤ 90 := by
  simp [WState.inRange, and_assoc]

theorem stateOf_inRange (p t : U8) : (stateOf p t).inRange = (positionOk p && tiltOk t) := by
  simp only [WState.inRange, stateOf, positionOf, tiltOf, positionOk, tiltOk, Bool.and_assoc]
  rfl

theorem closedState_inRange : closedState.inRange = true := by decide

theorem openedState_inRange : openedState.inRange = true := by decide

/-- R141. `base()` is in range when everything is. -/
theorem baseState_inRange {p : Params} {S : Sequencer} (h : S.wf p) : (baseState S).inRange = true := by
  unfold baseState
  split
  · next m hm => exact h.2.2.2 m (List.mem_of_getLast? hm)
  · exact h.1

/-! ### Frames -/

@[simp] theorem addTilt_fcq (p : Params) (a b : Int) (S : Sequencer) : (addTilt p a b S).fcq = S.fcq := by
  unfold addTilt; split <;> try rfl
  split <;> rfl
@[simp] theorem addTilt_ftq (p : Params) (a b : Int) (S : Sequencer) : (addTilt p a b S).ftq = S.ftq := by
  unfold addTilt; split <;> try rfl
  split <;> rfl
@[simp] theorem addTilt_cur (p : Params) (a b : Int) (S : Sequencer) : (addTilt p a b S).cur = S.cur := by
  unfold addTilt; split <;> try rfl
  split <;> rfl
@[simp] theorem addTilt_des (p : Params) (a b : Int) (S : Sequencer) : (addTilt p a b S).des = S.des := by
  unfold addTilt; split <;> try rfl
  split <;> rfl

/-- R150. On a roller nothing is pushed. -/
theorem addTilt_roller {p : Params} {a b : Int} {S : Sequencer} (h : S.ftq = none) : addTilt p a b S = S := by
  simp [addTilt, h]

/-- R150. A tilt to the same angle pushes nothing. -/
theorem addTilt_same (p : Params) (a : Int) (S : Sequencer) : addTilt p a a S = S := by
  unfold addTilt; split <;> simp

/-- R150. The queue of a real tilt. -/
theorem addTilt_queue {p : Params} {a b : Int} {S : Sequencer} {ft : U32} (h : S.ftq = some ft) (hab : a ≠ b) :
    (addTilt p a b S).queue =
      pushAll p.qcap (pushTiltHold p S (tiltQuality (baseState S).position a b))
        (tiltSweep ft (baseState S).position a b) := by
  simp [addTilt, h, hab]

/-! ### Members -/

theorem mem_tiltSweep {ft : U32} {pos : Nat} {a b : Int} {m : Motion} (h : m ∈ tiltSweep ft pos a b) :
    m.quality = tiltQuality pos a b ∧ m.quantity = tiltQuantity pos ft ∧ m.completed.position = pos ∧
      ((a < m.completed.tilt ∧ m.completed.tilt ≤ b) ∨ (b ≤ m.completed.tilt ∧ m.completed.tilt < a)) := by
  simp only [tiltSweep, List.mem_map, List.mem_range] at h
  obtain ⟨k, hk, rfl⟩ := h
  refine ⟨rfl, rfl, rfl, ?_⟩
  simp only [tiltAfter]
  split <;> push_cast <;> omega

theorem mem_moveSteps {q : U32} {tilt : Int} {pos target : Nat} {m : Motion} (h : m ∈ moveSteps q tilt pos target) :
    m.quality = moveQuality pos target ∧ m.quantity = q ∧ m.completed.tilt = tilt ∧
      ((pos < m.completed.position ∧ m.completed.position ≤ target) ∨
        (target ≤ m.completed.position ∧ m.completed.position < pos)) := by
  simp only [moveSteps, List.mem_map, List.mem_range] at h
  obtain ⟨k, hk, rfl⟩ := h
  refine ⟨rfl, rfl, rfl, ?_⟩
  simp only [positionAfter, moveLength] at *
  split <;> split at hk <;> omega

theorem mem_pushTiltHold {p : Params} {S : Sequencer} {q : Direction} {m : Motion} (h : m ∈ pushTiltHold p S q) :
    m ∈ S.queue ∨ m = holdAt p (baseState S) := by
  unfold pushTiltHold at h
  split at h
  · exact mem_pushBack h
  · exact .inl h

theorem pushTiltHold_length_le {p : Params} {S : Sequencer} {q : Direction} (h : S.queue.length ≤ p.qcap) :
    (pushTiltHold p S q).length ≤ p.qcap := by
  unfold pushTiltHold
  split
  · exact pushBack_length_le h
  · exact h

theorem mem_restartQueue {p : Params} {S : Sequencer} {q : Direction} {m : Motion} (h : m ∈ restartQueue p S q) :
    m = holdAt p S.cur := by
  unfold restartQueue at h
  split at h
  · simpa using mem_pushBack h
  · simp at h

theorem restartQueue_length_le (p : Params) (S : Sequencer) (q : Direction) : (restartQueue p S q).length ≤ p.qcap := by
  unfold restartQueue
  split
  · exact pushBack_length_le (by simp)
  · simp

/-! ### Ranges and capacity are kept -/

theorem newSequencer_wf {p : Params} (fc : U32) (ft : Option U32) (h : p.initState.inRange = true) :
    (newSequencer p fc ft).wf p := ⟨h, h, by simp [newSequencer], by simp [newSequencer]⟩

theorem loadState_wf {p : Params} {S : Sequencer} {s : WState} (h : S.wf p) (hs : s.inRange = true) :
    (loadState s S).wf p := ⟨hs, hs, h.2.2⟩

theorem addTilt_wf {p : Params} {S : Sequencer} {a b : Int} (h : S.wf p) (ha : -90 ≤ a ∧ a ≤ 90) (hb : -90 ≤ b ∧ b ≤ 90) :
    (addTilt p a b S).wf p := by
  rcases hft : S.ftq with _ | ft
  · rwa [addTilt_roller hft]
  · by_cases hab : a = b
    · subst hab; rwa [addTilt_same]
    · refine ⟨by simpa using h.1, by simpa using h.2.1, ?_, ?_⟩
      · rw [addTilt_queue hft hab]
        exact pushAll_length_le (pushTiltHold_length_le h.2.2.1)
      · intro m hm
        rw [addTilt_queue hft hab] at hm
        have hbase := (inRange_iff _).1 (baseState_inRange h)
        rcases mem_pushAll hm with hm | hm
        · rcases mem_pushTiltHold hm with hm | rfl
          · exact h.2.2.2 m hm
          · exact baseState_inRange h
        · obtain ⟨-, -, hp, ht⟩ := mem_tiltSweep hm
          rw [inRange_iff, hp]
          omega

theorem movingTilt_range (S : Sequencer) (q : Direction) : -90 ≤ movingTilt S q ∧ movingTilt S q ≤ 90 := by
  unfold movingTilt movingExtreme
  split
  · split <;> omega
  · omega

theorem pushMove_wf {p : Params} {S : Sequencer} {target : Nat} (h : S.wf p) (ht : target ≤ 100) :
    (pushMove p target S).wf p := by
  refine ⟨h.1, h.2.1, pushAll_length_le h.2.2.1, ?_⟩
  intro m hm
  rcases mem_pushAll hm with hm | hm
  · exact h.2.2.2 m hm
  · obtain ⟨-, -, htilt, hpos⟩ := mem_moveSteps hm
    have hc := (inRange_iff _).1 h.1
    have := movingTilt_range S (moveQuality S.cur.position target)
    rw [inRange_iff, htilt]
    omega

theorem setDesPosition_wf {p : Params} {S : Sequencer} {target : Nat} (h : S.wf p) (ht : target ≤ 100) :
    (setDesPosition target S).wf p := by
  have hd := (inRange_iff _).1 h.2.1
  exact ⟨h.1, (inRange_iff _).2 ⟨ht, hd.2⟩, h.2.2⟩

theorem restart_wf {p : Params} {S : Sequencer} (q : Direction) (h : S.wf p) :
    Sequencer.wf p { S with queue := restartQueue p S q } := by
  refine ⟨h.1, h.2.1, restartQueue_length_le p S q, ?_⟩
  intro m hm
  rw [mem_restartQueue hm]
  exact h.1

/-- R20, R60. `set_position` keeps the record well-formed. -/
theorem setPosition_wf {p : Params} {S : Sequencer} {target : Nat} (h : S.wf p) (ht : target ≤ 100) :
    (setPosition p target S).wf p := by
  have hc := (inRange_iff _).1 h.1
  unfold setPosition
  split
  · exact h
  · have hm := movingTilt_range S (moveQuality S.cur.position target)
    have h1 := addTilt_wf (a := S.cur.tilt) (restart_wf (moveQuality S.cur.position target) h) hc.2 hm
    exact addTilt_wf (setDesPosition_wf (pushMove_wf h1 ht) ht) hm hc.2

/-- R20, R60. `set_tilt` keeps the record well-formed. -/
theorem setTilt_wf {p : Params} {S : Sequencer} {target : Int} (h : S.wf p) (ht : -90 ≤ target ∧ target ≤ 90) :
    (setTilt p target S).wf p := by
  unfold setTilt
  split
  · exact h
  · have hb := (inRange_iff _).1 (baseState_inRange h)
    have h1 := addTilt_wf (b := target) h hb.2 ht
    have hd := (inRange_iff _).1 h1.2.1
    exact ⟨h1.1, (inRange_iff _).2 ⟨hd.1, ht⟩, h1.2.2⟩

theorem setState_wf {p : Params} {S : Sequencer} {s : WState} (h : S.wf p) (hs : s.inRange = true) :
    (setState p s S).wf p := by
  have := (inRange_iff _).1 hs
  exact setTilt_wf (setPosition_wf h this.1) this.2

theorem homeFullyOpened_wf {p : Params} {S : Sequencer} (h : S.wf p) : (homeFullyOpened p S).wf p :=
  setPosition_wf (loadState_wf h closedState_inRange) (by omega)

theorem homeFullyClosed_wf {p : Params} {S : Sequencer} (h : S.wf p) : (homeFullyClosed p S).wf p :=
  setPosition_wf (loadState_wf h openedState_inRange) (by omega)

theorem inferredExtreme_inRange (S : Sequencer) : (inferredExtreme S).inRange = true := by
  simp only [inRange_iff, inferredExtreme]
  split <;> split <;> omega

theorem trigEndstop_wf (p : Params) (S : Sequencer) : (trigEndstop p S).wf p := by
  refine ⟨inferredExtreme_inRange S, inferredExtreme_inRange S, pushBack_length_le (by simp), ?_⟩
  intro m hm
  rcases mem_pushBack hm with hm | rfl
  · simp at hm
  · exact inferredExtreme_inRange S

/-! ### Fetch and grouping -/

/-- R172. What a fetch can do. -/
theorem getNext_cases {p : Params} {S S' : Sequencer} {r : Option Motion} (h : getNext p S = (r, S')) :
    (S.queue = [] ∧ r = none ∧ S' = S) ∨
      ∃ m rest, S.queue = m :: rest ∧ r = some m ∧
        S' = { S with cur := m.completed, queue := queueAfterPop p m rest } := by
  unfold getNext at h
  split at h
  · next hq => cases h; exact .inl ⟨hq, rfl, rfl⟩
  · next m rest hq => cases h; exact .inr ⟨m, rest, hq, rfl, rfl⟩

theorem queueAfterPop_length_le {p : Params} {m : Motion} {rest : List Motion} (h : rest.length ≤ p.qcap) :
    (queueAfterPop p m rest).length ≤ p.qcap := by
  unfold queueAfterPop
  split
  · exact pushBack_length_le (by simp)
  · exact h

theorem mem_queueAfterPop {p : Params} {m x : Motion} {rest : List Motion} (h : x ∈ queueAfterPop p m rest) :
    x ∈ rest ∨ x = holdAt p m.completed := by
  unfold queueAfterPop at h
  split at h
  · rcases mem_pushBack h with h | h
    · simp at h
    · exact .inr h
  · exact .inl h

theorem getNext_wf {p : Params} {S : Sequencer} (h : S.wf p) :
    (getNext p S).2.wf p ∧ ∀ m ∈ (getNext p S).1.toList, m.completed.inRange = true := by
  rcases hg : getNext p S with ⟨r, S'⟩
  rcases getNext_cases hg with ⟨-, rfl, rfl⟩ | ⟨m, rest, hq, rfl, rfl⟩
  · exact ⟨h, by simp⟩
  · have hm : m.completed.inRange = true := h.2.2.2 m (by simp [hq])
    have hlen : rest.length ≤ p.qcap := by have := h.2.2.1; rw [hq] at this; simp at this; omega
    refine ⟨⟨hm, h.2.1, queueAfterPop_length_le hlen, ?_⟩, by simpa using hm⟩
    intro x hx
    rcases mem_queueAfterPop hx with hx | rfl
    · exact h.2.2.2 x (by simp [hq, hx])
    · exact hm

/-- R170. What a merge can answer. -/
theorem merge_cases (a b : Motion) :
    (a.quality ≠ b.quality ∧ merge a b = .error .mergeMismatch) ∨
      (a.quality = b.quality ∧ maxU32 < a.quantity.toNat + b.quantity.toNat ∧ merge a b = .error .mergeOverflow) ∨
      (a.quality = b.quality ∧ a.quantity.toNat + b.quantity.toNat ≤ maxU32 ∧
        merge a b = .ok { quality := a.quality, quantity := a.quantity + b.quantity, completed := b.completed }) := by
  unfold merge
  by_cases h1 : a.quality = b.quality
  · by_cases h2 : a.quantity.toNat + b.quantity.toNat > maxU32
    · exact .inr (.inl ⟨h1, h2, by simp [h1, h2]⟩)
    · exact .inr (.inr ⟨h1, by omega, by simp [h1, h2]⟩)
  · exact .inl ⟨h1, by simp [h1]⟩

/-- R174. One turn of the grouping loop, when its condition holds. -/
theorem groupLoop_succ {p : Params} {th : U32} {fuel : Nat} {acc m : Motion} {rest : List Motion} {S : Sequencer}
    (hq : S.queue = m :: rest) (hth : acc.quantity.toNat < th.toNat) (hm : m.quality = acc.quality) :
    groupLoop p th (fuel + 1) acc S =
      match merge acc m with
      | .error code => (.error code, { S with cur := m.completed, queue := queueAfterPop p m rest })
      | .ok acc' => groupLoop p th fuel acc' { S with cur := m.completed, queue := queueAfterPop p m rest } := by
  have hg : getNext p S = (some m, { S with cur := m.completed, queue := queueAfterPop p m rest }) := by
    simp [getNext, hq]
  cases hmg : merge acc m <;> simp [groupLoop, mayGroup, hq, hth, hm, hg, hmg]

/-- R174. The loop stops when its condition fails. -/
theorem groupLoop_stop {p : Params} {th : U32} {fuel : Nat} {acc : Motion} {S : Sequencer}
    (h : mayGroup th acc S = false) : groupLoop p th fuel acc S = (.ok acc, S) := by
  cases fuel <;> simp [groupLoop, h]

/-- R174. The condition of the loop, taken apart. -/
theorem mayGroup_iff {th : U32} {acc : Motion} {S : Sequencer} :
    mayGroup th acc S = true ↔
      acc.quantity.toNat < th.toNat ∧ ∃ m rest, S.queue = m :: rest ∧ m.quality = acc.quality := by
  unfold mayGroup
  cases S.queue with
  | nil => simp
  | cons m rest => simp

/-- A property of the record that every fetch keeps holds after the loop, whatever it answers. -/
theorem groupLoop_keeps {P : Sequencer → Prop} {p : Params} {th : U32} (hP : ∀ S, P S → P (getNext p S).2)
    (fuel : Nat) (acc : Motion) (S : Sequencer) (h : P S) : P (groupLoop p th fuel acc S).2 := by
  induction fuel generalizing acc S with
  | zero => exact h
  | succ fuel ih =>
    by_cases hm : mayGroup th acc S = true
    · obtain ⟨hth, m, rest, hq, hqual⟩ := mayGroup_iff.1 hm
      have h' : P { S with cur := m.completed, queue := queueAfterPop p m rest } := by
        have := hP S h; simpa [getNext, hq] using this
      rw [groupLoop_succ hq hth hqual]
      split
      · exact h'
      · exact ih _ _ h'
    · rw [groupLoop_stop (by simpa using hm)]; exact h

/-- A property of the record that every fetch keeps holds after the grouped fetch. -/
theorem getNextGrouped_keeps {P : Sequencer → Prop} {p : Params} {th : U32} (hP : ∀ S, P S → P (getNext p S).2)
    {S : Sequencer} (h : P S) : P (getNextGrouped p th S).2 := by
  unfold getNextGrouped
  have h1 := hP S h
  split
  · next S' heq => rw [heq] at h1; exact h1
  · next first S' heq =>
    rw [heq] at h1
    have h2 := groupLoop_keeps hP (th := th) S'.queue.length first S' h1
    split
    · next h3 => rw [h3] at h2; exact h2
    · next h3 => rw [h3] at h2; exact h2

/-- R263. The loop's own condition excludes a merge of different qualities. -/
theorem groupLoop_no_mismatch (p : Params) (th : U32) (fuel : Nat) (acc : Motion) (S : Sequencer) :
    (groupLoop p th fuel acc S).1 ≠ .error .mergeMismatch := by
  induction fuel generalizing acc S with
  | zero => simp [groupLoop]
  | succ fuel ih =>
    by_cases hm : mayGroup th acc S = true
    · obtain ⟨hth, m, rest, hq, hqual⟩ := mayGroup_iff.1 hm
      rw [groupLoop_succ hq hth hqual]
      rcases merge_cases acc m with ⟨h, _⟩ | ⟨_, _, h⟩ | ⟨_, _, h⟩
      · exact absurd hqual.symm h
      · simp [h]
      · rw [h]; exact ih _ _
    · rw [groupLoop_stop (by simpa using hm)]; simp

/-- The result of the loop carries a completed state that was in the queue or was the first's. -/
theorem groupLoop_result_inRange {p : Params} {th : U32} (fuel : Nat) (acc : Motion) (S : Sequencer) (h : S.wf p)
    (ha : acc.completed.inRange = true) {r : Motion} {S' : Sequencer} (hr : groupLoop p th fuel acc S = (.ok r, S')) :
    r.completed.inRange = true := by
  induction fuel generalizing acc S with
  | zero => simp [groupLoop] at hr; rw [← hr.1]; exact ha
  | succ fuel ih =>
    by_cases hm : mayGroup th acc S = true
    · obtain ⟨hth, m, rest, hq, hqual⟩ := mayGroup_iff.1 hm
      rw [groupLoop_succ hq hth hqual] at hr
      have hw : Sequencer.wf p { S with cur := m.completed, queue := queueAfterPop p m rest } := by
        have := (getNext_wf h).1; simpa [getNext, hq] using this
      rcases merge_cases acc m with ⟨_, h1⟩ | ⟨_, _, h1⟩ | ⟨_, _, h1⟩
      · rw [h1] at hr; simp at hr
      · rw [h1] at hr; simp at hr
      · rw [h1] at hr
        exact ih _ _ hw (by exact h.2.2.2 m (by simp [hq])) hr
    · rw [groupLoop_stop (by simpa using hm)] at hr
      simp at hr; rw [← hr.1]; exact ha

/-- R20, R60. The grouped fetch keeps the record well-formed. -/
theorem getNextGrouped_wf {p : Params} {th : U32} {S : Sequencer} (h : S.wf p) : (getNextGrouped p th S).2.wf p :=
  getNextGrouped_keeps (P := fun S => S.wf p) (fun _ h => (getNext_wf h).1) h

/-- R20. What the grouped fetch yields is in range. -/
theorem getNextGrouped_result_inRange {p : Params} {th : U32} {S S' : Sequencer} {r : Option Motion} (h : S.wf p)
    (hr : getNextGrouped p th S = (.ok r, S')) : ∀ m ∈ r.toList, m.completed.inRange = true := by
  unfold getNextGrouped at hr
  have h1 := getNext_wf h
  split at hr
  · cases hr; simp
  · next first S1 heq =>
    rw [heq] at h1
    split at hr
    · next acc S2 heq2 =>
      cases hr
      simpa using groupLoop_result_inRange _ _ _ h1.1 (h1.2 first (by simp)) heq2
    · cases hr

end Sys2Proof.Machine
end

