-- ==== Sys2Proof/Laws/Smooth.lean ====
section
/-! SUPPORT. No sequencer operation puts an `Extend` next to a `Retract` (R155). -/

namespace Sys2Proof.Machine

theorem tailDiffers_false {q : List Motion} {d : Direction} (h : tailDiffers q d = false) :
    ∀ a ∈ q.getLast?, a.quality = d := by
  intro a ha
  unfold tailDiffers at h
  rw [Option.mem_def] at ha
  simpa [ha] using h

/-- Pushing a run of one quality that the tail is not opposed to. -/
theorem smooth_pushAll {cap : Nat} {q ms : List Motion} {d : Direction} (hq : smooth q = true)
    (hms : ∀ m ∈ ms, m.quality = d) (h : ∀ a ∈ q.getLast?, opposed a.quality d = false) :
    smooth (pushAll cap q ms) = true := by
  rw [pushAll_eq]
  refine smooth_append hq (smooth_take (smooth_of_same hms) _) fun a ha b hb => ?_
  have hb' : b ∈ ms := List.mem_of_mem_take (List.mem_of_mem_head? hb)
  rw [hms b hb']
  exact h a ha

/-- A full queue takes no push. -/
theorem pushAll_full {cap : Nat} {q ms : List Motion} (h : cap ≤ q.length) : pushAll cap q ms = q := by
  rw [pushAll_eq, show cap - q.length = 0 by omega]
  simp

theorem smooth_pushTiltHold {p : Params} {S : Sequencer} (d : Direction) (h : smooth S.queue = true) :
    smooth (pushTiltHold p S d) = true := by
  unfold pushTiltHold
  split
  · exact smooth_pushAll (ms := [holdAt p (baseState S)]) (d := .hold) h (by simp [holdAt])
      fun a _ => opposed_hold_right _
  · exact h

/-- After the reversal `Hold` the tail is not opposed to the sweep, unless the queue is full. -/
theorem pushTiltHold_tail {p : Params} {S : Sequencer} (d : Direction) :
    (∀ a ∈ (pushTiltHold p S d).getLast?, opposed a.quality d = false) ∨ p.qcap ≤ (pushTiltHold p S d).length := by
  unfold pushTiltHold
  split
  · by_cases hfull : S.queue.length < p.qcap
    · left
      intro a ha
      simp only [pushBack, hfull, if_true, List.getLast?_append, List.getLast?_singleton, Option.some_or,
        Option.mem_def, Option.some.injEq] at ha
      rw [← ha]
      exact opposed_hold_left d
    · right
      simp only [pushBack, hfull, if_false]
      omega
  · next h =>
    left
    intro a ha
    rw [tailDiffers_false (by simpa using h) a ha]
    exact opposed_self d

theorem smooth_addTilt {p : Params} {S : Sequencer} {a b : Int} (h : smooth S.queue = true) :
    smooth (addTilt p a b S).queue = true := by
  rcases hft : S.ftq with _ | ft
  · rwa [addTilt_roller hft]
  · by_cases hab : a = b
    · subst hab; rwa [addTilt_same]
    · rw [addTilt_queue hft hab]
      rcases pushTiltHold_tail (p := p) (S := S) (tiltQuality (baseState S).position a b) with h1 | h1
      · exact smooth_pushAll (smooth_pushTiltHold _ h) (fun m hm => (mem_tiltSweep hm).1) h1
      · rw [pushAll_full h1]; exact smooth_pushTiltHold _ h

/-- The tail left by an `add_tilt` was there, or is a `Hold`, or has the sweep's quality. -/
theorem addTilt_tail {p : Params} {S : Sequencer} {a b : Int} (hab : a ≠ b) (hft : S.ftq.isSome = true) :
    ∀ m ∈ (addTilt p a b S).queue,
      m ∈ S.queue ∨ m.quality = .hold ∨ m.quality = tiltQuality (baseState S).position a b := by
  obtain ⟨ft, hft⟩ := Option.isSome_iff_exists.1 hft
  intro m hm
  rw [addTilt_queue hft hab] at hm
  rcases mem_pushAll hm with hm | hm
  · rcases mem_pushTiltHold hm with hm | rfl
    · exact .inl hm
    · exact .inr (.inl rfl)
  · exact .inr (.inr (mem_tiltSweep hm).1)

theorem smooth_restartQueue (p : Params) (S : Sequencer) (d : Direction) : smooth (restartQueue p S d) = true :=
  smooth_of_same (d := .hold) fun m hm => by rw [mem_restartQueue hm]; rfl

/-- R155 (iii). Before the move, no instruction in the queue is opposed to it. -/
theorem tilted_not_opposed {p : Params} {S : Sequencer} {d : Direction} (hd : d ≠ .hold) (h : S.cur.inRange = true) :
    ∀ m ∈ (addTilt p S.cur.tilt (movingTilt S d) { S with queue := restartQueue p S d }).queue,
      opposed m.quality d = false := by
  have hc := (inRange_iff _).1 h
  have hrestart : ∀ m ∈ restartQueue p S d, opposed m.quality d = false := by
    intro m hm; rw [mem_restartQueue hm]; exact opposed_hold_left d
  rcases hft : S.ftq with _ | ft
  · rw [addTilt_roller (by rfl)]
    exact hrestart
  · by_cases hab : S.cur.tilt = movingTilt S d
    · rw [← hab, addTilt_same]; exact hrestart
    · intro m hm
      rcases addTilt_tail hab (by simp) m hm with hm | hm | hm
      · exact hrestart m hm
      · rw [hm]; exact opposed_hold_left d
      · rw [hm]
        unfold tiltQuality
        split
        · exact opposed_hold_left d
        · simp only [movingTilt, hft, movingExtreme] at hab ⊢
          cases d with
          | hold => exact absurd rfl hd
          | retract =>
            simp only [if_true] at hab ⊢
            rw [if_pos (by omega)]; rfl
          | extend =>
            simp only [reduceCtorEq, if_false] at hab ⊢
            rw [if_neg (by omega)]; rfl

/-- R155. `set_position` leaves a smooth queue, whatever the old queue was. -/
theorem smooth_setPosition {p : Params} {S : Sequencer} {target : Nat} (h : smooth S.queue = true)
    (hc : S.cur.inRange = true) : smooth (setPosition p target S).queue = true := by
  unfold setPosition
  split
  · exact h
  · have hd : moveQuality S.cur.position target ≠ .hold := by unfold moveQuality; split <;> simp
    refine smooth_addTilt ?_
    show smooth (pushAll _ _ _) = true
    refine smooth_pushAll (d := moveQuality S.cur.position target) (smooth_addTilt (smooth_restartQueue _ _ _)) ?_ ?_
    · intro m hm
      have := (mem_moveSteps hm).1
      simpa using this
    · intro a ha
      exact tilted_not_opposed hd hc a (List.mem_of_getLast? ha)

theorem smooth_setTilt {p : Params} {S : Sequencer} {target : Int} (h : smooth S.queue = true) :
    smooth (setTilt p target S).queue = true := by
  unfold setTilt
  split
  · exact h
  · exact smooth_addTilt h

theorem setPosition_cur (p : Params) (target : Nat) (S : Sequencer) : (setPosition p target S).cur = S.cur := by
  unfold setPosition
  split
  · rfl
  · simp [setDesPosition, pushMove]

theorem smooth_setState {p : Params} {S : Sequencer} {s : WState} (h : smooth S.queue = true)
    (hc : S.cur.inRange = true) : smooth (setState p s S).queue = true :=
  smooth_setTilt (smooth_setPosition h hc)

theorem smooth_homeFullyOpened {p : Params} {S : Sequencer} (h : smooth S.queue = true) :
    smooth (homeFullyOpened p S).queue = true := smooth_setPosition h closedState_inRange

theorem smooth_homeFullyClosed {p : Params} {S : Sequencer} (h : smooth S.queue = true) :
    smooth (homeFullyClosed p S).queue = true := smooth_setPosition h openedState_inRange

theorem smooth_trigEndstop (p : Params) (S : Sequencer) : smooth (trigEndstop p S).queue = true := by
  refine smooth_of_same (d := .hold) fun m hm => ?_
  rcases mem_pushBack hm with hm | rfl
  · simp at hm
  · rfl

/-- R155. A fetch only shortens the queue, or leaves a lone `Hold`. -/
theorem smooth_getNext {p : Params} {S : Sequencer} (h : smooth S.queue = true) :
    smooth (getNext p S).2.queue = true := by
  rcases hg : getNext p S with ⟨r, S'⟩
  rcases getNext_cases hg with ⟨-, rfl, rfl⟩ | ⟨m, rest, hq, rfl, rfl⟩
  · exact h
  · show smooth (queueAfterPop p m rest) = true
    unfold queueAfterPop
    split
    · refine smooth_of_same (d := .hold) fun x hx => ?_
      rcases mem_pushBack hx with hx | rfl
      · simp at hx
      · rfl
    · rw [hq] at h; exact smooth_tail h

theorem smooth_getNextGrouped {p : Params} {th : U32} {S : Sequencer} (h : smooth S.queue = true) :
    smooth (getNextGrouped p th S).2.queue = true :=
  getNextGrouped_keeps (P := fun S => smooth S.queue = true) (fun _ h => smooth_getNext h) h

end Sys2Proof.Machine
end

