-- ==== Sys2Proof/Laws/State.lean ====
section
/-! SUPPORT. The small lemmas of the state's access functions: what each update leaves of each field. -/

namespace Sys2Proof.Machine

/-! ### setChan -/

@[simp] theorem setChan_cfg (s : State) (c : Nat) (ch : Channel) : (s.setChan c ch).cfg = s.cfg := rfl
@[simp] theorem setChan_endstop (s : State) (c : Nat) (ch : Channel) : (s.setChan c ch).endstop = s.endstop := rfl
@[simp] theorem setChan_polarity (s : State) (c : Nat) (ch : Channel) : (s.setChan c ch).polarity = s.polarity := rfl
@[simp] theorem setChan_fatal (s : State) (c : Nat) (ch : Channel) : (s.setChan c ch).fatal = s.fatal := rfl
@[simp] theorem setChan_reports (s : State) (c : Nat) (ch : Channel) : (s.setChan c ch).reports = s.reports := rfl
@[simp] theorem setChan_now (s : State) (c : Nat) (ch : Channel) : (s.setChan c ch).now = s.now := rfl
@[simp] theorem setChan_passAt (s : State) (c : Nat) (ch : Channel) : (s.setChan c ch).passAt = s.passAt := rfl
@[simp] theorem setChan_encoded (s : State) (c : Nat) (ch : Channel) : (s.setChan c ch).encoded = s.encoded := rfl
@[simp] theorem setChan_taken (s : State) (c : Nat) (ch : Channel) : (s.setChan c ch).taken = s.taken := rfl
@[simp] theorem setChan_reader (s : State) (c : Nat) (ch : Channel) : (s.setChan c ch).reader = s.reader := rfl
@[simp] theorem setChan_sel (s : State) (c : Nat) (ch : Channel) : (s.setChan c ch).sel = s.sel := rfl
@[simp] theorem setChan_sopOut (s : State) (c : Nat) (ch : Channel) : (s.setChan c ch).sopOut = s.sopOut := rfl
@[simp] theorem setChan_driverCfg (s : State) (c : Nat) (ch : Channel) : (s.setChan c ch).driverCfg = s.driverCfg := rfl
@[simp] theorem setChan_freeAt (s : State) (c : Nat) (ch : Channel) : (s.setChan c ch).freeAt = s.freeAt := rfl
@[simp] theorem setChan_schedAt (s : State) (c : Nat) (ch : Channel) : (s.setChan c ch).schedAt = s.schedAt := rfl
@[simp] theorem setChan_inputs (s : State) (c : Nat) (ch : Channel) : (s.setChan c ch).inputs = s.inputs := rfl
@[simp] theorem setChan_chans (s : State) (c : Nat) (ch : Channel) : (s.setChan c ch).chans = s.chans.set c ch := rfl

/-! ### onChan -/

@[simp] theorem onChan_cfg (s : State) (c : Nat) (f : Channel → Channel) : (s.onChan c f).cfg = s.cfg := rfl
@[simp] theorem onChan_endstop (s : State) (c : Nat) (f : Channel → Channel) : (s.onChan c f).endstop = s.endstop := rfl
@[simp] theorem onChan_polarity (s : State) (c : Nat) (f : Channel → Channel) : (s.onChan c f).polarity = s.polarity := rfl
@[simp] theorem onChan_fatal (s : State) (c : Nat) (f : Channel → Channel) : (s.onChan c f).fatal = s.fatal := rfl
@[simp] theorem onChan_reports (s : State) (c : Nat) (f : Channel → Channel) : (s.onChan c f).reports = s.reports := rfl
@[simp] theorem onChan_now (s : State) (c : Nat) (f : Channel → Channel) : (s.onChan c f).now = s.now := rfl
@[simp] theorem onChan_passAt (s : State) (c : Nat) (f : Channel → Channel) : (s.onChan c f).passAt = s.passAt := rfl
@[simp] theorem onChan_encoded (s : State) (c : Nat) (f : Channel → Channel) : (s.onChan c f).encoded = s.encoded := rfl
@[simp] theorem onChan_taken (s : State) (c : Nat) (f : Channel → Channel) : (s.onChan c f).taken = s.taken := rfl
@[simp] theorem onChan_reader (s : State) (c : Nat) (f : Channel → Channel) : (s.onChan c f).reader = s.reader := rfl
@[simp] theorem onChan_sel (s : State) (c : Nat) (f : Channel → Channel) : (s.onChan c f).sel = s.sel := rfl
@[simp] theorem onChan_sopOut (s : State) (c : Nat) (f : Channel → Channel) : (s.onChan c f).sopOut = s.sopOut := rfl
@[simp] theorem onChan_driverCfg (s : State) (c : Nat) (f : Channel → Channel) : (s.onChan c f).driverCfg = s.driverCfg := rfl
@[simp] theorem onChan_freeAt (s : State) (c : Nat) (f : Channel → Channel) : (s.onChan c f).freeAt = s.freeAt := rfl
@[simp] theorem onChan_schedAt (s : State) (c : Nat) (f : Channel → Channel) : (s.onChan c f).schedAt = s.schedAt := rfl
@[simp] theorem onChan_inputs (s : State) (c : Nat) (f : Channel → Channel) : (s.onChan c f).inputs = s.inputs := rfl

@[simp] theorem onChan_chans (s : State) (c : Nat) (f : Channel → Channel) :
    (s.onChan c f).chans = s.chans.set c (f (s.chan c)) := rfl

/-! ### emit -/

@[simp] theorem emit_cfg (s : State) (r : Report) : (s.emit r).cfg = s.cfg := rfl
@[simp] theorem emit_chans (s : State) (r : Report) : (s.emit r).chans = s.chans := rfl
@[simp] theorem emit_endstop (s : State) (r : Report) : (s.emit r).endstop = s.endstop := rfl
@[simp] theorem emit_polarity (s : State) (r : Report) : (s.emit r).polarity = s.polarity := rfl
@[simp] theorem emit_fatal (s : State) (r : Report) : (s.emit r).fatal = s.fatal := rfl
@[simp] theorem emit_reports (s : State) (r : Report) : (s.emit r).reports = s.reports ++ [r] := rfl
@[simp] theorem emit_now (s : State) (r : Report) : (s.emit r).now = s.now := rfl
@[simp] theorem emit_passAt (s : State) (r : Report) : (s.emit r).passAt = s.passAt := rfl
@[simp] theorem emit_encoded (s : State) (r : Report) : (s.emit r).encoded = s.encoded := rfl
@[simp] theorem emit_taken (s : State) (r : Report) : (s.emit r).taken = s.taken := rfl
@[simp] theorem emit_reader (s : State) (r : Report) : (s.emit r).reader = s.reader := rfl
@[simp] theorem emit_sel (s : State) (r : Report) : (s.emit r).sel = s.sel := rfl
@[simp] theorem emit_freeAt (s : State) (r : Report) : (s.emit r).freeAt = s.freeAt := rfl
@[simp] theorem emit_schedAt (s : State) (r : Report) : (s.emit r).schedAt = s.schedAt := rfl
@[simp] theorem emit_inputs (s : State) (r : Report) : (s.emit r).inputs = s.inputs := rfl

@[simp] theorem emitPosition_cfg (s : State) (c : Nat) : (s.emitPosition c).cfg = s.cfg := rfl
@[simp] theorem emitPosition_chans (s : State) (c : Nat) : (s.emitPosition c).chans = s.chans := rfl
@[simp] theorem emitPosition_chan (s : State) (c d : Nat) : (s.emitPosition c).chan d = s.chan d := rfl
@[simp] theorem emitPosition_endstop (s : State) (c : Nat) : (s.emitPosition c).endstop = s.endstop := rfl
@[simp] theorem emitPosition_polarity (s : State) (c : Nat) : (s.emitPosition c).polarity = s.polarity := rfl
@[simp] theorem emitPosition_fatal (s : State) (c : Nat) : (s.emitPosition c).fatal = s.fatal := rfl
@[simp] theorem emitPosition_now (s : State) (c : Nat) : (s.emitPosition c).now = s.now := rfl
@[simp] theorem emitPosition_passAt (s : State) (c : Nat) : (s.emitPosition c).passAt = s.passAt := rfl
@[simp] theorem emitPosition_encoded (s : State) (c : Nat) : (s.emitPosition c).encoded = s.encoded := rfl
@[simp] theorem emitPosition_taken (s : State) (c : Nat) : (s.emitPosition c).taken = s.taken := rfl
@[simp] theorem emitPosition_reader (s : State) (c : Nat) : (s.emitPosition c).reader = s.reader := rfl
@[simp] theorem emitPosition_sel (s : State) (c : Nat) : (s.emitPosition c).sel = s.sel := rfl
@[simp] theorem emitPosition_freeAt (s : State) (c : Nat) : (s.emitPosition c).freeAt = s.freeAt := rfl
@[simp] theorem emitPosition_inputs (s : State) (c : Nat) : (s.emitPosition c).inputs = s.inputs := rfl

@[simp] theorem emitPosition_reports (s : State) (c : Nat) :
    (s.emitPosition c).reports = s.reports ++ [.position c (s.chan c).seq.cur (s.chan c).seq.des] := rfl

/-! ### present -/

@[simp] theorem present_cfg (s : State) (r : Report) : (s.present r).cfg = s.cfg := rfl
@[simp] theorem present_chans (s : State) (r : Report) : (s.present r).chans = s.chans := rfl
@[simp] theorem present_endstop (s : State) (r : Report) : (s.present r).endstop = s.endstop := rfl
@[simp] theorem present_polarity (s : State) (r : Report) : (s.present r).polarity = s.polarity := rfl
@[simp] theorem present_fatal (s : State) (r : Report) : (s.present r).fatal = s.fatal := rfl
@[simp] theorem present_reports (s : State) (r : Report) : (s.present r).reports = s.reports := rfl
@[simp] theorem present_encoded (s : State) (r : Report) : (s.present r).encoded = s.encoded ++ [r] := rfl
@[simp] theorem present_taken (s : State) (r : Report) : (s.present r).taken = s.taken := rfl
@[simp] theorem present_now (s : State) (r : Report) : (s.present r).now = s.now := rfl
@[simp] theorem present_passAt (s : State) (r : Report) : (s.present r).passAt = s.passAt := rfl
@[simp] theorem present_reader (s : State) (r : Report) : (s.present r).reader = s.reader := rfl

/-! ### raiseFatal -/

@[simp] theorem raiseFatal_cfg (s : State) (e : FatalCode) : (s.raiseFatal e).cfg = s.cfg := rfl
@[simp] theorem raiseFatal_chans (s : State) (e : FatalCode) : (s.raiseFatal e).chans = s.chans := rfl
@[simp] theorem raiseFatal_endstop (s : State) (e : FatalCode) : (s.raiseFatal e).endstop = s.endstop := rfl
@[simp] theorem raiseFatal_polarity (s : State) (e : FatalCode) : (s.raiseFatal e).polarity = s.polarity := rfl
@[simp] theorem raiseFatal_reports (s : State) (e : FatalCode) : (s.raiseFatal e).reports = s.reports := rfl
@[simp] theorem raiseFatal_now (s : State) (e : FatalCode) : (s.raiseFatal e).now = s.now := rfl
@[simp] theorem raiseFatal_passAt (s : State) (e : FatalCode) : (s.raiseFatal e).passAt = none := rfl
@[simp] theorem raiseFatal_encoded (s : State) (e : FatalCode) : (s.raiseFatal e).encoded = s.encoded := rfl
@[simp] theorem raiseFatal_taken (s : State) (e : FatalCode) : (s.raiseFatal e).taken = s.taken := rfl
@[simp] theorem raiseFatal_reader (s : State) (e : FatalCode) : (s.raiseFatal e).reader = s.reader := rfl

/-- R262. A block that was not halted latches the code. -/
theorem raiseFatal_fatal (s : State) (e : FatalCode) (h : s.fatal = none) : (s.raiseFatal e).fatal = some e := by
  simp [State.raiseFatal, h]

/-! ### Reading a channel back -/

/-- A channel that exists, as the record `chan` gives. -/
theorem chan_of_some {s : State} {c : Nat} {ch : Channel} (h : s.chans[c]? = some ch) : s.chan c = ch := by
  simp [State.chan, List.getD_eq_getElem?_getD, h]

/-- Below the number of channels a channel exists. -/
theorem chans_getElem? {s : State} {c : Nat} (h : c < s.chans.length) : s.chans[c]? = some (s.chan c) := by
  simp [State.chan, List.getD_eq_getElem?_getD, List.getElem?_eq_getElem h]

/-- Writing an existing channel and reading it. -/
theorem setChan_chan_same {s : State} {c : Nat} (ch : Channel) (h : c < s.chans.length) : (s.setChan c ch).chan c = ch := by
  simp [State.chan, List.getD_eq_getElem?_getD, List.getElem?_set_self h]

/-- Writing a channel leaves every other one. -/
theorem setChan_chan_other {s : State} {c d : Nat} (ch : Channel) (h : c ≠ d) : (s.setChan c ch).chan d = s.chan d := by
  simp [State.chan, List.getD_eq_getElem?_getD, List.getElem?_set_ne h]

theorem onChan_chan_same {s : State} {c : Nat} (f : Channel → Channel) (h : c < s.chans.length) :
    (s.onChan c f).chan c = f (s.chan c) := setChan_chan_same _ h

theorem onChan_chan_other {s : State} {c d : Nat} (f : Channel → Channel) (h : c ≠ d) :
    (s.onChan c f).chan d = s.chan d := setChan_chan_other _ h

@[simp] theorem onChan_length (s : State) (c : Nat) (f : Channel → Channel) :
    (s.onChan c f).chans.length = s.chans.length := by simp

/-- A change of a channel that leaves its sequencer record alone leaves every sequencer record. -/
theorem onChan_chan_seq {s : State} {c : Nat} {f : Channel → Channel} (h : ∀ ch, (f ch).seq = ch.seq) (d : Nat) :
    ((s.onChan c f).chan d).seq = (s.chan d).seq := by
  by_cases hd : c = d
  · subst hd
    by_cases hc : c < s.chans.length
    · rw [onChan_chan_same _ hc, h]
    · simp only [State.chan, onChan_chans, List.set_eq_of_length_le (by omega : s.chans.length ≤ c)]
  · rw [onChan_chan_other _ hd]

/-- A property of every channel survives the change of one, if the change keeps it. -/
theorem onChan_all {P : Channel → Prop} {s : State} {c : Nat} {f : Channel → Channel} (h : ∀ ch ∈ s.chans, P ch)
    (hf : ∀ ch, ch ∈ s.chans → P ch → P (f ch)) : ∀ ch ∈ (s.onChan c f).chans, P ch := by
  intro ch hch
  simp only [onChan_chans] at hch
  by_cases hc : c < s.chans.length
  · rcases List.mem_or_eq_of_mem_set hch with h1 | h1
    · exact h ch h1
    · subst h1
      have hmem : s.chan c ∈ s.chans := by
        have := chans_getElem? hc
        exact List.mem_of_getElem? this
      exact hf _ hmem (h _ hmem)
  · rw [List.set_eq_of_length_le (by omega)] at hch
    exact h ch hch

end Sys2Proof.Machine
end

