-- ==== Sys2Proof/Laws/Change.lean ====
section
/-! SUPPORT. What can happen to one sequencer record and to one channel, said once: every operation of the block is a chain of
the primitive changes listed here, so an invariant is proved once per primitive change. -/

namespace Sys2Proof.Machine

/-! ### The sequencer record -/

/-- A chain of sequencer operations with operands in range. -/
inductive SeqChange (p : Params) : Sequencer → Sequencer → Prop where
  | refl (S : Sequencer) : SeqChange p S S
  | trans {S T U : Sequencer} (h : SeqChange p S T) (h' : SeqChange p T U) : SeqChange p S U
  | fresh (S : Sequencer) (fc : U32) (ft : Option U32) : SeqChange p S (newSequencer p fc ft)
  | load (S : Sequencer) (s : WState) (h : s.inRange = true) : SeqChange p S (loadState s S)
  | position (S : Sequencer) (target : Nat) (h : target ≤ 100) : SeqChange p S (setPosition p target S)
  | tilt (S : Sequencer) (target : Int) (h : -90 ≤ target ∧ target ≤ 90) : SeqChange p S (setTilt p target S)
  | sweep (S : Sequencer) (a b : Int) (ha : -90 ≤ a ∧ a ≤ 90) (hb : -90 ≤ b ∧ b ≤ 90) : SeqChange p S (addTilt p a b S)
  | fetch (S : Sequencer) : SeqChange p S (getNext p S).2
  | endstop (S : Sequencer) : SeqChange p S (trigEndstop p S)

theorem SeqChange.state {p : Params} (S : Sequencer) (s : WState) (h : s.inRange = true) :
    SeqChange p S (setState p s S) :=
  have h' := (inRange_iff s).1 h
  .trans (.position S s.position h'.1) (.tilt _ s.tilt h'.2)

theorem SeqChange.homeOpened {p : Params} (S : Sequencer) : SeqChange p S (homeFullyOpened p S) :=
  .trans (.load S closedState closedState_inRange) (.position _ 100 (by omega))

theorem SeqChange.homeClosed {p : Params} (S : Sequencer) : SeqChange p S (homeFullyClosed p S) :=
  .trans (.load S openedState openedState_inRange) (.position _ 0 (by omega))

theorem SeqChange.grouped {p : Params} (th : U32) (S : Sequencer) : SeqChange p S (getNextGrouped p th S).2 :=
  getNextGrouped_keeps (P := fun T => SeqChange p S T) (fun T h => .trans h (.fetch T)) (.refl S)

/-- R20, R60. -/
theorem SeqChange.wf {p : Params} (hp : p.initState.inRange = true) {S T : Sequencer} (h : SeqChange p S T)
    (hw : S.wf p) : T.wf p := by
  induction h with
  | refl => exact hw
  | trans _ _ ih1 ih2 => exact ih2 (ih1 hw)
  | fresh S fc ft => exact newSequencer_wf fc ft hp
  | load S s h => exact loadState_wf hw h
  | position S target h => exact setPosition_wf hw h
  | tilt S target h => exact setTilt_wf hw h
  | sweep S a b ha hb => exact addTilt_wf hw ha hb
  | fetch S => exact (getNext_wf hw).1
  | endstop S => exact trigEndstop_wf p S

/-- R155. -/
theorem SeqChange.smooth {p : Params} (hp : p.initState.inRange = true) {S T : Sequencer} (h : SeqChange p S T)
    (hw : S.wf p) (hs : Machine.smooth S.queue = true) : Machine.smooth T.queue = true := by
  induction h with
  | refl => exact hs
  | trans h1 _ ih1 ih2 => exact ih2 (h1.wf hp hw) (ih1 hw hs)
  | fresh S fc ft => rfl
  | load S s h => exact hs
  | position S target h => exact smooth_setPosition hs hw.1
  | tilt S target h => exact smooth_setTilt hs
  | sweep S a b ha hb => exact smooth_addTilt hs
  | fetch S => exact smooth_getNext hs
  | endstop S => exact smooth_trigEndstop p S

/-! ### A channel -/

/-- A chain of changes of one channel's record, at time `now`. -/
inductive ChanChange (p : Params) (now : Nat) : Channel → Channel → Prop where
  | refl (ch : Channel) : ChanChange p now ch ch
  | trans {a b c : Channel} (h : ChanChange p now a b) (h' : ChanChange p now b c) : ChanChange p now a c
  /-- A sequencer operation (R126). -/
  | seq (ch : Channel) (S : Sequencer) (h : SeqChange p ch.seq S) : ChanChange p now ch { ch with seq := S }
  /-- The grouped fetch of a tick (R204). -/
  | fetched (ch : Channel) (r : Option Motion) (S : Sequencer) (th : U32) (h : getNextGrouped p th ch.seq = (.ok r, S)) :
      ChanChange p now ch (bufferFetched r S ch)
  /-- A motion instruction enters the buffer (R207). -/
  | buffered (ch : Channel) (m : Motion) (h : m.completed.inRange = true) : ChanChange p now ch (fetchInto m ch)
  /-- Dispatch of an instruction of the latched quality (R198, R199, R201, R202). -/
  | consumed (ch : Channel) (m : Motion) (h : m.quality = ch.disp.latched) : ChanChange p now ch (consumeMotion p now m ch)
  /-- A direction change, with the generator stopped and the deadline passed (R200). -/
  | changed (ch : Channel) (reversed : Bool) (q : Direction) (h : mayChange now ch = true) :
      ChanChange p now ch (changeDirection p now reversed q ch)
  /-- The endstop path (R196). -/
  | endstop (ch : Channel) : ChanChange p now ch (endstopChannel p ch)
  /-- A step of the watcher (R271). -/
  | watcher (ch : Channel) (w : Watcher) : ChanChange p now ch { ch with watcher := w }
  /-- The limit-switch line (R288). -/
  | line (ch : Channel) (b : Bool) : ChanChange p now ch (setLine b ch)
  /-- Pulses emitted (R283). -/
  | drained (ch : Channel) (n : Nat) : ChanChange p now ch (pgDrain n ch)

theorem consumeMotion_seq (p : Params) (t : Nat) (m : Motion) (ch : Channel) : (consumeMotion p t m ch).seq = ch.seq := by
  unfold consumeMotion; split <;> rfl

theorem consumeMotion_buf (p : Params) (t : Nat) (m : Motion) (ch : Channel) :
    (consumeMotion p t m ch).disp.buf = none := by
  unfold consumeMotion; split <;> rfl

theorem consumeMotion_latched (p : Params) (t : Nat) (m : Motion) (ch : Channel) :
    (consumeMotion p t m ch).disp.latched = ch.disp.latched := by
  unfold consumeMotion; split <;> rfl

theorem consumeMotion_lastReversal (p : Params) (t : Nat) (m : Motion) (ch : Channel) :
    (consumeMotion p t m ch).disp.lastReversal = ch.disp.lastReversal := by
  unfold consumeMotion; split <;> rfl

theorem consumeMotion_dir (p : Params) (t : Nat) (m : Motion) (ch : Channel) :
    (consumeMotion p t m ch).dir = ch.dir := by
  unfold consumeMotion; split <;> rfl

/-- R20. -/
theorem ChanChange.wf {p : Params} (hp : p.initState.inRange = true) {now : Nat} {a b : Channel}
    (h : ChanChange p now a b) (hw : a.wf p) : b.wf p := by
  induction h with
  | refl => exact hw
  | trans _ _ ih1 ih2 => exact ih2 (ih1 hw)
  | seq ch S h => exact ⟨h.wf hp hw.1, hw.2⟩
  | fetched ch r S th h =>
    have h1 := getNextGrouped_wf (th := th) hw.1
    rw [h] at h1
    exact ⟨h1, getNextGrouped_result_inRange hw.1 h⟩
  | buffered ch m h => exact ⟨⟨h, hw.1.2⟩, by simpa [fetchInto, bufferWf] using h⟩
  | consumed ch m h =>
    exact ⟨by rw [consumeMotion_seq]; exact hw.1, by rw [bufferWf, consumeMotion_buf]; simp⟩
  | changed ch b q h => exact ⟨hw.1, hw.2⟩
  | endstop ch => exact ⟨trigEndstop_wf p _, by simp [endstopChannel, bufferWf]⟩
  | watcher ch w => exact hw
  | line ch b => exact hw
  | drained ch n => exact hw

/-- R155. -/
theorem ChanChange.smooth {p : Params} (hp : p.initState.inRange = true) {now : Nat} {a b : Channel}
    (h : ChanChange p now a b) (hw : a.wf p) (hs : Machine.smooth a.seq.queue = true) :
    Machine.smooth b.seq.queue = true := by
  induction h with
  | refl => exact hs
  | trans h1 _ ih1 ih2 => exact ih2 (h1.wf hp hw) (ih1 hw hs)
  | seq ch S h => exact h.smooth hp hw.1 hs
  | fetched ch r S th h =>
    have h1 := smooth_getNextGrouped (p := p) (th := th) hs
    rw [h] at h1
    exact h1
  | buffered ch m h => exact hs
  | consumed ch m h => rw [consumeMotion_seq]; exact hs
  | changed ch b q h => exact hs
  | endstop ch => exact smooth_trigEndstop p _
  | watcher ch w => exact hs
  | line ch b => exact hs
  | drained ch n => exact hs

/-- R320. -/
theorem ChanChange.holdDrained {p : Params} {now : Nat} {a b : Channel} (h : ChanChange p now a b)
    (hs : a.disp.latched = .hold → a.pending = 0) : b.disp.latched = .hold → b.pending = 0 := by
  induction h with
  | refl => exact hs
  | trans _ _ ih1 ih2 => exact ih2 (ih1 hs)
  | seq ch S h => exact hs
  | fetched ch r S th h => exact hs
  | buffered ch m h => exact hs
  | consumed ch m h =>
    intro hl
    rw [consumeMotion_latched] at hl
    rw [hl] at h
    simp only [consumeMotion, h, if_true, consumeHold]
    exact hs hl
  | changed ch b q h =>
    intro _
    simp only [mayChange, pgStopped, Bool.and_eq_true, decide_eq_true_eq] at h
    exact h.1
  | endstop ch => intro _; rfl
  | watcher ch w => exact hs
  | line ch b => exact hs
  | drained ch n =>
    intro hl
    have := hs hl
    simp [pgDrain, this]

/-- R33. -/
theorem ChanChange.timely {p : Params} {now : Nat} {a b : Channel} (h : ChanChange p now a b)
    (hs : a.disp.lastReversal ≤ now) : b.disp.lastReversal ≤ now := by
  induction h with
  | refl => exact hs
  | trans _ _ ih1 ih2 => exact ih2 (ih1 hs)
  | consumed ch m h => rw [consumeMotion_lastReversal]; exact hs
  | changed ch b q h => exact Nat.le_refl now
  | seq _ _ _ | fetched _ _ _ _ _ | buffered _ _ _ | endstop _ | watcher _ _ | line _ _ | drained _ _ => exact hs

end Sys2Proof.Machine
end

