-- ==== Sys2Proof/Laws/Dispatch.lean ====
section
/-! SUPPORT. What the shared operations over an existing channel do, as explicit next states: the sequencer write, dispatch by
the three branches of R198 to R203, and the step on a placed event. -/

namespace Sys2Proof.Machine

theorem lt_of_some {s : State} {c : Nat} {ch : Channel} (h : s.chans[c]? = some ch) : c < s.chans.length :=
  (List.getElem?_eq_some_iff.1 h).1

/-- R198, R199, R201, R202. -/
theorem consumeMotion_eq (p : Params) (t : Nat) (m : Motion) (ch : Channel) :
    consumeMotion p t m ch = ch.consumed p t m.quality m.quantity := by
  unfold consumeMotion Channel.consumed
  cases m.quality <;> simp [consumeHold, consumePulses, pgPush, holdTime]

/-- R200. -/
theorem changeDirection_eq (p : Params) (t : Nat) (b : Bool) (d : Direction) (ch : Channel) :
    changeDirection p t b d ch = ch.turned p t b d := by
  unfold changeDirection Channel.turned dirLevel
  cases d <;> rfl

/-- Changing the sequencer record of an existing channel. -/
theorem onSeq_get {s : State} {c : Nat} {ch : Channel} (h : s.chans[c]? = some ch) (f : Sequencer → Sequencer) :
    s.onSeq c f = { s with chans := s.chans.set c { ch with seq := f ch.seq } } := by
  simp [State.onSeq, State.onChan, State.setChan, chan_of_some h]

/-- What a command that plans leaves (R235, R239). -/
theorem onSeq_report {s : State} {c : Nat} {ch : Channel} (h : s.chans[c]? = some ch) (f : Sequencer → Sequencer) :
    (s.onSeq c f).emitPosition c = s.afterCommand c ch (f ch.seq) := by
  rw [onSeq_get h]
  simp [State.emitPosition, State.emit, State.afterCommand, State.chan, List.getD_eq_getElem?_getD, lt_of_some h]

/-- Changing the record of an existing channel. -/
theorem onChan_get {s : State} {c : Nat} {ch : Channel} (h : s.chans[c]? = some ch) (f : Channel → Channel) :
    s.onChan c f = { s with chans := s.chans.set c (f ch) } := by
  simp [State.onChan, State.setChan, chan_of_some h]

/-- R198, R199. Dispatch of an instruction of the latched quality. -/
theorem dispatch_same {s : State} {c : Nat} {ch : Channel} (h : s.chans[c]? = some ch) {m : Motion} {t : Nat} (hm : m.quality = ch.disp.latched) :
    s.dispatch c m t = { s with chans := s.chans.set c (ch.consumed s.cfg t m.quality m.quantity) } := by
  unfold State.dispatch
  rw [chan_of_some h, if_pos hm, onChan_get h, consumeMotion_eq]

/-- R200 to R202. Dispatch through a direction change. -/
theorem dispatch_turn {s : State} {c : Nat} {ch : Channel} (h : s.chans[c]? = some ch) {m : Motion} {t : Nat} (hm : m.quality ≠ ch.disp.latched)
    (h1 : ch.pending = 0) (h2 : ch.disp.resumeAfter ≤ t) :
    s.dispatch c m t = { s with chans := s.chans.set c ((ch.turned s.cfg t (s.polarity.getD c false) m.quality).consumed s.cfg t m.quality m.quantity)
                                reports := s.reports ++ [.position c ch.seq.cur ch.seq.des] } := by
  unfold State.dispatch
  have h3 : mayChange t ch = true := by simp [mayChange, pgStopped, deadlinePassed, h1, h2]
  rw [chan_of_some h, if_neg hm, if_pos h3, onChan_get h]
  have hlt := lt_of_some h
  rw [onChan_get (ch := changeDirection s.cfg t (readBit s.polarity c) m.quality ch) (by simp [hlt])]
  simp only [consumeMotion_eq, changeDirection_eq, readBit]
  simp only [State.emitPosition, State.emit, State.chan, List.getD_eq_getElem?_getD, List.getElem?_set_self hlt, Option.getD_some, List.set_set]
  simp [Channel.turned]

/-- R203. A direction change that is not allowed yet. -/
theorem dispatch_wait {s : State} {c : Nat} {ch : Channel} (h : s.chans[c]? = some ch) {m : Motion} {t : Nat} (hm : m.quality ≠ ch.disp.latched)
    (h1 : ch.pending ≠ 0 ∨ t < ch.disp.resumeAfter) : s.dispatch c m t = s := by
  unfold State.dispatch
  have h3 : mayChange t ch = false := by simp [mayChange, pgStopped, deadlinePassed]; omega
  rw [chan_of_some h, if_neg hm, h3]; simp

/-- What a step does with the first placed event, when it is not one that waits for the pass in progress. -/
theorem step_of_input {s : State} {e : Event} {rest : List Event} (h : s.inputs = e :: rest)
    (hp : s.passAt = none ∨ waitsForPass e = false) : step s = react e { s with inputs := rest } := by
  have h1 : s.nextEvent = e := by simp [State.nextEvent, h]
  have h2 : s.takeEvent = { s with inputs := rest } := by simp [State.takeEvent, h]
  unfold step transition
  rw [h1, h2, if_neg]
  rcases hp with hp | hp <;> simp [State.inPass, hp]

end Sys2Proof.Machine
end

