-- ==== Sys2Proof/Laws/Encoding.lean ====
section
/-! SUPPORT. How a placed field is read back: the lemmas an encode-then-decode proof needs, field by field. -/

namespace Sys2Proof

theorem place_getLsbD {n : Nat} (k lo : Nat) (v : BitVec n) (i : Nat) :
    (place k lo v).getLsbD i = (decide (i < k) && decide (lo ≤ i) && v.getLsbD (i - lo)) := by
  simp only [place, BitVec.getLsbD_shiftLeft, BitVec.getLsbD_setWidth]
  by_cases h1 : i < k
  · have h3 : i - lo < k := by omega
    by_cases h2 : lo ≤ i
    · simp [h1, h2, h3, show ¬ i < lo by omega]
    · simp [h2, show i < lo by omega]
  · simp [h1]

/-- A field read from its own place. -/
theorem extract_place_same {n : Nat} (k lo : Nat) (v : BitVec n) (h : lo + n ≤ k) :
    (place k lo v).extractLsb' lo n = v := by
  ext i hi
  simp only [BitVec.getElem_extractLsb', place_getLsbD]
  have h1 : lo + i < k := by omega
  simp [h1, BitVec.getLsbD_eq_getElem hi]

/-- A field read from above another's place is zero. -/
theorem extract_place_below {n : Nat} (k lo : Nat) (v : BitVec n) (at' len : Nat) (h : lo + n ≤ at') :
    (place k lo v).extractLsb' at' len = 0#len := by
  ext i hi
  simp only [BitVec.getElem_extractLsb', place_getLsbD, BitVec.getElem_zero]
  rw [BitVec.getLsbD_of_ge v _ (by omega)]
  simp

/-- A field read from below another's place is zero. -/
theorem extract_place_above {n : Nat} (k lo : Nat) (v : BitVec n) (at' len : Nat) (h : at' + len ≤ lo) :
    (place k lo v).extractLsb' at' len = 0#len := by
  ext i hi
  have h1 : ¬ lo ≤ at' + i := by omega
  simp [BitVec.getElem_extractLsb', place_getLsbD, h1]

theorem extract_or {k : Nat} (a b : BitVec k) (lo len : Nat) :
    (a ||| b).extractLsb' lo len = a.extractLsb' lo len ||| b.extractLsb' lo len := by
  ext i hi
  simp [BitVec.getElem_extractLsb']

/-- A bit of a placed flag. -/
theorem placeBit_getLsbD (k lo : Nat) (b : Bool) (i : Nat) :
    (placeBit k lo b).getLsbD i = (decide (i < k) && decide (i = lo) && b) := by
  simp only [placeBit, place_getLsbD, BitVec.getLsbD_ofBool]
  by_cases h1 : i < k <;> by_cases h2 : i = lo <;> (simp [h1, h2]; try omega)

/-- A bit outside a placed field. -/
theorem place_getLsbD_outside {n : Nat} (k lo : Nat) (v : BitVec n) (i : Nat) (h : i < lo ∨ lo + n ≤ i) :
    (place k lo v).getLsbD i = false := by
  rw [place_getLsbD]
  rcases h with h | h
  · simp [show ¬ lo ≤ i by omega]
  · rw [BitVec.getLsbD_of_ge v _ (by omega)]; simp

/-- A field read from below a placed flag is zero. -/
theorem extract_placeBit_outside (k lo : Nat) (b : Bool) (at' len : Nat) (h : at' + len ≤ lo ∨ lo < at') :
    (placeBit k lo b).extractLsb' at' len = 0#len := by
  rcases h with h | h
  · exact extract_place_above _ _ _ _ _ h
  · exact extract_place_below _ _ _ _ _ (by omega)

theorem optField_presence {n : Nat} (o : Option (BitVec n)) : optField o.isSome (o.getD 0#n) = .ok o := by
  cases o <;> simp [optField]

/-- R102. What a port's word decodes to is an instruction of that port. -/
theorem decode_port {w : PortWord} {i : Instr} (h : decode w = .ok i) : i.port = w.port := by
  have hz : ∀ {n : Nat} {r : BitVec n} {j : Instr} {p : Port}, j.port = p → ifZero r j = .ok i → i.port = p := by
    intro n r j p hj h; unfold ifZero at h; split at h <;> cases h; exact hj
  have hr : ∀ {j : Instr} {p : Port}, j.port = p → ifInRange j = .ok i → i.port = p := by
    intro j p hj h; unfold ifInRange at h; split at h <;> cases h; exact hj
  have hzr : ∀ {n : Nat} {r : BitVec n} {j : Instr} {p : Port}, j.port = p → ifZeroInRange r j = .ok i → i.port = p := by
    intro n r j p hj h; unfold ifZeroInRange at h; split at h
    · exact hr hj h
    · cases h
  cases w with
  | cw w =>
    simp only [decode, decodeCw] at h
    split at h
    · cases h; rfl
    · exact hz rfl h
    · unfold decodeSetup at h; split at h <;> cases h; rfl
    · unfold decodeSet at h; split at h
      · exact hz rfl h
      · cases h
    · exact hz rfl h
    · exact hz rfl h
    · cases h
  | sop w =>
    simp only [decode, decodeSop] at h
    split at h
    · unfold decodeNew at h; split at h <;> cases h; rfl
    all_goals first
      | exact hz rfl h
      | exact hzr rfl h
      | (split at h <;> cases h; rfl)
      | cases h
  | miw w =>
    simp only [decode, decodeMiw] at h
    split at h
    all_goals first
      | exact hr rfl h
      | cases h
  | rw w =>
    simp only [decode, decodeRw] at h
    split at h
    all_goals first
      | exact hz rfl h
      | exact hr rfl h
      | cases h

theorem optFlag_presence (o : Option Bool) : optFlag o.isSome (o.getD false) = .ok o := by
  cases o <;> simp [optFlag]

end Sys2Proof
end

