-- ==== Sys2Proof/Laws/Grouping.lean ====
section
/-! SUPPORT. The grouped fetch in closed form (R174). -/

namespace Sys2Proof.Machine

/-- R172. The queue after a fetch: the trailing `Hold` always fits. -/
theorem queueAfterPop_eq {p : Params} (hq : 1 ≤ p.qcap) (m : Motion) (rest : List Motion) :
    queueAfterPop p m rest = if rest = [] ∧ m.quality ≠ .hold then [{ quality := .hold, quantity := p.holdQuantity, completed := m.completed }] else rest := by
  simp [queueAfterPop, pushBack, holdAt, show 0 < p.qcap by omega]

/-- The quantities of a run, summed without wrap (R170). -/
def quantitySum (l : List Motion) : Nat := (l.map fun m => m.quantity.toNat).sum

/-- R174. What the grouping loop does once `last` was popped and `rest` remains, `acc` being the group so far: it pops the
shortest run that reaches the threshold, meets another quality, or overflows. -/
theorem groupLoop_closed (p : Params) (hq : 1 ≤ p.qcap) (th : U32) (S0 : Sequencer) :
    ∀ (rest : List Motion) (acc : Motion) (last : Motion) (fuel : Nat), rest.length ≤ fuel →
      acc.completed = last.completed → acc.quality = last.quality →
      ∃ k last', k ≤ rest.length ∧ (last :: rest.take k).getLast? = some last' ∧
        (∀ m ∈ rest.take k, m.quality = acc.quality) ∧
        (∀ j, j < k → acc.quantity.toNat + quantitySum (rest.take j) < th.toNat) ∧
        ((acc.quantity.toNat + quantitySum (rest.take k) ≤ 4294967295 ∧
        (th.toNat ≤ acc.quantity.toNat + quantitySum (rest.take k) ∨ ∀ m ∈ (rest.drop k).head?, m.quality ≠ acc.quality) ∧
        groupLoop p th fuel acc { S0 with cur := last.completed, queue := queueAfterPop p last rest } =
          (.ok { quality := acc.quality, quantity := BitVec.ofNat 32 (acc.quantity.toNat + quantitySum (rest.take k)), completed := last'.completed },
            { S0 with cur := last'.completed, queue := queueAfterPop p { last' with quality := acc.quality } (rest.drop k) })) ∨
         (4294967295 < acc.quantity.toNat + quantitySum (rest.take k) ∧
          groupLoop p th fuel acc { S0 with cur := last.completed, queue := queueAfterPop p last rest } =
          (.error .mergeOverflow, { S0 with cur := last'.completed, queue := queueAfterPop p { last' with quality := acc.quality } (rest.drop k) }))) := by
  intro rest
  induction rest with
  | nil =>
    intro acc last fuel _ hc hqual
    refine ⟨0, last, by simp, by simp, by simp, by simp, .inl ⟨by have := acc.quantity.isLt; simp [quantitySum]; omega, .inr (by simp), ?_⟩⟩
    have hstop : mayGroup th acc { S0 with cur := last.completed, queue := queueAfterPop p last [] } = false := by
      rw [queueAfterPop_eq hq]
      by_cases h : last.quality = .hold
      · simp [mayGroup, h]
      · simp [mayGroup, h, hqual]; exact fun _ e => h e.symm
    rw [groupLoop_stop hstop]
    cases acc; simp at hc hqual; simp [quantitySum, queueAfterPop_eq hq, hqual, ← hc]
  | cons b rest ih =>
    intro acc last fuel hfuel hc hqual
    obtain ⟨f, rfl⟩ : ∃ f, fuel = f + 1 := ⟨fuel - 1, by simp at hfuel; omega⟩
    have hQ : queueAfterPop p last (b :: rest) = b :: rest := by simp [queueAfterPop]
    rw [hQ]
    by_cases hm : acc.quantity.toNat < th.toNat ∧ b.quality = acc.quality
    · obtain ⟨hlt, hbq⟩ := hm
      by_cases hsum : acc.quantity.toNat + b.quantity.toNat ≤ 4294967295
      · have hmerge : merge acc b = .ok { quality := acc.quality, quantity := acc.quantity + b.quantity, completed := b.completed } := by
          simp [merge, hbq, maxU32]; omega
        rw [groupLoop_succ rfl hlt hbq, hmerge]
        have hadd : (acc.quantity + b.quantity).toNat = acc.quantity.toNat + b.quantity.toNat := by
          rw [BitVec.toNat_add]; omega
        obtain ⟨k, last', h1, h2, h3, h4, h5⟩ := ih { quality := acc.quality, quantity := acc.quantity + b.quantity, completed := b.completed } b f (by simpa using hfuel) rfl hbq.symm
        simp only [hadd] at h3 h4 h5
        refine ⟨k + 1, last', by simpa using h1, ?_, ?_, ?_, ?_⟩
        · simpa using h2
        · simpa [hbq] using h3
        · intro j hj
          rcases j with _ | j
          · simpa [quantitySum] using hlt
          · have := h4 j (by omega); simp [quantitySum] at this ⊢; omega
        · have e : quantitySum ((b :: rest).take (k+1)) = b.quantity.toNat + quantitySum (rest.take k) := by simp [quantitySum]
          simp only [e, ← Nat.add_assoc, List.drop_succ_cons]
          exact h5
      · have hmerge : merge acc b = .error .mergeOverflow := by
          simp [merge, hbq, maxU32]; omega
        refine ⟨1, b, by simp, by simp, by simp [hbq], ?_, .inr ⟨by simp [quantitySum]; omega, ?_⟩⟩
        · intro j hj; obtain rfl : j = 0 := by omega
          simpa [quantitySum] using hlt
        · rw [groupLoop_succ rfl hlt hbq, hmerge]
          simp [queueAfterPop_eq hq, hbq]
    · have hstop : mayGroup th acc { S0 with cur := last.completed, queue := b :: rest } = false := by
        by_contra hne
        rw [Bool.not_eq_false, mayGroup_iff] at hne
        obtain ⟨h1, m, r, h2, h3⟩ := hne
        simp at h2; obtain ⟨rfl, rfl⟩ := h2
        exact hm ⟨h1, h3⟩
      refine ⟨0, last, by simp, by simp, by simp, by simp, .inl ⟨by have := acc.quantity.isLt; simp [quantitySum]; omega, ?_, ?_⟩⟩
      · by_cases h : acc.quantity.toNat < th.toNat
        · right; simp; intro e; exact hm ⟨h, e⟩
        · left; simp [quantitySum]; omega
      · rw [groupLoop_stop hstop]
        simp [quantitySum, ← hc, queueAfterPop]

end Sys2Proof.Machine
end

