-- ==== Sys2Proof/Laws/PerInstr.lean ====
section
/-! SUPPORT. The family `SelectsRow`: an instruction's word stands on the instruction's own port and its selecting field holds
the code of the instruction's row of the opcode table (R102). One lemma per constructor. -/

namespace Sys2Proof.Laws

/-- The code of an instruction's row: `op`, `sop`, `quality` or `kind` (R96, R97, R100, R101). -/
def SelectsRow.code : Instr → Nat
  | .reset => 0
  | .home _ => 1
  | .setup _ _ _ _ _ _ _ => 2
  | .set _ _ _ => 3
  | .get _ => 4
  | .getSg _ => 5
  | .new _ _ => 0
  | .newRoller _ => 1
  | .newVenetian _ _ => 2
  | .loadState _ _ => 3
  | .setPosition _ => 4
  | .setTilt _ => 5
  | .addTilt _ _ => 6
  | .setState _ _ => 7
  | .getNextInstruction => 8
  | .getNextInstructionGrouped _ => 9
  | .trigEndstop => 10
  | .homeFullyOpened => 11
  | .homeFullyClosed => 12
  | .getCurrentState => 13
  | .getDesiredState => 14
  | .extend _ _ _ => 0
  | .retract _ _ _ => 1
  | .hold _ _ _ => 2
  | .ready => 0
  | .position _ _ _ _ _ => 1
  | .stallGuardResult _ _ => 2

/-- R102. The word of an instruction selects its row. -/
def SelectsRow.Statement (i : Instr) : Prop :=
  match encode i with
  | .cw w => i.port = .cw ∧ (w.extractLsb' 0 3).toNat = SelectsRow.code i
  | .sop w => i.port = .sop ∧ (w.extractLsb' 0 4).toNat = SelectsRow.code i
  | .miw w => i.port = .miw ∧ (w.extractLsb' 48 2).toNat = SelectsRow.code i
  | .rw w => i.port = .rw ∧ (w.extractLsb' 0 2).toNat = SelectsRow.code i

/-! ### The selecting field of each word form -/

theorem selector_channelCw (op : BitVec 3) (c : U8) : (encodeChannelCw op c).extractLsb' 0 3 = op := by
  simp (disch := omega) [encodeChannelCw, extract_or, extract_place_same, extract_place_above]

theorem selector_setup (c p t : U8) (fc : U32) (r : Option Bool) (ft : Option U32) (sg : Option U8) :
    (encodeSetup c p t fc r ft sg).extractLsb' 0 3 = 2#3 := by
  simp (disch := omega) [encodeSetup, extract_or, extract_place_same, extract_place_above, extract_placeBit_outside]

theorem selector_set (c : U8) (p t : Option U8) : (encodeSet c p t).extractLsb' 0 3 = 3#3 := by
  simp (disch := omega) [encodeSet, extract_or, extract_place_same, extract_place_above, extract_placeBit_outside]

theorem selector_new (fc : U32) (ft : Option U32) : (encodeNew fc ft).extractLsb' 0 4 = 0#4 := by
  simp (disch := omega) [encodeNew, extract_or, extract_place_same, extract_place_above, extract_placeBit_outside]

theorem selector_newVenetian (fc ft : U32) : (encodeNewVenetian fc ft).extractLsb' 0 4 = 2#4 := by
  simp (disch := omega) [encodeNewVenetian, extract_or, extract_place_same, extract_place_above, extract_placeBit_outside]

theorem selector_bareSop (sop : BitVec 4) : (encodeBareSop sop).extractLsb' 0 4 = sop := by
  simp (disch := omega) [encodeBareSop, extract_place_same]

theorem selector_wordSop (sop : BitVec 4) (a : U32) : (encodeWordSop sop a).extractLsb' 0 4 = sop := by
  simp (disch := omega) [encodeWordSop, extract_or, extract_place_same, extract_place_above]

theorem selector_byteSop (sop : BitVec 4) (a : U8) : (encodeByteSop sop a).extractLsb' 0 4 = sop := by
  simp (disch := omega) [encodeByteSop, extract_or, extract_place_same, extract_place_above]

theorem selector_bytePairSop (sop : BitVec 4) (a b : U8) : (encodeBytePairSop sop a b).extractLsb' 0 4 = sop := by
  simp (disch := omega) [encodeBytePairSop, extract_or, extract_place_same, extract_place_above]

theorem selector_motion (quality : BitVec 2) (q : U32) (p t : U8) :
    (encodeMotion quality q p t).extractLsb' 48 2 = quality := by
  simp (disch := omega) [encodeMotion, extract_or, extract_place_same, extract_place_below]

theorem selector_position (c cp ct dp dt : U8) : (encodePosition c cp ct dp dt).extractLsb' 0 2 = 1#2 := by
  simp (disch := omega) [encodePosition, extract_or, extract_place_same, extract_place_above]

theorem selector_stallGuard (c v : U8) : (encodeStallGuard c v).extractLsb' 0 2 = 2#2 := by
  simp (disch := omega) [encodeStallGuard, extract_or, extract_place_same, extract_place_above]

/-! ### The family -/

theorem SelectsRow.reset : SelectsRow.Statement .reset :=
  ⟨rfl, congrArg BitVec.toNat (selector_channelCw _ _)⟩

theorem SelectsRow.home (c : U8) : SelectsRow.Statement (.home c) :=
  ⟨rfl, congrArg BitVec.toNat (selector_channelCw _ _)⟩

theorem SelectsRow.setup (c p t : U8) (fc : U32) (r : Option Bool) (ft : Option U32) (sg : Option U8) : SelectsRow.Statement (.setup c p t fc r ft sg) :=
  ⟨rfl, congrArg BitVec.toNat (selector_setup _ _ _ _ _ _ _)⟩

theorem SelectsRow.set (c : U8) (p t : Option U8) : SelectsRow.Statement (.set c p t) :=
  ⟨rfl, congrArg BitVec.toNat (selector_set _ _ _)⟩

theorem SelectsRow.get (c : U8) : SelectsRow.Statement (.get c) :=
  ⟨rfl, congrArg BitVec.toNat (selector_channelCw _ _)⟩

theorem SelectsRow.getSg (c : U8) : SelectsRow.Statement (.getSg c) :=
  ⟨rfl, congrArg BitVec.toNat (selector_channelCw _ _)⟩

theorem SelectsRow.new (fc : U32) (ft : Option U32) : SelectsRow.Statement (.new fc ft) :=
  ⟨rfl, congrArg BitVec.toNat (selector_new _ _)⟩

theorem SelectsRow.newRoller (fc : U32) : SelectsRow.Statement (.newRoller fc) :=
  ⟨rfl, congrArg BitVec.toNat (selector_wordSop _ _)⟩

theorem SelectsRow.newVenetian (fc ft : U32) : SelectsRow.Statement (.newVenetian fc ft) :=
  ⟨rfl, congrArg BitVec.toNat (selector_newVenetian _ _)⟩

theorem SelectsRow.loadState (p t : U8) : SelectsRow.Statement (.loadState p t) :=
  ⟨rfl, congrArg BitVec.toNat (selector_bytePairSop _ _ _)⟩

theorem SelectsRow.setPosition (p : U8) : SelectsRow.Statement (.setPosition p) :=
  ⟨rfl, congrArg BitVec.toNat (selector_byteSop _ _)⟩

theorem SelectsRow.setTilt (t : U8) : SelectsRow.Statement (.setTilt t) :=
  ⟨rfl, congrArg BitVec.toNat (selector_byteSop _ _)⟩

theorem SelectsRow.addTilt (a b : U8) : SelectsRow.Statement (.addTilt a b) :=
  ⟨rfl, congrArg BitVec.toNat (selector_bytePairSop _ _ _)⟩

theorem SelectsRow.setState (p t : U8) : SelectsRow.Statement (.setState p t) :=
  ⟨rfl, congrArg BitVec.toNat (selector_bytePairSop _ _ _)⟩

theorem SelectsRow.getNextInstruction : SelectsRow.Statement .getNextInstruction :=
  ⟨rfl, congrArg BitVec.toNat (selector_bareSop _)⟩

theorem SelectsRow.getNextInstructionGrouped (th : U32) : SelectsRow.Statement (.getNextInstructionGrouped th) :=
  ⟨rfl, congrArg BitVec.toNat (selector_wordSop _ _)⟩

theorem SelectsRow.trigEndstop : SelectsRow.Statement .trigEndstop :=
  ⟨rfl, congrArg BitVec.toNat (selector_bareSop _)⟩

theorem SelectsRow.homeFullyOpened : SelectsRow.Statement .homeFullyOpened :=
  ⟨rfl, congrArg BitVec.toNat (selector_bareSop _)⟩

theorem SelectsRow.homeFullyClosed : SelectsRow.Statement .homeFullyClosed :=
  ⟨rfl, congrArg BitVec.toNat (selector_bareSop _)⟩

theorem SelectsRow.getCurrentState : SelectsRow.Statement .getCurrentState :=
  ⟨rfl, congrArg BitVec.toNat (selector_bareSop _)⟩

theorem SelectsRow.getDesiredState : SelectsRow.Statement .getDesiredState :=
  ⟨rfl, congrArg BitVec.toNat (selector_bareSop _)⟩

theorem SelectsRow.extend (q : U32) (p t : U8) : SelectsRow.Statement (.extend q p t) :=
  ⟨rfl, congrArg BitVec.toNat (selector_motion _ _ _ _)⟩

theorem SelectsRow.retract (q : U32) (p t : U8) : SelectsRow.Statement (.retract q p t) :=
  ⟨rfl, congrArg BitVec.toNat (selector_motion _ _ _ _)⟩

theorem SelectsRow.hold (q : U32) (p t : U8) : SelectsRow.Statement (.hold q p t) :=
  ⟨rfl, congrArg BitVec.toNat (selector_motion _ _ _ _)⟩

theorem SelectsRow.ready : SelectsRow.Statement .ready := by
  refine ⟨rfl, ?_⟩; decide

theorem SelectsRow.position (c cp ct dp dt : U8) : SelectsRow.Statement (.position c cp ct dp dt) :=
  ⟨rfl, congrArg BitVec.toNat (selector_position _ _ _ _ _)⟩

theorem SelectsRow.stallGuardResult (c v : U8) : SelectsRow.Statement (.stallGuardResult c v) :=
  ⟨rfl, congrArg BitVec.toNat (selector_stallGuard _ _)⟩

end Sys2Proof.Laws
end

