-- ==== Sys2Proof/Laws/Plans.lean ====
section
/-! SUPPORT. The sequencer's planning operations in closed form: each is equal to the plan of `Safety.lean`, in every state and
at every capacity. -/

namespace Sys2Proof.Machine

/-- R141. -/
theorem baseState_eq_endOf (S : Sequencer) : baseState S = endOf S := by
  unfold baseState endOf; cases S.queue.getLast? <;> rfl

/-- A queue cut off at the capacity, extended by what still fits, is the longer queue cut off at the capacity. -/
theorem take_append_take (cap : Nat) (l X Y : List Motion) (h : l.length ≤ cap → X = Y) :
    l.take cap ++ X.take (cap - (l.take cap).length) = (l ++ Y).take cap := by
  by_cases hl : l.length ≤ cap
  · rw [List.take_of_length_le hl, h hl, List.take_append, List.take_of_length_le hl]
  · rw [List.take_append, List.length_take, show cap - min cap l.length = 0 by omega, show cap - l.length = 0 by omega]; simp

/-- R150. -/
theorem tiltSweep_eq_sweepRun (ft : U32) (pos : Nat) (a b : Int) : tiltSweep ft pos a b = sweepRun ft pos a b := by
  simp [tiltSweep, sweepRun, tiltAfter, tiltQuality, sweepQuality, tiltQuantity, tiltStep]

/-- R150. The reversal `Hold` of a tilt, as far as it fits. -/
theorem pushTiltHold_closed (p : Params) (S : Sequencer) (q : Direction) :
    pushTiltHold p S q = S.queue ++ (reversalHold p S.queue.getLast? q (endOf S)).take (p.qcap - S.queue.length) := by
  unfold pushTiltHold tailDiffers reversalHold
  cases h : S.queue.getLast? with
  | none => simp
  | some m =>
    by_cases h2 : m.quality = q
    · simp [h2]
    · simp [h2, pushBack_eq, baseState_eq_endOf, holdAt]

/-- Two runs of pushes are one. -/
theorem pushAll_append_take (cap : Nat) (q h r : List Motion) :
    pushAll cap (q ++ h.take (cap - q.length)) r = q ++ (h ++ r).take (cap - q.length) := by
  rw [pushAll_eq, List.append_assoc, List.take_append]
  congr 3
  simp only [List.length_append, List.length_take]; omega

/-- R150. What `add_tilt` does on a venetian, whatever the queue holds. -/
theorem addTilt_closed (p : Params) (a b : Int) (S : Sequencer) (ft : U32) (h : S.ftq = some ft) :
    addTilt p a b S = { S with queue := S.queue ++ (tiltSegment p S.queue (endOf S) ft a b).take (p.qcap - S.queue.length) } := by
  by_cases hab : a = b
  · subst hab; rw [addTilt_same]; simp [tiltSegment]
  · have h1 := addTilt_queue (p := p) h hab
    rw [pushTiltHold_closed, pushAll_append_take] at h1
    have : addTilt p a b S = { S with queue := (addTilt p a b S).queue } := by
      simp [addTilt, h, hab]
    rw [this, h1]
    simp [tiltSegment, hab, baseState_eq_endOf, tiltSweep_eq_sweepRun]
    rfl

/-- R145. The cleared queue with its reversal `Hold`. -/
theorem restart_closed (p : Params) (S : Sequencer) (q : Direction) :
    restartQueue p S q = (reversalHold p S.queue.getLast? q S.cur).take p.qcap := by
  unfold restartQueue tailDiffers reversalHold
  cases h : S.queue.getLast? with
  | none => simp
  | some m =>
    by_cases h2 : m.quality = q
    · simp [h2]
    · simp [h2, pushBack_eq, holdAt]

/-- R147. -/
theorem moveSteps_eq_travelRun (step : U32) (tilt : Int) (pos target : Nat) : moveSteps step tilt pos target = travelRun step tilt pos target := by
  unfold moveSteps travelRun moveLength
  split
  · next h => simp [moveQuality, positionAfter, h]
  · next h => simp [moveQuality, positionAfter, h]

/-- R147. The last instruction of a move reaches the target. -/
theorem travelRun_getLast (step : U32) (tilt : Int) (pos target : Nat) (h : pos ≠ target) :
    ∃ m, (travelRun step tilt pos target).getLast? = some m ∧ m.completed = { position := target, tilt := tilt } ∧ m.quality = travelQuality pos target := by
  unfold travelRun travelQuality
  split
  · next h1 =>
    obtain ⟨n, hn⟩ : ∃ n, target - pos = n + 1 := ⟨target - pos - 1, by omega⟩
    rw [hn, List.range_succ]; simp; omega
  · next h1 =>
    obtain ⟨n, hn⟩ : ∃ n, pos - target = n + 1 := ⟨pos - target - 1, by omega⟩
    rw [hn, List.range_succ]; simp; omega

/-- R143 to R149. What `set_position` does, whatever the queue and the capacity. -/
theorem setPosition_closed (p : Params) (S : Sequencer) (target : Nat) : setPosition p target S = planned p S target := by
  unfold setPosition planned
  split
  · rfl
  · next hne =>
    rcases hft : S.ftq with _ | ft
    · rw [addTilt_roller (by rfl), addTilt_roller (by rfl)]
      simp only [setDesPosition, pushMove, movePlan, hft, rollerPlan, restart_closed, moveSteps_eq_travelRun, positionStep, movingTilt, pushAll_eq]
      congr 1
      exact take_append_take _ _ _ _ (fun _ => rfl)
    · simp only [movePlan, hft, venetianPlan]
      have hq : moveQuality S.cur.position target = travelQuality S.cur.position target := rfl
      have hm : movingTilt S (moveQuality S.cur.position target) = travelTilt S.cur.position target := by
        simp only [movingTilt, hft, movingExtreme, moveQuality, travelTilt]; split <;> simp_all
      simp only [← hft]
      have hm' : movingTilt { S with queue := S.queue } (moveQuality S.cur.position target) = travelTilt S.cur.position target := hm
      rw [addTilt_closed p S.cur.tilt _ _ ft (by exact hft)]
      simp only [hm]
      rw [addTilt_closed p _ S.cur.tilt _ ft (by exact hft)]
      simp only [setDesPosition, pushMove, moveSteps_eq_travelRun, positionStep, pushAll_eq, restart_closed, hq]
      have hm2 : ∀ Q, movingTilt { S with queue := Q } (travelQuality S.cur.position target) = travelTilt S.cur.position target := fun Q => hm
      simp only [hm2]
      congr 1
      generalize hs : reversalHold p S.queue.getLast? (travelQuality S.cur.position target) S.cur = start
      have hend : endOf { S with queue := start.take p.qcap } = S.cur := by
        unfold reversalHold at hs
        have : start = [] ∨ ∃ m, start = [m] ∧ m.completed = S.cur := by
          split at hs
          · split at hs
            · exact .inl hs.symm
            · exact .inr ⟨_, hs.symm, rfl⟩
          · exact .inl hs.symm
        rcases this with rfl | ⟨m, rfl, hm⟩
        · simp [endOf]
        · rcases p.qcap with _ | n
          · simp [endOf]
          · simp [endOf, hm]
      rw [hend]
      have e1 := take_append_take p.qcap start (tiltSegment p (start.take p.qcap) S.cur ft S.cur.tilt (travelTilt S.cur.position target))
        (tiltSegment p start S.cur ft S.cur.tilt (travelTilt S.cur.position target)) (fun h => by rw [List.take_of_length_le h])
      rw [e1]
      generalize start ++ tiltSegment p start S.cur ft S.cur.tilt (travelTilt S.cur.position target) = A1
      rw [take_append_take p.qcap A1 _ (travelRun (S.fcq / 100#32) (travelTilt S.cur.position target) S.cur.position target) (fun _ => rfl)]
      refine take_append_take _ _ _ _ fun h => ?_
      rw [List.take_of_length_le h]
      have hne' : S.cur.position ≠ target := by simpa using hne
      obtain ⟨m, h1, h2, -⟩ := travelRun_getLast (S.fcq / 100#32) (travelTilt S.cur.position target) _ _ hne'
      congr 1
      simp [endOf, List.getLast?_append, h1, h2]

/-- R151. What `set_tilt` does. -/
theorem setTilt_closed (p : Params) (S : Sequencer) (t : Int) : setTilt p t S = tilted p S t := by
  unfold setTilt tilted
  rcases hft : S.ftq with _ | ft
  · rfl
  · simp only [baseState_eq_endOf]; rw [addTilt_closed p _ _ _ ft hft, ← hft]

/-- R152. What `home_fully_opened` does. -/
theorem homeFullyOpened_closed (p : Params) (S : Sequencer) :
    homeFullyOpened p S = homed p S { position := 0, tilt := 90 } 100 := setPosition_closed _ _ _

/-- R153. What `home_fully_closed` does. -/
theorem homeFullyClosed_closed (p : Params) (S : Sequencer) :
    homeFullyClosed p S = homed p S { position := 100, tilt := 0 } 0 := setPosition_closed _ _ _

/-- R176. The extreme that `trig_endstop` infers. -/
theorem inferredExtreme_eq {S : Sequencer} {e : WState} (h1 : e.position = (if S.cur.position < S.des.position ∨
        (S.cur.position = S.des.position ∧ S.des.tilt < S.cur.tilt) ∨ S.cur.position = 100
      then 100 else 0)) (h2 : e.tilt = (if S.ftq = none then 0 else 90)) : inferredExtreme S = e := by
  cases e; simp only at h1 h2; subst h1 h2
  simp only [inferredExtreme, towardOpen, stateLt]
  congr 1
  · simp [or_assoc]
  · cases S.ftq <;> simp

end Sys2Proof.Machine
end

