-- ==== Sys2Proof/Laws/Step.lean ====
section
/-! SUPPORT. What one step can do, said once: it resets the device, or it changes at most one channel's record by a chain of
`ChanChange`s, appends reports, and writes at most one bit of each flag word. Every invariant is derived from this. -/

namespace Sys2Proof.Machine

open Host

/-- The change of channel `c` from `s` to `t`, all other channels being left alone. -/
def Touch (c : Nat) (s t : State) : Prop :=
  ∃ ch', (c < s.chans.length → ChanChange s.cfg s.now (s.chan c) ch') ∧ t.chans = s.chans.set c ch'

/-- R40. One bit of a flag word is written; a bit that is set belongs to a channel. -/
def FlagWrite (n : Nat) (word word' : List Bool) : Prop :=
  ∃ c b, (b = true → c < n) ∧ word' = writeBit word c b

/-- R244, R245. What a transition other than a device reset appends to the report stream. -/
def Emits (s t : State) : Prop := ∃ rs, t.reports = s.reports ++ rs ∧ rs.length ≤ 1 ∧ ∀ r ∈ rs, t.shows r

/-- What a transition other than a device reset does. -/
structure Effect (s t : State) : Prop where
  cfg : t.cfg = s.cfg
  now : s.now ≤ t.now
  chans : ∃ c, Touch c s t
  reports : Emits s t
  fatal : s.fatal = none ∨ t.fatal = s.fatal
  noMismatch : t.fatal = some .mergeMismatch → s.fatal = some .mergeMismatch
  endstop : FlagWrite s.chans.length s.endstop t.endstop
  polarity : FlagWrite s.cfg.nch s.polarity t.polarity
  pass : s.cfg.wf = true → passWf s.cfg s.passAt → passWf s.cfg t.passAt
  reader : readerWf s.reader = true → readerWf t.reader = true

/-! ### Touch -/

theorem Touch.same {c : Nat} {s t : State} (h : t.chans = s.chans) : Touch c s t := by
  refine ⟨s.chan c, fun _ => .refl _, ?_⟩
  rw [h]
  by_cases hc : c < s.chans.length
  · have h1 := chans_getElem? hc
    apply List.ext_getElem?
    intro i
    rw [List.getElem?_set]
    split
    · next h2 => subst h2; rw [h1]
    · rfl
  · rw [List.set_eq_of_length_le (by omega)]

theorem Touch.on {c : Nat} {s t : State} {f : Channel → Channel}
    (h : c < s.chans.length → ChanChange s.cfg s.now (s.chan c) (f (s.chan c)))
    (ht : t.chans = (s.onChan c f).chans) : Touch c s t := ⟨f (s.chan c), h, by rw [ht, onChan_chans]⟩

theorem Touch.chan {c : Nat} {s t : State} (h : Touch c s t) (hc : c < s.chans.length) :
    ChanChange s.cfg s.now (s.chan c) (t.chan c) := by
  obtain ⟨ch', h1, h2⟩ := h
  have : t.chan c = ch' := by
    simp [State.chan, List.getD_eq_getElem?_getD, h2, List.getElem?_set_self hc]
  rw [this]
  exact h1 hc

theorem Touch.other {c d : Nat} {s t : State} (h : Touch c s t) (hd : c ≠ d) : t.chan d = s.chan d := by
  obtain ⟨ch', -, h2⟩ := h
  simp [State.chan, List.getD_eq_getElem?_getD, h2, List.getElem?_set_ne hd]

theorem Touch.length {c : Nat} {s t : State} (h : Touch c s t) : t.chans.length = s.chans.length := by
  obtain ⟨ch', -, h2⟩ := h
  simp [h2]

theorem Touch.trans {c : Nat} {s t u : State} (h : Touch c s t) (h' : Touch c t u) (hcfg : t.cfg = s.cfg)
    (hnow : t.now = s.now) : Touch c s u := by
  obtain ⟨ch2, h2, e2⟩ := h'
  refine ⟨ch2, fun hc => ?_, ?_⟩
  · have h3 := h2 (by rw [h.length]; exact hc)
    rw [hcfg, hnow] at h3
    exact .trans (h.chan hc) h3
  · obtain ⟨ch1, -, e1⟩ := h
    rw [e2, e1, List.set_set]

/-- A property of every channel that each `ChanChange` keeps. -/
theorem Touch.all {P : Channel → Prop} {c : Nat} {s t : State} (h : Touch c s t) (hP : ∀ ch ∈ s.chans, P ch)
    (hkeep : ∀ a ∈ s.chans, ∀ b, ChanChange s.cfg s.now a b → P a → P b) : ∀ ch ∈ t.chans, P ch := by
  intro ch hch
  obtain ⟨ch', h1, h2⟩ := h
  rw [h2] at hch
  by_cases hc : c < s.chans.length
  · rcases List.mem_or_eq_of_mem_set hch with h3 | h3
    · exact hP ch h3
    · subst h3
      have hmem : s.chan c ∈ s.chans := List.mem_of_getElem? (chans_getElem? hc)
      exact hkeep _ hmem _ (h1 hc) (hP _ hmem)
  · rw [List.set_eq_of_length_le (by omega)] at hch
    exact hP ch hch

/-! ### Flag writes -/

theorem FlagWrite.refl (n : Nat) (word : List Bool) : FlagWrite n word word :=
  ⟨word.length, false, by simp, by rw [writeBit, List.set_eq_of_length_le (Nat.le_refl _)]⟩

theorem FlagWrite.wf {p : Params} {word word' : List Bool} (h : FlagWrite p.nch word word') (hw : flagsWf p word) :
    flagsWf p word' := by
  obtain ⟨c, b, hb, rfl⟩ := h
  refine ⟨by simpa [writeBit] using hw.1, ?_⟩
  intro x hx
  simp only [writeBit, List.drop_set] at hx
  split at hx
  · exact hw.2 x hx
  · next hc =>
    rcases List.mem_or_eq_of_mem_set hx with h1 | h1
    · exact hw.2 x h1
    · rw [h1]
      by_contra hne
      have := hb (by simpa using hne)
      omega

/-! ### Emissions -/

theorem Emits.same {s t : State} (h : t.reports = s.reports) : Emits s t := ⟨[], by simp [h], by simp, by simp⟩

theorem Emits.one {s t : State} {r : Report} (h : t.reports = s.reports ++ [r]) (hr : t.shows r) : Emits s t :=
  ⟨[r], h, Nat.le_refl 1, by simpa using hr⟩

theorem Emits.congr {s s' t t' : State} (h : Emits s t) (hs : s'.reports = s.reports) (ht : t'.reports = t.reports)
    (hc : t'.chans = t.chans) : Emits s' t' := by
  obtain ⟨rs, h1, h2, h3⟩ := h
  refine ⟨rs, by rw [hs, ht, h1], h2, fun r hr => ?_⟩
  have := h3 r hr
  have hchan : ∀ d, t'.chan d = t.chan d := fun d => by simp [State.chan, hc]
  cases r with
  | ready => exact this
  | position c cur des => simpa only [State.shows, hchan] using this
  | stallGuardResult c v => trivial

/-! ### Effects -/

theorem Effect.refl (s : State) : Effect s s where
  cfg := rfl
  now := Nat.le_refl _
  chans := ⟨0, .same rfl⟩
  reports := .same rfl
  fatal := .inr rfl
  noMismatch := id
  endstop := .refl _ _
  polarity := .refl _ _
  pass := fun _ h => h
  reader := id

/-- An effect that changes channel `c` only: channels, reports, endstop bit; everything else as before. -/
theorem Effect.ofTouch {s t : State} {c : Nat} (hcfg : t.cfg = s.cfg) (hnow : t.now = s.now) (hch : Touch c s t)
    (hrep : Emits s t) (hfat : t.fatal = s.fatal) (hend : FlagWrite s.chans.length s.endstop t.endstop)
    (hpol : t.polarity = s.polarity) (hpass : t.passAt = s.passAt) (hrd : t.reader = s.reader) : Effect s t where
  cfg := hcfg
  now := by omega
  chans := ⟨c, hch⟩
  reports := hrep
  fatal := .inr hfat
  noMismatch := by rw [hfat]; exact id
  endstop := hend
  polarity := by rw [hpol]; exact .refl _ _
  pass := fun _ h => by rw [hpass]; exact h
  reader := fun h => by rw [hrd]; exact h

/-- Fields an effect does not speak of may differ. -/
theorem Effect.congr {s s' t t' : State} (h : Effect s t) (hs : s'.cfg = s.cfg ∧ s'.chans = s.chans ∧
    s'.endstop = s.endstop ∧ s'.polarity = s.polarity ∧ s'.fatal = s.fatal ∧ s'.reports = s.reports ∧ s'.now = s.now ∧
    s'.passAt = s.passAt ∧ s'.reader = s.reader) (ht : t'.cfg = t.cfg ∧ t'.chans = t.chans ∧
    t'.endstop = t.endstop ∧ t'.polarity = t.polarity ∧ t'.fatal = t.fatal ∧ t'.reports = t.reports ∧ t'.now = t.now ∧
    t'.passAt = t.passAt ∧ t'.reader = t.reader) : Effect s' t' := by
  obtain ⟨a1, a2, a3, a4, a5, a6, a7, a8, a9⟩ := hs
  obtain ⟨b1, b2, b3, b4, b5, b6, b7, b8, b9⟩ := ht
  obtain ⟨c, ch', h1, h2⟩ := h.chans
  have hchan : ∀ d, s'.chan d = s.chan d := fun d => by simp [State.chan, a2]
  exact
    { cfg := by rw [b1, a1, h.cfg]
      now := by rw [a7, b7]; exact h.now
      chans := ⟨c, ch', by rw [a1, a2, a7, hchan]; exact h1, by rw [b2, a2, h2]⟩
      reports := h.reports.congr a6 b6 b2
      fatal := by rw [a5, b5]; exact h.fatal
      noMismatch := by rw [a5, b5]; exact h.noMismatch
      endstop := by rw [a2, a3, b3]; exact h.endstop
      polarity := by rw [a1, a4, b4]; exact h.polarity
      pass := by rw [a1, a8, b8]; exact h.pass
      reader := by rw [a9, b9]; exact h.reader }

/-- A sequencer operation on one channel. -/
theorem touch_onSeq {c : Nat} {s t : State} {f : Sequencer → Sequencer}
    (h : c < s.chans.length → SeqChange s.cfg (s.chan c).seq (f (s.chan c).seq)) (ht : t.chans = (s.onSeq c f).chans) :
    Touch c s t := by
  refine .on (f := fun ch => { ch with seq := f ch.seq }) (fun hc => ?_) ht
  exact .seq _ _ (h hc)

/-! ### The dispatcher -/

theorem dispatch_effect (s : State) (c : Nat) (m : Motion) : Effect s (s.dispatch c m s.now) := by
  unfold State.dispatch
  split
  · next h => exact .ofTouch rfl rfl (.on (fun _ => .consumed _ _ h) rfl) (.same rfl) rfl (.refl _ _) rfl rfl rfl
  · split
    · next h =>
      have h1 : Touch c s (s.onChan c (changeDirection s.cfg s.now (readBit s.polarity c) m.quality)) :=
        .on (fun _ => .changed _ _ _ h) rfl
      have h2 : Touch c ((s.onChan c (changeDirection s.cfg s.now (readBit s.polarity c) m.quality)).emitPosition c)
          (((s.onChan c (changeDirection s.cfg s.now (readBit s.polarity c) m.quality)).emitPosition c).onChan c
            (consumeMotion s.cfg s.now m)) :=
        .on (fun hc => .consumed _ _ (by
          rw [emitPosition_chan, onChan_chan_same _ (by simpa using hc)]; rfl)) rfl
      refine .ofTouch rfl rfl (.trans (t := (s.onChan c _).emitPosition c) ?_ h2 rfl rfl) ?_ rfl (.refl _ _) rfl rfl rfl
      · exact ⟨_, h1.choose_spec.1, h1.choose_spec.2⟩
      · exact .one rfl (by
          constructor <;> rw [onChan_chan_seq (consumeMotion_seq _ _ _)] <;> rfl)
    · exact .refl s

theorem fetchGroup_effect (s : State) (c : Nat) (hh : s.fatal = none) : Effect s (s.fetchGroup c) := by
  unfold State.fetchGroup
  split
  · next r S heq =>
    exact .ofTouch rfl rfl (.on (fun _ => .fetched _ _ _ _ heq) rfl) (.same rfl) rfl (.refl _ _) rfl rfl rfl
  · next e S heq =>
    have hseq : SeqChange s.cfg (s.chan c).seq S := by
      have := SeqChange.grouped (p := s.cfg) s.cfg.tickPulseBudget (s.chan c).seq
      rwa [heq] at this
    have hne : e ≠ .mergeMismatch := by
      rintro rfl
      have h1 : (getNextGrouped s.cfg s.cfg.tickPulseBudget (s.chan c).seq).1 = .error .mergeMismatch := by rw [heq]
      unfold getNextGrouped at h1
      split at h1
      · cases h1
      · split at h1
        · cases h1
        · next h2 =>
          simp only [Except.error.injEq] at h1
          subst h1
          exact groupLoop_no_mismatch _ _ _ _ _ (by rw [h2])
    exact
      { cfg := rfl
        now := Nat.le_refl _
        chans := ⟨c, touch_onSeq (f := fun _ => S) (fun _ => hseq) rfl⟩
        reports := .same rfl
        fatal := .inl hh
        noMismatch := by
          rw [raiseFatal_fatal _ _ (by exact hh)]
          intro h; exact absurd (Option.some.inj h) hne
        endstop := .refl _ _
        polarity := .refl _ _
        pass := by intro _ _; simp [passWf]
        reader := id }

theorem feed_effect (s : State) (c : Nat) (hh : s.fatal = none) : Effect s (s.feed c s.now) := by
  unfold State.feed
  split
  · exact dispatch_effect s c _
  · exact fetchGroup_effect s c hh

theorem feedCheck_effect (s : State) (c : Nat) (hh : s.fatal = none) : Effect s (s.feedCheck c s.now) := by
  unfold State.feedCheck
  simp only
  split
  · exact (feed_effect { s with freeAt := s.freeAt + 1 } c hh).congr ⟨rfl, rfl, rfl, rfl, rfl, rfl, rfl, rfl, rfl⟩
      ⟨rfl, rfl, rfl, rfl, rfl, rfl, rfl, rfl, rfl⟩
  · exact (Effect.refl s).congr ⟨rfl, rfl, rfl, rfl, rfl, rfl, rfl, rfl, rfl⟩ ⟨rfl, rfl, rfl, rfl, rfl, rfl, rfl, rfl, rfl⟩

theorem takeEndstop_effect (s : State) (c : Nat) : Effect s (s.takeEndstop c) :=
  .ofTouch rfl rfl (.on (fun _ => .endstop _) rfl) (.one rfl ⟨rfl, rfl⟩) rfl (.refl _ _) rfl rfl rfl

/-- Consuming the endstop flag before an effect that leaves the word alone. -/
theorem consumeFlag_effect {s t : State} (c : Nat) (h : Effect (s.consumeFlag c) t)
    (hend : t.endstop = (s.consumeFlag c).endstop) : Effect s t where
  cfg := h.cfg
  now := h.now
  chans := h.chans
  reports := h.reports
  fatal := h.fatal
  noMismatch := h.noMismatch
  endstop := ⟨c, false, by simp, hend⟩
  polarity := h.polarity
  pass := h.pass
  reader := h.reader

theorem dispatch_endstop (s : State) (c : Nat) (m : Motion) (t : Nat) : (s.dispatch c m t).endstop = s.endstop := by
  unfold State.dispatch; split
  · rfl
  · split <;> rfl

theorem feed_endstop (s : State) (c t : Nat) : (s.feed c t).endstop = s.endstop := by
  unfold State.feed; split
  · exact dispatch_endstop _ _ _ _
  · unfold State.fetchGroup; split <;> rfl

theorem feedCheck_endstop (s : State) (c t : Nat) : (s.feedCheck c t).endstop = s.endstop := by
  unfold State.feedCheck; simp only; split
  · exact feed_endstop _ _ _
  · rfl

theorem channelStep_effect (s : State) (c : Nat) : Effect s (s.channelStep c) := by
  unfold State.channelStep
  split
  · exact .refl s
  · next hh =>
    have hnone : s.fatal = none := by simpa [State.halted] using hh
    split
    · exact consumeFlag_effect c (takeEndstop_effect _ c) rfl
    · exact consumeFlag_effect c (feedCheck_effect (s.consumeFlag c) c hnone) (feedCheck_endstop _ _ _)

theorem passStep_effect (s : State) : Effect s s.passStep := by
  unfold State.passStep
  split
  · exact .refl s
  · next c hc =>
    have h := channelStep_effect s c
    exact
      { cfg := h.cfg
        now := h.now
        chans := h.chans
        reports := h.reports
        fatal := h.fatal
        noMismatch := h.noMismatch
        endstop := h.endstop
        polarity := h.polarity
        pass := by
          intro _ _ d hd
          simp only at hd
          split at hd
          · simp at hd
          · simp only [nextInPass] at hd
            split at hd
            · simp at hd; omega
            · simp at hd
        reader := h.reader }

/-! ### Meanings -/

theorem applyCommand_effect {s t : State} {channel : U8} {legal : Bool} {effect : Nat → State → State}
    (h : channel.toNat < s.cfg.nch → legal = true → Effect s (effect channel.toNat s))
    (ht : applyCommand channel legal effect s = .next t) : Effect s t := by
  unfold applyCommand at ht
  split at ht
  · cases ht; exact .refl s
  · split at ht
    · next hc => cases ht; exact h hc.1 hc.2
    · cases ht; exact .refl s

theorem onSeq_report_effect {s : State} {c : Nat} {f : Sequencer → Sequencer}
    (h : SeqChange s.cfg (s.chan c).seq (f (s.chan c).seq)) : Effect s ((s.onSeq c f).emitPosition c) :=
  .ofTouch rfl rfl (touch_onSeq (fun _ => h) rfl) (.one rfl ⟨rfl, rfl⟩) rfl (.refl _ _) rfl rfl rfl

theorem setupSequencer_change (p : Params) (S : Sequencer) {init : WState} (fc : U32) (ft : Option U32)
    (h : init.inRange = true) : SeqChange p S (setupSequencer p init fc ft) := by
  cases ft <;> exact .trans (.fresh S fc _) (.load _ init h)

theorem setupEffect_effect {s : State} {c : Nat} {init : WState} (fc : U32) (rev : Option Bool) (ft : Option U32)
    (sg : Option U8) (h : init.inRange = true) (hc : c < s.cfg.nch) :
    Effect s (setupEffect init fc rev ft sg c s) := by
  have hchange : SeqChange s.cfg (s.chan c).seq (setupSequencer s.cfg init fc ft) := setupSequencer_change _ _ fc ft h
  have hT : Touch c s (setupEffect init fc rev ft sg c s) := by
    cases sg <;> exact touch_onSeq (f := fun _ => setupSequencer s.cfg init fc ft) (fun _ => hchange) rfl
  exact
    { cfg := by cases sg <;> rfl
      now := by cases sg <;> exact Nat.le_refl _
      chans := ⟨c, hT⟩
      reports := by cases sg <;> exact .one rfl ⟨rfl, rfl⟩
      fatal := .inr (by cases sg <;> rfl)
      noMismatch := by cases sg <;> exact id
      endstop := by cases sg <;> exact .refl _ _
      polarity := ⟨c, reverseBit rev, fun _ => hc, by cases sg <;> rfl⟩
      pass := by cases sg <;> exact fun _ h => h
      reader := by cases sg <;> exact id }

theorem tilt_range_of_ok {t : U8} (h : tiltOk t = true) : -90 ≤ tiltOf t ∧ tiltOf t ≤ 90 := by
  simpa [tiltOk, tiltOf] using h

theorem position_range_of_ok {p : U8} (h : positionOk p = true) : positionOf p ≤ 100 := by
  simpa [positionOk, positionOf] using h

theorem setEffect_change {p : Params} (S : Sequencer) {pos tilt : Option U8}
    (h : (optOk positionOk pos && optOk tiltOk tilt) = true) :
    SeqChange p S (setTiltIf p tilt (setPositionIf p pos S)) := by
  simp only [Bool.and_eq_true] at h
  have h1 : SeqChange p S (setPositionIf p pos S) := by
    cases pos with
    | none => exact .refl S
    | some x => exact .position S _ (position_range_of_ok h.1)
  refine .trans h1 ?_
  cases tilt with
  | none => exact .refl _
  | some x => exact .tilt _ _ (tilt_range_of_ok h.2)

theorem homeSequencer_change (p : Params) (S : Sequencer) : SeqChange p S (homeSequencer p S) := by
  unfold homeSequencer
  split
  · exact .homeOpened S
  · exact .homeClosed S

theorem ifRange_next {ok : Bool} {run : Outcome State Fault Refusal} {t : State} (h : ifRange ok run = .next t) :
    ok = true ∧ run = .next t := by
  unfold ifRange at h
  split at h
  · next hok => exact ⟨hok, h⟩
  · cases h

theorem seqRequest_effect {s t : State} {f : Params → Sequencer → Sequencer} (h : ∀ S, SeqChange s.cfg S (f s.cfg S))
    (ht : seqRequest f s = .next t) : Effect s t := by
  unfold seqRequest at ht
  split at ht
  · cases ht; exact .refl s
  · split at ht
    · cases ht
    · cases ht
      exact .ofTouch rfl rfl (touch_onSeq (f := f s.cfg) (fun _ => h _) rfl) (.same rfl) rfl (.refl _ _) rfl rfl rfl

theorem seqRead_effect {s t : State} {f : Sequencer → WState} (ht : seqRead f s = .next t) : Effect s t := by
  unfold seqRead at ht
  split at ht
  · cases ht; exact .refl s
  · split at ht
    · cases ht
    · cases ht
      exact .ofTouch (c := 0) rfl rfl (.same rfl) (.same rfl) rfl (.refl _ _) rfl rfl rfl

theorem seqFetch_effect {s t : State} {f : Params → Sequencer → Except FatalCode (Option Motion) × Sequencer}
    (h : ∀ S, SeqChange s.cfg S (f s.cfg S).2) (hm : ∀ S, (f s.cfg S).1 ≠ .error .mergeMismatch)
    (ht : seqFetch f s = .next t) : Effect s t := by
  unfold seqFetch at ht
  split at ht
  · cases ht; exact .refl s
  · next hh =>
    split at ht
    · cases ht
    · next ch hch =>
      have hc : s.chan s.sel = ch := chan_of_some hch
      subst hc
      split at ht
      · next r S heq =>
        cases ht
        have h1 := h (s.chan s.sel).seq
        rw [heq] at h1
        exact .ofTouch rfl rfl (touch_onSeq (c := s.sel) (f := fun _ => S) (fun _ => h1) rfl) (.same rfl) rfl (.refl _ _) rfl rfl rfl
      · next e S heq =>
        cases ht
        have h1 := h (s.chan s.sel).seq
        have h2 := hm (s.chan s.sel).seq
        rw [heq] at h1 h2
        have hnone : s.fatal = none := by simpa [State.halted] using hh
        exact
          { cfg := rfl
            now := Nat.le_refl _
            chans := ⟨s.sel, touch_onSeq (f := fun _ => S) (fun _ => h1) rfl⟩
            reports := .same rfl
            fatal := .inl hnone
            noMismatch := by
              rw [raiseFatal_fatal _ _ (by exact hnone)]
              intro h3; exact absurd (congrArg Except.error (Option.some.inj h3)) h2
            endstop := .refl _ _
            polarity := .refl _ _
            pass := by intro _ _; simp [passWf]
            reader := id }

theorem getNextGrouped_no_mismatch (p : Params) (th : U32) (S : Sequencer) :
    (getNextGrouped p th S).1 ≠ .error .mergeMismatch := by
  intro h
  unfold getNextGrouped at h
  split at h
  · cases h
  · split at h
    · cases h
    · next h2 =>
      simp only [Except.error.injEq] at h
      subst h
      exact groupLoop_no_mismatch _ _ _ _ _ (by rw [h2])

theorem runMotion_effect (s : State) (c : Nat) {m : Motion} (hm : m.completed.inRange = true) :
    Effect s (s.runMotion c m) := by
  unfold State.runMotion
  split
  · split
    · exact dispatch_effect s c m
    · exact .refl s
  · have h1 : Touch c s (s.onChan c (fetchInto m)) := .on (fun _ => .buffered _ m hm) rfl
    have h2 := dispatch_effect (s.onChan c (fetchInto m)) c m
    have h3 : Touch c (s.onChan c (fetchInto m)) ((s.onChan c (fetchInto m)).dispatch c m s.now) := by
      unfold State.dispatch
      split
      · next h => exact .on (fun _ => .consumed _ _ h) rfl
      · split
        · next h =>
          refine .trans (t := ((s.onChan c (fetchInto m)).onChan c (changeDirection s.cfg s.now
            (readBit s.polarity c) m.quality)).emitPosition c) (.on (fun _ => .changed _ _ _ h) rfl) ?_ rfl rfl
          exact .on (fun hc => .consumed _ _ (by
            rw [emitPosition_chan, onChan_chan_same _ (by simpa using hc)]; rfl)) rfl
        · exact .same rfl
    exact
      { cfg := h2.cfg
        now := h2.now
        chans := ⟨c, .trans h1 h3 rfl rfl⟩
        reports := h2.reports
        fatal := h2.fatal
        noMismatch := h2.noMismatch
        endstop := by
          have := dispatch_endstop (s.onChan c (fetchInto m)) c m s.now
          have h5 : ((s.onChan c (fetchInto m)).dispatch c m s.now).endstop = s.endstop := this
          rw [h5]; exact .refl _ _
        polarity := h2.polarity
        pass := h2.pass
        reader := h2.reader }

theorem motionRequest_effect {s t : State} {m : Motion} (hm : m.completed.inRange = true)
    (ht : motionRequest m s = .next t) : Effect s t := by
  unfold motionRequest at ht
  split at ht
  · cases ht; exact .refl s
  · split at ht
    · cases ht
    · cases ht; exact runMotion_effect s _ hm

theorem emitPosition_effect (s : State) (c : Nat) : Effect s (s.emitPosition c) :=
  .ofTouch (c := 0) rfl rfl (.same rfl) (.one rfl ⟨rfl, rfl⟩) rfl (.refl _ _) rfl rfl rfl

theorem stallGuardEffect_effect (s : State) (c : Nat) : Effect s (stallGuardEffect c s) :=
  .ofTouch (c := 0) rfl rfl (.same rfl) (.one (r := .stallGuardResult c (Config.stallGuard s.freeAt)) rfl trivial) rfl
    (.refl _ _) rfl rfl rfl

theorem encodeReportWord_effect {s t : State} {r : Report} (ht : encodeReportWord r s = .next t) : Effect s t := by
  cases ht
  exact .ofTouch (c := 0) rfl rfl (.same rfl) (.same rfl) rfl (.refl _ _) rfl rfl rfl

/-- What an instruction can do: only `RESET` resets. -/
theorem exec_effect {i : Instr} {s t : State} (h : exec i s = .next t) :
    (i = .reset ∧ t = s.deviceReset) ∨ Effect s t := by
  cases i with
  | reset => simp only [exec, execReset, Outcome.next.injEq] at h; exact .inl ⟨rfl, h.symm⟩
  | home c => exact .inr (applyCommand_effect (fun _ _ => onSeq_report_effect (homeSequencer_change _ _)) h)
  | setup c p t fc r ft sg =>
    exact .inr (applyCommand_effect (fun hc hl => setupEffect_effect fc r ft sg (by rw [stateOf_inRange]; exact hl) hc) h)
  | set c p t => exact .inr (applyCommand_effect (fun _ hl => onSeq_report_effect (setEffect_change _ hl)) h)
  | get c =>
    exact .inr (applyCommand_effect (fun _ _ => emitPosition_effect s _) h)
  | getSg c =>
    exact .inr (applyCommand_effect (fun _ _ => stallGuardEffect_effect s _) h)
  | new fc ft => exact .inr (seqRequest_effect (f := fun p _ => newSequencer p fc ft) (fun S => .fresh S fc ft) h)
  | newRoller fc => exact .inr (seqRequest_effect (f := fun p _ => newSequencer p fc none) (fun S => .fresh S fc none) h)
  | newVenetian fc ft => exact .inr (seqRequest_effect (f := fun p _ => newSequencer p fc (some ft)) (fun S => .fresh S fc (some ft)) h)
  | loadState p t =>
    obtain ⟨hok, h⟩ := ifRange_next h
    exact .inr (seqRequest_effect (fun S => .load S _ (by rw [stateOf_inRange]; exact hok)) h)
  | setPosition p =>
    obtain ⟨hok, h⟩ := ifRange_next h
    exact .inr (seqRequest_effect (fun S => .position S _ (position_range_of_ok hok)) h)
  | setTilt t =>
    obtain ⟨hok, h⟩ := ifRange_next h
    exact .inr (seqRequest_effect (fun S => .tilt S _ (tilt_range_of_ok hok)) h)
  | addTilt a b =>
    obtain ⟨hok, h⟩ := ifRange_next h
    simp only [Bool.and_eq_true] at hok
    exact .inr (seqRequest_effect (fun S => .sweep S _ _ (tilt_range_of_ok hok.1) (tilt_range_of_ok hok.2)) h)
  | setState p t =>
    obtain ⟨hok, h⟩ := ifRange_next h
    exact .inr (seqRequest_effect (fun S => .state S _ (by rw [stateOf_inRange]; exact hok)) h)
  | getNextInstruction => exact .inr (seqFetch_effect (f := fetchOne) (fun S => .fetch S) (fun S => by simp [fetchOne]) h)
  | getNextInstructionGrouped th =>
    exact .inr (seqFetch_effect (f := fun p => getNextGrouped p th) (fun S => .grouped th S)
      (fun S => getNextGrouped_no_mismatch _ th S) h)
  | trigEndstop => exact .inr (seqRequest_effect (fun S => .endstop S) h)
  | homeFullyOpened => exact .inr (seqRequest_effect (fun S => .homeOpened S) h)
  | homeFullyClosed => exact .inr (seqRequest_effect (fun S => .homeClosed S) h)
  | getCurrentState => exact .inr (seqRead_effect h)
  | getDesiredState => exact .inr (seqRead_effect h)
  | extend q p t =>
    obtain ⟨hok, h⟩ := ifRange_next h
    exact .inr (motionRequest_effect (by rw [motionOf, stateOf_inRange]; exact hok) h)
  | retract q p t =>
    obtain ⟨hok, h⟩ := ifRange_next h
    exact .inr (motionRequest_effect (by rw [motionOf, stateOf_inRange]; exact hok) h)
  | hold q p t =>
    obtain ⟨hok, h⟩ := ifRange_next h
    exact .inr (motionRequest_effect (by rw [motionOf, stateOf_inRange]; exact hok) h)
  | ready => exact .inr (encodeReportWord_effect h)
  | position c a b d e =>
    obtain ⟨hok, h⟩ := ifRange_next h
    exact .inr (encodeReportWord_effect h)
  | stallGuardResult c v => exact .inr (encodeReportWord_effect h)

end Sys2Proof.Machine
end

