-- ==== Sys2Proof/Laws/Transition.lean ====
section
/-! SUPPORT. What one step of the machine can do: a device reset, or an `Effect`. -/

namespace Sys2Proof.Machine

open Host

/-- The parts of a state a step's taking of its event leaves alone: all but the model's bookkeeping and the port select. -/
def SameBlock (s s' : State) : Prop :=
  s'.cfg = s.cfg ∧ s'.chans = s.chans ∧ s'.endstop = s.endstop ∧ s'.polarity = s.polarity ∧ s'.fatal = s.fatal ∧
    s'.reports = s.reports ∧ s'.now = s.now ∧ s'.passAt = s.passAt ∧ s'.freeAt = s.freeAt

theorem SameBlock.refl (s : State) : SameBlock s s := ⟨rfl, rfl, rfl, rfl, rfl, rfl, rfl, rfl, rfl⟩

/-- An outcome is a device reset of the block as it stood, or an effect on it. -/
def ResetOrEffect (s t : State) : Prop := (∃ s', SameBlock s s' ∧ t = s'.deviceReset) ∨ Effect s t

theorem exec_resetOrEffect {i : Instr} {s t : State} (h : exec i s = .next t) : ResetOrEffect s t := by
  rcases exec_effect h with ⟨-, h⟩ | h
  · exact .inl ⟨s, .refl s, h⟩
  · exact .inr h

/-- From a state that differs in bookkeeping only. -/
theorem ResetOrEffect.ofSame {s s' t : State} (h : ResetOrEffect s' t) (hs : SameBlock s s')
    (hr : readerWf s.reader = true → readerWf s'.reader = true) : ResetOrEffect s t := by
  obtain ⟨a1, a2, a3, a4, a5, a6, a7, a8, a9⟩ := hs
  rcases h with ⟨u, hu, rfl⟩ | h
  · obtain ⟨b1, b2, b3, b4, b5, b6, b7, b8, b9⟩ := hu
    exact .inl ⟨u, ⟨by rw [b1, a1], by rw [b2, a2], by rw [b3, a3], by rw [b4, a4], by rw [b5, a5], by rw [b6, a6],
      by rw [b7, a7], by rw [b8, a8], by rw [b9, a9]⟩, rfl⟩
  · right
    have hchan : ∀ d, s'.chan d = s.chan d := fun d => by simp [State.chan, a2]
    obtain ⟨c, ch', h1, h2⟩ := h.chans
    exact
      { cfg := by rw [h.cfg, a1]
        now := by rw [← a7]; exact h.now
        chans := ⟨c, ch', by rw [← a1, ← a2, ← a7, ← hchan]; exact h1, by rw [← a2]; exact h2⟩
        reports := h.reports.congr a6.symm rfl rfl
        fatal := by rw [← a5]; exact h.fatal
        noMismatch := by rw [← a5]; exact h.noMismatch
        endstop := by rw [← a2, ← a3]; exact h.endstop
        polarity := by rw [← a1, ← a4]; exact h.polarity
        pass := by rw [← a1, ← a8]; exact h.pass
        reader := fun hw => h.reader (hr hw) }

theorem ResetOrEffect.refl (s : State) : ResetOrEffect s s := .inr (.refl s)

theorem applyWord_resetOrEffect {w : BitVec 103} {s t : State} (h : applyWord w s = .next t) : ResetOrEffect s t := by
  unfold applyWord at h
  split at h
  · exact exec_resetOrEffect h
  · cases h; exact .refl s

theorem applyPayload_resetOrEffect {payload : List U8} {s t : State} (h : applyPayload payload s = .next t) :
    ResetOrEffect s t := by
  unfold applyPayload at h
  split at h
  · cases h; exact .refl s
  · split at h
    · cases h; exact .refl s
    · exact applyWord_resetOrEffect h

theorem readByte_resetOrEffect {b : U8} {s t : State} (h : readByte b s = .next t) : ResetOrEffect s t := by
  unfold readByte at h
  split at h
  · split at h
    · exact exec_resetOrEffect h
    · next hr hb =>
      cases h
      refine .inr ⟨rfl, Nat.le_refl _, ⟨0, .same rfl⟩, .same rfl, .inr rfl, id, .refl _ _, .refl _ _,
        fun _ h => h, fun _ => ?_⟩
      have h1 : b.toNat ≠ 0 := fun h0 => hb (by apply BitVec.eq_of_toNat_eq; simpa using h0)
      have h2 := b.isLt
      simp only [readerWf, List.length_nil, Bool.and_eq_true, decide_eq_true_eq]
      omega
  · next remaining payload hr =>
    split at h
    · exact (applyPayload_resetOrEffect h).ofSame ⟨rfl, rfl, rfl, rfl, rfl, rfl, rfl, rfl, rfl⟩ (fun _ => rfl)
    · next hrem =>
      cases h
      refine .inr ⟨rfl, Nat.le_refl _, ⟨0, .same rfl⟩, .same rfl, .inr rfl, id, .refl _ _, .refl _ _,
        fun _ h => h, fun hw => ?_⟩
      rw [hr] at hw
      simp only [readerWf, Bool.and_eq_true, decide_eq_true_eq, List.length_append, List.length_singleton] at hw ⊢
      omega

theorem watcherStep_effect (s : State) (c : Nat) : Effect s (s.watcherStep c) := by
  unfold State.watcherStep
  split
  · exact .refl s
  · next ch hch =>
    have hc : s.chan c = ch := chan_of_some hch
    have hlt : c < s.chans.length := by
      unfold State.chan? at hch
      exact (List.getElem?_eq_some_iff.1 hch).1
    subst hc
    split
    · exact .ofTouch (c := c) rfl rfl ⟨_, fun _ => .watcher _ .waitRelease, rfl⟩ (.same rfl) rfl
        ⟨c, true, fun _ => hlt, rfl⟩ rfl rfl rfl
    · exact .ofTouch (c := c) rfl rfl ⟨_, fun _ => .watcher _ .armed, rfl⟩ (.same rfl) rfl (.refl _ _) rfl rfl rfl
    · exact .refl s

theorem startPass_effect (s : State) : Effect s s.startPass := by
  unfold State.startPass
  split
  · exact .refl s
  · refine ⟨rfl, Nat.le_refl _, ⟨0, .same rfl⟩, .same rfl, .inr rfl, id, .refl _ _, .refl _ _, ?_, id⟩
    intro hw _ c hc
    simp only [Option.toList_some, List.mem_singleton] at hc
    simp only [Params.wf, Bool.and_eq_true, decide_eq_true_eq] at hw
    omega

theorem encodeNext_effect (s : State) : Effect s s.encodeNext := by
  unfold State.encodeNext
  split
  · exact .refl s
  · exact .ofTouch (c := 0) rfl rfl (.same rfl) (.same rfl) rfl (.refl _ _) rfl rfl rfl

theorem envStep_resetOrEffect {e : EnvEvent} {s t : State} (h : envStep e s = .next t) : ResetOrEffect s t := by
  cases e with
  | command w => exact applyWord_resetOrEffect h
  | byte b => exact readByte_resetOrEffect h
  | transportError => cases h; exact .refl s
  | framingError =>
    cases h
    exact .inr ⟨rfl, Nat.le_refl _, ⟨0, .same rfl⟩, .same rfl, .inr rfl, id, .refl _ _, .refl _ _,
      fun _ h => h, fun _ => rfl⟩
  | tick => cases h; exact .inr (startPass_effect s)
  | proceed => cases h; exact .inr (passStep_effect s)
  | watch c =>
    cases h
    unfold State.watch
    split
    · exact .refl s
    · exact .inr (watcherStep_effect s c)
  | line c level =>
    cases h
    exact .inr (.ofTouch rfl rfl (.on (fun _ => .line _ level) rfl) (.same rfl) rfl (.refl _ _) rfl rfl rfl)
  | drain c n =>
    cases h
    exact .inr (.ofTouch rfl rfl (.on (fun _ => .drained _ n) rfl) (.same rfl) rfl (.refl _ _) rfl rfl rfl)
  | advance n =>
    cases h
    exact .inr ⟨rfl, Nat.le_add_right _ _, ⟨0, .same rfl⟩, .same rfl, .inr rfl, id, .refl _ _, .refl _ _,
      fun _ h => h, id⟩
  | encode => cases h; exact .inr (encodeNext_effect s)
  | powerUp => cases h; exact .inl ⟨s, .refl s, rfl⟩

theorem runWord_resetOrEffect {w : PortWord} {s t : State} (h : runWord w s = .next t) : ResetOrEffect s t := by
  unfold runWord at h
  split at h
  · exact exec_resetOrEffect h
  · cases h

theorem react_resetOrEffect {e : Event} {s t : State} (h : react e s = .next t) : ResetOrEffect s t := by
  cases e with
  | env e => exact envStep_resetOrEffect h
  | request c w => exact (runWord_resetOrEffect h).ofSame ⟨rfl, rfl, rfl, rfl, rfl, rfl, rfl, rfl, rfl⟩ id
  | motion c w => exact (runWord_resetOrEffect h).ofSame ⟨rfl, rfl, rfl, rfl, rfl, rfl, rfl, rfl, rfl⟩ id
  | report w => exact runWord_resetOrEffect h

theorem takeEvent_sameBlock (s : State) : SameBlock s s.takeEvent ∧ s.takeEvent.reader = s.reader := by
  unfold State.takeEvent
  split <;> exact ⟨⟨rfl, rfl, rfl, rfl, rfl, rfl, rfl, rfl, rfl⟩, rfl⟩

/-- What one step can do. -/
theorem step_resetOrEffect {s t : State} (h : step s = .next t) : ResetOrEffect s t := by
  unfold step transition at h
  split at h
  · cases h; exact .inr (passStep_effect s)
  · obtain ⟨h1, h2⟩ := takeEvent_sameBlock s
    exact (react_resetOrEffect h).ofSame h1 (by rw [h2]; exact id)

end Sys2Proof.Machine
end

