-- ==== Sys2Proof/Tests/Slice0.lean ====
section
/-! SUPPORT. The model's own tests: the smoke test of WellFormed, words written out from the spec's encodings, one-step tests
taken from the vectors of `95_test_vectors.md`, and for every obligation with hypotheses a state that meets them. -/

namespace Sys2Proof.Tests

open Host Sys2Proof.Machine

/-! ### Helpers -/

/-- The next state of an outcome. -/
def nextOf : Outcome State Fault Refusal → Option State
  | .next s => some s
  | _ => none

/-- Parameter set V of `95_test_vectors.md`. -/
def setV : Params := Config.build

/-- A channel that never moved, on set V. -/
def idle : Channel := Channel.atReset setV false false

/-- A machine of two channels on set V whose channel 0 is `ch`. -/
def withZero (ch : Channel) : State := { State.reset with chans := [ch, idle] }

/-- A roller of `fcq = 100000` with the given registers and queue. -/
def roller (cur des : WState) (queue : List Motion) : Sequencer :=
  { fcq := 100000#32, ftq := none, cur := cur, des := des, queue := queue }

/-- A venetian of `fcq = 100000` with the given registers and queue. -/
def venetian (ftq : U32) (cur des : WState) (queue : List Motion) : Sequencer :=
  { fcq := 100000#32, ftq := some ftq, cur := cur, des := des, queue := queue }

def motion (d : Direction) (q : U32) (position : Nat) (tilt : Int) : Motion :=
  { quality := d, quantity := q, completed := { position := position, tilt := tilt } }

/-- The channel of vector X14, with the dispatcher record given. -/
def row14 (buf : Option Motion) (latched : Direction) (resumeAfter pending : Nat) : Channel :=
  { idle with
    seq := roller ⟨3, 0⟩ ⟨6, 0⟩ [motion .retract 1000 4 0, motion .retract 1000 5 0, motion .retract 1000 6 0]
    disp := { buf := buf, resumeAfter := resumeAfter, lastReversal := 500000, latched := latched }
    en := true, dir := true, pending := pending }

/-- X14's channel on channel 0, at a time and with the endstop flag given. -/
def at14 (ch : Channel) (t : Nat) (flag : Bool) : State :=
  { withZero ch with now := t, endstop := [flag, false, false, false, false, false, false, false] }

/-- One step on a machine whose channel 0 is `ch`, at time `t`, with an event placed. -/
def stepWith (ch : Channel) (t : Nat) (e : Event) : Option State :=
  nextOf (step { withZero ch with now := t, inputs := [e] })

/-! ### WellFormed refuses -/

theorem test_wf_loadState : (Instr.loadState 101 0).wellFormed = false ∧ (Instr.loadState 0 91).wellFormed = false := by decide
theorem test_wf_setPosition : (Instr.setPosition 101).wellFormed = false := by decide
theorem test_wf_setTilt : (Instr.setTilt (-91)).wellFormed = false := by decide
theorem test_wf_addTilt : (Instr.addTilt 91 0).wellFormed = false ∧ (Instr.addTilt 0 (-91)).wellFormed = false := by decide
theorem test_wf_setState : (Instr.setState 101 0).wellFormed = false ∧ (Instr.setState 0 (-128)).wellFormed = false := by decide
theorem test_wf_extend : (Instr.extend 1 255 0).wellFormed = false ∧ (Instr.extend 1 0 91).wellFormed = false := by decide
theorem test_wf_retract : (Instr.retract 1 101 0).wellFormed = false ∧ (Instr.retract 1 0 (-91)).wellFormed = false := by decide
theorem test_wf_hold : (Instr.hold 1 101 0).wellFormed = false ∧ (Instr.hold 1 0 127).wellFormed = false := by decide
theorem test_wf_position :
    (Instr.position 0 101 0 0 0).wellFormed = false ∧ (Instr.position 0 0 91 0 0).wellFormed = false ∧
      (Instr.position 0 0 0 101 0).wellFormed = false ∧ (Instr.position 0 0 0 0 (-91)).wellFormed = false := by decide
theorem test_wf_boundary :
    (Instr.loadState 100 90).wellFormed = true ∧ (Instr.setState 0 (-90)).wellFormed = true ∧
      (Instr.position 255 100 90 0 (-90)).wellFormed = true := by decide

/-! ### Decoding: words written out from R96 to R101 (those of X10 first) -/

theorem test_decode_reset : decode (.cw 0x0#103) = .ok .reset := by decide
theorem test_decode_home : decode (.cw 0x9#103) = .ok (.home 1) := by decide
theorem test_decode_setup : decode (.cw 0xC350001900A#103) = .ok (.setup 1 50 0 100000 none none none) := by decide
theorem test_decode_setup_options :
    decode (.cw 0x2D38000C3502D00002#103) = .ok (.setup 0 0 90 100000 (some true) (some 180) none) := by decide
theorem test_decode_set : decode (.cw 0x9803#103) = .ok (.set 0 (some 9) none) := by decide
theorem test_decode_get : decode (.cw 0x4#103) = .ok (.get 0) := by decide
/-- `op = 101`, channel 1 at bit 3. -/
theorem test_decode_getSg : decode (.cw 0xD#103) = .ok (.getSg 1) := by decide
/-- `full_cycle` 100000 at bit 4; then with bit 36 set and `full_tilt` 180 at bit 37. -/
theorem test_decode_new :
    decode (.sop 0x186A00#69) = .ok (.new 100000 none) ∧ decode (.sop 0x169000186A00#69) = .ok (.new 100000 (some 180)) := by
  decide
theorem test_decode_newRoller : decode (.sop 0x186A01#69) = .ok (.newRoller 100000) := by decide
theorem test_decode_newVenetian : decode (.sop 0x169000186A02#69) = .ok (.newVenetian 100000 180) := by decide
/-- Position 50 at bit 4, tilt -10 = F6 at bit 12. -/
theorem test_decode_loadState : decode (.sop 0xF6323#69) = .ok (.loadState 50 (-10)) := by decide
theorem test_decode_setPosition : decode (.sop 0x324#69) = .ok (.setPosition 50) := by decide
theorem test_decode_setTilt : decode (.sop 0xFD5#69) = .ok (.setTilt (-3)) := by decide
theorem test_decode_addTilt : decode (.sop 0xFD006#69) = .ok (.addTilt 0 (-3)) := by decide
theorem test_decode_setState : decode (.sop 0x50B7#69) = .ok (.setState 11 5) := by decide
theorem test_decode_getNextInstruction : decode (.sop 0x8#69) = .ok .getNextInstruction := by decide
theorem test_decode_getNextInstructionGrouped : decode (.sop 0x9C49#69) = .ok (.getNextInstructionGrouped 2500) := by decide
theorem test_decode_trigEndstop : decode (.sop 0xA#69) = .ok .trigEndstop := by decide
theorem test_decode_homeFullyOpened : decode (.sop 0xB#69) = .ok .homeFullyOpened := by decide
theorem test_decode_homeFullyClosed : decode (.sop 0xC#69) = .ok .homeFullyClosed := by decide
theorem test_decode_getCurrentState : decode (.sop 0xD#69) = .ok .getCurrentState := by decide
theorem test_decode_getDesiredState : decode (.sop 0xE#69) = .ok .getDesiredState := by decide
theorem test_decode_extend : decode (.miw 0x5A63000003E8#50) = .ok (.extend 1000 99 90) := by decide
theorem test_decode_retract : decode (.miw 0x1A60000000001#50) = .ok (.retract 1 0 (-90)) := by decide
theorem test_decode_hold : decode (.miw 0x20032000001F4#50) = .ok (.hold 500 50 0) := by decide
theorem test_decode_ready : decode (.rw 0x0#42) = .ok .ready := by decide
theorem test_decode_position : decode (.rw 0x190019005#42) = .ok (.position 1 100 0 100 0) := by decide
/-- `kind = 10`, channel 1 at bit 2, `sg_result` 200 at bit 10. -/
theorem test_decode_stallGuardResult : decode (.rw 0x32006#42) = .ok (.stallGuardResult 1 200) := by decide

/-- X17, R104, R96, R101. Each kind of illegal word, by its name. -/
theorem test_decode_refuses :
    decode (.cw 0x7#103) = .error .reservedOp ∧ decode (.cw 0x809#103) = .error .mustBeZero ∧
      decode (.cw 0x6003#103) = .error .valueWithoutPresence ∧ decode (.sop 0xF#69) = .error .reservedSop ∧
      decode (.sop 0x2#69) = .error .presenceRequired ∧ decode (.sop 0x654#69) = .error .operandRange ∧
      decode (.miw 0x3000000000000#50) = .error .reservedQuality ∧ decode (.rw 0x3#42) = .error .reservedKind := by decide

/-- A row of bytes of the wrong length, or with padding that is not zero, is no word. -/
theorem test_decode_bytes :
    decodeBytes .miw [0xE8, 0x03, 0, 0, 1, 0, 1] = .ok (.retract 1000 1 0) ∧
      decodeBytes .miw [0xE8, 0x03, 0, 0, 1, 0] = .error .notAWord ∧
      decodeBytes .miw [0xE8, 0x03, 0, 0, 1, 0, 5] = .error .notAWord := by decide

/-- The widths of the four formats name their ports. -/
theorem test_table_words :
    decodeTableWord 103 0x9 = some (.home 1) ∧ decodeTableWord 104 0x9 = some (.home 1) ∧
      decodeTableWord 69 0x324 = some (.setPosition 50) ∧ decodeTableWord 50 0x10032000003E8 = some (.retract 1000 50 0) ∧
      decodeTableWord 42 0x190019005 = some (.position 1 100 0 100 0) ∧ decodeTableWord 104 6 = none := by decide

/-- X10. The report words of programs P1 to P3. -/
theorem test_report_words :
    reportWord .ready = 0x0#42 ∧ reportWord (.position 0 ⟨0, 90⟩ ⟨6, 90⟩) = 0x16819680001#42 ∧
      reportWord (.position 1 ⟨100, 0⟩ ⟨100, 0⟩) = 0x190019005#42 ∧
      reportWord (.position 0 ⟨1, -90⟩ ⟨1, 90⟩) = 0x16806980401#42 := by decide

/-! ### Arithmetic -/

/-- X13. -/
theorem test_steps :
    positionStep (roller ⟨0, 0⟩ ⟨0, 0⟩ []) = 1000#32 ∧ (100099#32 / 100#32 = 1000#32) ∧ tiltStep 359#32 = 1#32 ∧
      tiltStep 360#32 = 2#32 ∧ tiltStep 179#32 = 0#32 := by decide
/-- X15. -/
theorem test_hold_time :
    holdTime setV 500#32 = 50000 ∧ holdTime setV 4294967295#32 = 429496729500 ∧
      holdTime { setV with pulseFrequency := 3000 } 500#32 = 166666 ∧ holdTime { setV with timeHz := 1000 } 9#32 = 0 := by
  decide
/-- S9. -/
theorem test_order :
    stateLt ⟨0, 90⟩ ⟨100, 0⟩ = true ∧ stateLt ⟨50, 30⟩ ⟨50, -10⟩ = true ∧ stateLt ⟨50, -30⟩ ⟨50, 10⟩ = false ∧
      stateLt ⟨50, 0⟩ ⟨50, 0⟩ = false := by decide
/-- S10. -/
theorem test_merge :
    (match merge (motion .retract 1000 1 0) (motion .retract 1000 2 0) with
      | .ok m => some m
      | .error _ => none) = some (motion .retract 2000 2 0) := by decide

/-! ### One step of each instruction

Expected values are those of the vectors named, or worked by hand from the rules named. -/

/-- The machine of X12: halted, channel 0 moving. -/
def halted : State :=
  { withZero (row14 none .retract 0 3000) with fatal := some .mergeOverflow, polarity := [true, false] }

/-- X12. The zero-length frame. -/
theorem test_reset :
    (nextOf (step { halted with inputs := [.env (.byte 0)] })).map
        (fun t => (t.chans.map Channel.seq, t.chans.map Channel.disp, t.polarity))
      = some ([idle.seq, idle.seq], [idle.disp, idle.disp], List.replicate 8 false) ∧
    (nextOf (step { halted with inputs := [.env (.byte 0)] })).map (fun t => (t.fatal, t.reports)) = some (none, [.ready]) := by
  decide
/-- R97, U24. `RESET` ignores every other bit. -/
theorem test_reset_ignores :
    (stepWith (row14 none .retract 0 3000) 7 (.env (.command 0x7FFFFFFFFFFFFFFFFFFFFFFFF8#103))).map
      (fun t => (t.now, t.reports)) = some (0, [.ready]) := by decide
set_option maxRecDepth 20000 in
/-- P3. `home {channel: 1}` on a roller at `(50, 0)`. -/
theorem test_home :
    (nextOf (step { State.reset with
      chans := [idle, { idle with seq := roller ⟨50, 0⟩ ⟨50, 0⟩ [] }], inputs := [.env (.command 0x9#103)] })).map
        (fun t => ((t.chan 1).seq.queue.length, (t.chan 1).seq.queue.head?, t.reports.map reportWord))
      = some (100, some (motion .retract 1000 1 0), [0x0#42, 0x16991680005#42]) := by decide
/-- P4. `setup` with `reverse` and `full_tilt_steps`. -/
theorem test_setup :
    (stepWith (row14 none .retract 0 3000) 7 (.env (.command 0x2D38000C3502D00002#103))).map
      (fun t => ((t.chan 0).seq, t.polarity, t.reports.map reportWord))
      = some (venetian 180 ⟨0, 90⟩ ⟨0, 90⟩ [], [true, false, false, false, false, false, false, false],
          [0x0#42, 0x16801680001#42]) := by decide
/-- X17. `setup` with position 200 (C8 at bit 11): refused, nothing changes. -/
theorem test_setup_refused :
    stepWith idle 7 (.env (.command 0x1F400064002#103)) = some { withZero idle with now := 7 } := by decide
/-- X6, R239. `set {channel: 0, position: 9}` in the middle of a move. -/
theorem test_set :
    (stepWith { idle with seq := { roller ⟨11, 0⟩ ⟨12, 0⟩ [motion .retract 10 12 0] with fcq := 1000#32 } } 7
      (.env (.command 0x9803#103))).map (fun t => ((t.chan 0).seq.queue, (t.chan 0).seq.des, t.reports.length))
      = some ([motion .hold 500 11 0, motion .extend 10 10 0, motion .extend 10 9 0], ⟨9, 0⟩, 2) := by decide
/-- X17. A legal position beside an illegal tilt (-128): the whole command is refused. -/
theorem test_set_refused : nextOf (exec (.set 0 (some 50) (some (-128))) (withZero idle)) = some (withZero idle) := by decide
/-- P1. The report of `get` on a roller at `(3, 0)` bound for `(6, 90)`. -/
theorem test_get :
    (stepWith { idle with seq := roller ⟨3, 0⟩ ⟨6, 90⟩ [] } 7 (.env (.command 0x4#103))).map
      (fun t => t.reports.map reportWord) = some [0x0#42, 0x16818000C01#42] := by decide
/-- X17. `get {channel: 2}` with two channels. -/
theorem test_get_refused : nextOf (exec (.get 2) (withZero idle)) = some (withZero idle) := by decide
/-- R241. One report, of a value the test cannot know. -/
theorem test_getSg : (nextOf (exec (.getSg 1) (withZero idle))).map (fun t => t.reports.length) = some 2 := by decide
/-- X17. Without `STALL_FEATURE`. -/
theorem test_getSg_refused :
    (nextOf (exec (.getSg 1) { withZero idle with cfg := { setV with stallFeature := false } })).map
      (fun t => t.reports.length) = some 1 := by decide
/-- R120. The queue is emptied and the tilt count is as given. -/
theorem test_new :
    (stepWith (row14 none .retract 0 0) 7 (.request 0 0x169000186A00#69)).map (fun t => (t.chan 0).seq)
      = some (venetian 180 ⟨0, 0⟩ ⟨0, 0⟩ []) := by decide
/-- R121. -/
theorem test_newRoller :
    (stepWith { idle with seq := venetian 180 ⟨6, 5⟩ ⟨9, 9⟩ [motion .hold 1 6 5] } 7 (.request 0 0x186A01#69)).map
      (fun t => (t.chan 0).seq) = some (roller ⟨0, 0⟩ ⟨0, 0⟩ []) := by decide
/-- R122. -/
theorem test_newVenetian :
    (stepWith (row14 none .retract 0 0) 7 (.request 0 0x169000186A02#69)).map (fun t => (t.chan 0).seq)
      = some (venetian 180 ⟨0, 0⟩ ⟨0, 0⟩ []) := by decide
/-- R123. Both registers; the queue stays. -/
theorem test_loadState :
    (stepWith (row14 none .retract 0 0) 7 (.request 0 0xF6323#69)).map
      (fun t => ((t.chan 0).seq.cur, (t.chan 0).seq.des, (t.chan 0).seq.queue.length))
      = some (⟨50, -10⟩, ⟨50, -10⟩, 3) := by decide
set_option maxRecDepth 20000 in
/-- X1, to position 50. -/
theorem test_setPosition :
    (stepWith { idle with seq := roller ⟨0, 90⟩ ⟨0, 90⟩ [] } 7 (.request 0 0x324#69)).map
      (fun t => ((t.chan 0).seq.queue.length, (t.chan 0).seq.queue.getLast?, (t.chan 0).seq.des))
      = some (50, some (motion .retract 1000 50 0), ⟨50, 90⟩) := by decide
/-- X5, first call. -/
theorem test_setTilt :
    (stepWith { idle with seq := venetian 360 ⟨50, 0⟩ ⟨50, 0⟩ [] } 7 (.request 0 0xFD5#69)).map
      (fun t => ((t.chan 0).seq.queue, (t.chan 0).seq.des))
      = some ([motion .retract 2 50 (-1), motion .retract 2 50 (-2), motion .retract 2 50 (-3)], ⟨50, -3⟩) := by decide
/-- R150, the form of X3's end: at position 100 every instruction is `HOLD 0`, after one `HOLD 500`. -/
theorem test_addTilt :
    (nextOf (exec (.addTilt (-90) (-88))
      (withZero { idle with seq := venetian 180 ⟨0, 90⟩ ⟨100, 90⟩ [motion .retract 1000 100 (-90)] }))).map
        (fun t => (t.chan 0).seq.queue.tail)
      = some [motion .hold 500 100 (-90), motion .hold 0 100 (-89), motion .hold 0 100 (-88)] := by decide
/-- R150. A roller does not tilt. -/
theorem test_addTilt_roller :
    (nextOf (exec (.addTilt 0 90) (withZero idle))).map (fun t => (t.chan 0).seq) = some idle.seq := by decide
set_option maxRecDepth 20000 in
/-- X9b. -/
theorem test_setState :
    (stepWith { idle with seq := venetian 360 ⟨10, 0⟩ ⟨10, 0⟩ [] } 7 (.request 0 0x50B7#69)).map
      (fun t => ((t.chan 0).seq.queue.length, (t.chan 0).seq.queue.getLast?, (t.chan 0).seq.des))
      = some (187, some (motion .extend 2 11 5), ⟨11, 5⟩) := by decide
/-- X1. The last instruction of a move leaves one `HOLD`. -/
theorem test_getNextInstruction :
    (stepWith { idle with seq := roller ⟨49, 0⟩ ⟨50, 90⟩ [motion .retract 1000 50 0] } 7 (.request 0 0x8#69)).map
      (fun t => (t.sopOut, (t.chan 0).seq))
      = some (.motion (some (motion .retract 1000 50 0)), roller ⟨50, 0⟩ ⟨50, 90⟩ [motion .hold 500 50 0]) := by decide
/-- X2, X14 row q: three thousand pulses, then the trailing `HOLD`. -/
theorem test_getNextInstructionGrouped :
    (stepWith (row14 none .retract 0 0) 7 (.request 0 0x9C49#69)).map (fun t => (t.sopOut, (t.chan 0).seq))
      = some (.motion (some (motion .retract 3000 6 0)), roller ⟨6, 0⟩ ⟨6, 0⟩ [motion .hold 500 6 0]) := by decide
/-- X18. The overflowing merge: code 7, both instructions popped. -/
theorem test_getNextInstructionGrouped_overflow :
    (nextOf (exec (.getNextInstructionGrouped 4294967295)
      (withZero { idle with seq := roller ⟨0, 0⟩ ⟨0, 0⟩ [motion .hold 4294967294 5 0, motion .hold 2 6 0] }))).map
        (fun t => (t.fatalCode, (t.chan 0).seq)) = some (7, roller ⟨6, 0⟩ ⟨0, 0⟩ []) := by decide
/-- X7, row 4: at position 100 the open extreme is inferred. -/
theorem test_trigEndstop_roller :
    (stepWith { idle with seq := roller ⟨100, 0⟩ ⟨60, 0⟩ [] } 7 (.request 0 0xA#69)).map (fun t => (t.chan 0).seq)
      = some (roller ⟨100, 0⟩ ⟨100, 0⟩ [motion .hold 500 100 0]) := by decide
/-- X7, row 8: equal positions are ordered by falling tilt. -/
theorem test_trigEndstop_venetian :
    (stepWith { idle with seq := venetian 180 ⟨50, -30⟩ ⟨50, 10⟩ [] } 7 (.request 0 0xA#69)).map (fun t => (t.chan 0).seq)
      = some (venetian 180 ⟨0, 90⟩ ⟨0, 90⟩ [motion .hold 500 0 90]) := by decide
set_option maxRecDepth 20000 in
/-- X8. -/
theorem test_homeFullyOpened :
    (stepWith { idle with seq := roller ⟨3, 3⟩ ⟨4, 4⟩ [] } 7 (.request 0 0xB#69)).map
      (fun t => ((t.chan 0).seq.queue.length, (t.chan 0).seq.cur, (t.chan 0).seq.des))
      = some (100, ⟨0, 90⟩, ⟨100, 90⟩) := by decide
set_option maxRecDepth 20000 in
/-- X9. -/
theorem test_homeFullyClosed :
    (stepWith { idle with seq := venetian 180 ⟨3, 3⟩ ⟨4, 4⟩ [motion .hold 500 7 7] } 7 (.request 0 0xC#69)).map
      (fun t => ((t.chan 0).seq.queue.length, (t.chan 0).seq.queue.head?, (t.chan 0).seq.queue.getLast?, (t.chan 0).seq.des))
      = some (282, some (motion .hold 500 100 0), some (motion .retract 1 0 0), ⟨0, 0⟩) := by decide
/-- R124. -/
theorem test_getCurrentState :
    (stepWith (row14 none .retract 0 0) 7 (.request 0 0xD#69)).map State.sopOut = some (.state ⟨3, 0⟩) := by decide
/-- R125. -/
theorem test_getDesiredState :
    (stepWith (row14 none .retract 0 0) 7 (.request 0 0xE#69)).map State.sopOut = some (.state ⟨6, 0⟩) := by decide
/-- X14, row p: the deadline is inclusive. `EXTEND 3000 -> (0, 0)` is `0xBB8`. -/
theorem test_extend :
    (stepWith (row14 (some (motion .extend 3000 0 0)) .hold 1050000 0) 1050000 (.motion 0 0xBB8#50)).map
      (fun t => ((t.chan 0).disp, (t.chan 0).en, (t.chan 0).dir, (t.chan 0).pending, t.reports.length))
      = some ({ buf := none, resumeAfter := 1050000, lastReversal := 1050000, latched := .extend }, true, false, 3000, 2) := by
  decide
/-- X14, row o: one time unit too early. -/
theorem test_extend_waits :
    (stepWith (row14 (some (motion .extend 3000 0 0)) .hold 1050000 0) 1049999 (.motion 0 0xBB8#50)).map State.chans
      = some [row14 (some (motion .extend 3000 0 0)) .hold 1050000 0, idle] := by decide
/-- X14, row f: the same quality goes out at once, on top of what is pending. -/
theorem test_retract :
    (stepWith (row14 (some (motion .retract 3000 3 0)) .retract 0 500) 750000 (.motion 0 0x1000300000BB8#50)).map State.chans
      = some [row14 none .retract 0 3500, idle] := by decide
/-- X14, row i: reversed polarity. -/
theorem test_retract_reversed :
    (nextOf (exec (.retract 3000 3 0) { withZero (row14 (some (motion .retract 3000 3 0)) .hold 0 0) with
      now := 500000, polarity := [true, false] })).map (fun t => ((t.chan 0).dir, (t.chan 0).pending))
      = some (false, 3000) := by decide
/-- X14, row g. -/
theorem test_hold :
    (stepWith (row14 (some (motion .hold 500 3 0)) .hold 0 0) 2000000 (.motion 0 0x20003000001F4#50)).map State.chans
      = some [row14 none .hold 2050000 0, idle] := by decide
/-- X14, row l. -/
theorem test_hold_change :
    (stepWith (row14 (some (motion .hold 500 3 0)) .retract 0 0) 1500000 (.motion 0 0x20003000001F4#50)).map
      (fun t => ((t.chan 0).disp, (t.chan 0).dir, (t.chan 0).pending, t.reports.length))
      = some ({ buf := none, resumeAfter := 1550000, lastReversal := 1500000, latched := .hold }, false, 0, 2) := by decide
/-- R101: the encoder takes the word; R245: the report stream is as before. -/
theorem test_ready :
    (stepWith idle 7 (.report 0x0#42)).map (fun t => (t.encoded, t.reports)) = some ([.ready], [.ready]) := by decide
/-- R101, X10. -/
theorem test_position :
    (stepWith idle 7 (.report 0x190019005#42)).map State.encoded = some [.position 1 ⟨100, 0⟩ ⟨100, 0⟩] := by decide
/-- R101. -/
theorem test_stallGuardResult :
    (stepWith idle 7 (.report 0x32006#42)).map State.encoded = some [.stallGuardResult 1 200] := by decide
/-- R101, R302. The encoder takes the stream's first report, which is `ready`. -/
theorem test_encode :
    (stepWith idle 7 (.env .encode)).map (fun t => (t.encoded, t.taken, t.reports)) = some ([.ready], 1, [.ready]) := by decide

/-! ### The dispatcher and the agents around it -/

/-- X14, row a: the endstop path. -/
theorem test_endstop_path :
    (at14 (row14 (some (motion .retract 3000 6 0)) .retract 0 500) 1250000 true).channelStep 0
      = { at14
            { row14 none .retract 0 0 with seq := roller ⟨100, 0⟩ ⟨100, 0⟩ [motion .hold 500 100 0], en := false } 1250000
            false with reports := [.ready, .position 0 ⟨100, 0⟩ ⟨100, 0⟩] } := by decide
/-- X14, row c: one time unit inside the guard, the trigger is dropped. (`ready` is sure: the generator is stopped.) -/
theorem test_endstop_guarded :
    (at14 (row14 (some (motion .retract 3000 3 0)) .retract 0 0) 999999 true).channelStep 0
      = { at14 (row14 none .retract 0 3000) 999999 false with freeAt := 1 } := by decide
/-- X14, row r: the queue is empty and the generator stopped. -/
theorem test_power_down :
    ((at14 { row14 none .hold 0 0 with seq := roller ⟨3, 0⟩ ⟨6, 0⟩ [] } 7 false).channelStep 0).chans.map Channel.en
      = [false, false] := by decide
/-- X16. An edge sets the bit; while the line stays asserted no second step is enabled. -/
theorem test_watcher :
    (stepWith { idle with line := true } 7 (.env (.watch 0))).map (fun t => (t.endstop.head?, (t.chan 0).watcher))
      = some (some true, .waitRelease) ∧
    (stepWith { idle with line := true, watcher := .waitRelease } 7 (.env (.watch 0))).map
      (fun t => (t.endstop.head?, (t.chan 0).watcher)) = some (some false, .waitRelease) := by decide
/-- S13. A length byte opens a payload. -/
theorem test_reader :
    (stepWith idle 7 (.env (.byte 0x10))).map State.reader = some (.awaitPayload 16 []) := by decide
/-- S13. A payload of 40 bytes goes out in a frame of length byte 2A. -/
theorem test_out_frame :
    (outFrame (List.replicate 40 0x20)).map (fun f => (f.head?, f.length)) = some (some 0x2A, 43) := by decide
/-- The word placed for the host's first step from reset runs. -/
theorem test_fetch_word :
    (nextOf (step (State.reset.withFetchWord 50 0x10032000003E8))).map (fun t => (t.chan 0).pending) = some 1000 := by decide

/-! ### Witnesses: concrete values that meet every hypothesis of an obligation together, at the boundary of their ranges -/

/-- X14's channel 0 with `RETRACT 3000 -> (3, 0)` in the buffer. -/
def buffered (latched : Direction) (resumeAfter pending : Nat) : Channel :=
  row14 (some (motion .retract 3000 3 0)) latched resumeAfter pending

/-- A machine with channel 0 as in `buffered`, at time 1050000. -/
def loaded (latched : Direction) (resumeAfter pending : Nat) : State :=
  { withZero (buffered latched resumeAfter pending) with now := 1050000 }

/-- A venetian in the middle of a move. -/
def moving : State :=
  withZero { idle with seq := venetian 180 ⟨50, 30⟩ ⟨50, -10⟩ [motion .hold 500 50 30, motion .retract 1 50 29] }

theorem witness_DecodeEncode :
    (Instr.setState 100 (-90)).wellFormed = true ∧ (Instr.hold 4294967295 0 90).wellFormed = true ∧
      (Instr.setup 255 200 (-128) 4294967295 (some false) (some 4294967295) (some 255)).wellFormed = true := by decide
theorem witness_EncodeDecode : decode (.cw 0x9803#103) = .ok (.set 0 (some 9) none) ∧ Instr.set 0 (some 9) none ≠ .reset := by
  decide
theorem witness_BytesDecode : (Instr.position 255 100 90 0 (-90)).wellFormed = true := by decide
theorem witness_IllegalWords :
    ¬ legalCw 0x7#103 ∧ ¬ legalCw 0x809#103 ∧ ¬ legalSop 0xF#69 ∧ ¬ legalSop 0x654#69 ∧ ¬ legalMiw 0x3000000000000#50 ∧
      ¬ legalMiw 0x6500000000#50 ∧ ¬ legalRw 0x3#42 ∧ ¬ legalRw 0x4#42 ∧ ¬ legalRw 0x40002#42 ∧ ¬ legalRw 0x19401#42 ∧
      legalCw 0x9#103 ∧ legalSop 0x644#69 ∧ legalMiw 0x6400000000#50 ∧ legalRw 0x19001#42 := by
  refine ⟨?_, ?_, ?_, ?_, ?_, ?_, ?_, ?_, ?_, ?_, ?_, ?_, ?_, ?_⟩
  all_goals first | unfold legalCw | unfold legalSop | unfold legalMiw | unfold legalRw
  all_goals decide
theorem witness_StepRunsDecoded :
    ({ moving with inputs := [.env (.command 0x9#103)] } : State).passAt = none ∧ decode (.cw 0x9#103) = .ok (.home 1) ∧
      decode (.sop 0x324#69) = .ok (.setPosition 50) ∧ decode (.miw 0x10032000003E8#50) = .ok (.retract 1000 50 0) ∧
      decode (.rw 0x0#42) = .ok .ready := by decide
/-- A word of each port. -/
theorem witness_FetchRunsDecoded :
    decodeTableWord 69 0x324 = some (.setPosition 50) ∧ (Instr.setPosition 50).port = .sop ∧
      decodeTableWord 50 0x10032000003E8 = some (.retract 1000 50 0) ∧ (Instr.retract 1000 50 0).port = .miw ∧
      decodeTableWord 103 0x9 = some (.home 1) ∧ (Instr.home 1).port = .cw ∧
      decodeTableWord 42 0x0 = some .ready ∧ Instr.ready.port = .rw := by decide
theorem witness_CommandsWaitForPass :
    ({ moving with passAt := some 1, inputs := [.env .tick] } : State).passAt = some 1 ∧
      ({ moving with passAt := some 1, inputs := [.env .tick] } : State).inputs = .env .tick :: [] := by decide
theorem witness_ResetState : 1 < setV.nch := by decide
theorem witness_ResetCommand :
    halted.reader = .awaitLength ∧ (0x7FFFFFFFFFFFFFFFFFFFFFFFF8#103).extractLsb' 0 3 = 0#3 ∧ 1 < halted.chans.length ∧
      ({ halted with inputs := [.env .powerUp] } : State).inputs = .env .powerUp :: [] ∧
      { ({ halted with inputs := [.env .powerUp] } : State) with inputs := [] } = halted := by decide
theorem witness_ResetInvariants : setV.wf = true ∧ { setV with nch := 256, maskw := 256, qcap := 1 }.wf = true := by decide
theorem witness_HomeCommand : moving.fatal = none ∧ (1 : U8).toNat < moving.cfg.nch ∧ moving.chans[(1 : U8).toNat]? = some idle := by
  decide
theorem witness_SetupCommand :
    moving.fatal = none ∧ (1 : U8).toNat < moving.cfg.nch ∧ moving.chans[(1 : U8).toNat]? = some idle ∧
      (100 : U8).toNat ≤ 100 ∧ -90 ≤ (-90 : U8).toInt ∧ (-90 : U8).toInt ≤ 90 ∧ -90 ≤ (90 : U8).toInt ∧
      (90 : U8).toInt ≤ 90 := by decide
theorem witness_SetCommand :
    moving.fatal = none ∧ (1 : U8).toNat < moving.cfg.nch ∧ moving.chans[(1 : U8).toNat]? = some idle ∧
      (∀ x, some (100 : U8) = some x → x.toNat ≤ 100) ∧
      (∀ x, some (-90 : U8) = some x → -90 ≤ x.toInt ∧ x.toInt ≤ 90) := by
  refine ⟨by decide, by decide, by decide, fun x h => ?_, fun x h => ?_⟩ <;> (cases h; decide)
theorem witness_GetCommand : moving.fatal = none ∧ (1 : U8).toNat < moving.cfg.nch ∧ moving.chans[(1 : U8).toNat]? = some idle := by
  decide
theorem witness_GetStallGuardCommand :
    moving.fatal = none ∧ (1 : U8).toNat < moving.cfg.nch ∧ moving.cfg.stallFeature = true ∧
      ({ moving with cfg := { setV with stallFeature := false } } : State).cfg.stallFeature = false := by decide
theorem witness_RefusedCommands :
    moving.cfg.nch ≤ (2 : U8).toNat ∧ 100 < (101 : U8).toNat ∧ (-91 : U8).toInt < -90 ∧ 90 < (91 : U8).toInt := by decide
theorem witness_HaltedBlock :
    halted.fatal.isSome = true ∧ (Instr.home 0).wellFormed = true ∧ Instr.home 0 ≠ .reset ∧ (Instr.home 0).port ≠ .rw ∧
      (Instr.position 255 100 90 0 (-90)).wellFormed = true ∧ (Instr.position 255 100 90 0 (-90)).port = .rw := by decide
theorem witness_CommandsAndDispatcherApart :
    (Instr.home 0).port = .cw ∧ Instr.home 0 ≠ .reset ∧ (∃ t, exec (.home 0) (withZero (buffered .hold 0 0)) = .next t) ∧
      (withZero (buffered .hold 0 0)).sameForHost { withZero (row14 none .retract 9 3000) with endstop := [true, true] } :=
  ⟨by decide, by decide, ⟨_, rfl⟩, by decide⟩
theorem witness_ConstructorRequests : moving.fatal = none ∧ ∃ ch, moving.chans[moving.sel]? = some ch := ⟨rfl, _, rfl⟩
theorem witness_LoadStateRequest :
    moving.fatal = none ∧ (∃ ch, moving.chans[moving.sel]? = some ch) ∧ (100 : U8).toNat ≤ 100 ∧ -90 ≤ (-90 : U8).toInt ∧
      (-90 : U8).toInt ≤ 90 := ⟨rfl, ⟨_, rfl⟩, by decide⟩
theorem witness_SetPositionRequest :
    moving.fatal = none ∧ (∃ ch, moving.chans[moving.sel]? = some ch ∧ ch.seq.cur.position ≠ (100 : U8).toNat) ∧
      (100 : U8).toNat ≤ 100 := ⟨rfl, ⟨_, rfl, by decide⟩, by decide⟩
theorem witness_PlanLength :
    (roller ⟨0, 90⟩ ⟨0, 90⟩ []).cur.inRange = true ∧ 100 ≤ 100 ∧ (roller ⟨0, 90⟩ ⟨0, 90⟩ []).cur.position ≠ 100 ∧
      (roller ⟨0, 90⟩ ⟨0, 90⟩ []).ftq = none ∧ 463 ≤ setV.qcap := by decide
theorem witness_AddTiltRequest :
    moving.fatal = none ∧ (∃ ch, moving.chans[moving.sel]? = some ch ∧ ch.seq.ftq ≠ none) ∧ -90 ≤ (-90 : U8).toInt ∧
      (-90 : U8).toInt ≤ 90 ∧ -90 ≤ (90 : U8).toInt ∧ (90 : U8).toInt ≤ 90 := ⟨rfl, ⟨_, rfl, by decide⟩, by decide⟩
theorem witness_SetTiltRequest :
    moving.fatal = none ∧ (∃ ch, moving.chans[moving.sel]? = some ch ∧ ch.seq.ftq ≠ none) ∧ -90 ≤ (-90 : U8).toInt ∧
      (-90 : U8).toInt ≤ 90 := ⟨rfl, ⟨_, rfl, by decide⟩, by decide⟩
theorem witness_SetStateRequest :
    moving.fatal = none ∧ (∃ ch, moving.chans[moving.sel]? = some ch) ∧ (100 : U8).toNat ≤ 100 ∧ -90 ≤ (90 : U8).toInt ∧
      (90 : U8).toInt ≤ 90 := ⟨rfl, ⟨_, rfl⟩, by decide⟩
theorem witness_HomingRequests : moving.fatal = none ∧ ∃ ch, moving.chans[moving.sel]? = some ch := ⟨rfl, _, rfl⟩
theorem witness_GetNextRequest :
    moving.fatal = none ∧ 1 ≤ moving.cfg.qcap ∧
      (∃ ch m rest, moving.chans[moving.sel]? = some ch ∧ ch.seq.queue = m :: rest) ∧
      (∃ ch, (withZero idle).chans[(withZero idle).sel]? = some ch ∧ ch.seq.queue = []) :=
  ⟨rfl, by decide, ⟨_, _, _, rfl, rfl⟩, _, rfl, rfl⟩
theorem witness_GroupedRequest :
    moving.fatal = none ∧ 1 ≤ moving.cfg.qcap ∧
      (∃ ch first rest, moving.chans[moving.sel]? = some ch ∧ ch.seq.queue = first :: rest) ∧
      (∃ ch, (withZero idle).chans[(withZero idle).sel]? = some ch ∧ ch.seq.queue = []) :=
  ⟨rfl, by decide, ⟨_, _, _, rfl, rfl⟩, _, rfl, rfl⟩
/-- X18's queue: the sum is `2^32`. -/
theorem witness_GroupedOverflow :
    (∃ ch, (withZero { idle with seq := roller ⟨0, 0⟩ ⟨0, 0⟩ [motion .hold 4294967294 5 0, motion .hold 2 6 0] }).chans[0]?
        = some ch ∧ ch.seq.queue = motion .hold 4294967294 5 0 :: motion .hold 2 6 0 :: []) ∧
      1 ≤ setV.qcap ∧ (motion .hold 4294967294 5 0).quality = (motion .hold 2 6 0).quality ∧
      (motion .hold 4294967294 5 0).quantity.toNat < (4294967295 : U32).toNat ∧
      4294967295 < (motion .hold 4294967294 5 0).quantity.toNat + (motion .hold 2 6 0).quantity.toNat :=
  ⟨⟨_, rfl, rfl⟩, by decide⟩
/-- X7, rows 7 and 8: both extremes. -/
theorem witness_TrigEndstopRequest :
    moving.fatal = none ∧ 1 ≤ moving.cfg.qcap ∧
      (∃ ch, moving.chans[moving.sel]? = some ch ∧
        (⟨100, 90⟩ : WState).position = (if ch.seq.cur.position < ch.seq.des.position ∨
          (ch.seq.cur.position = ch.seq.des.position ∧ ch.seq.des.tilt < ch.seq.cur.tilt) ∨ ch.seq.cur.position = 100
          then 100 else 0) ∧
        (⟨100, 90⟩ : WState).tilt = (if ch.seq.ftq = none then 0 else 90)) ∧
      (∃ ch, (withZero idle).chans[(withZero idle).sel]? = some ch ∧
        (⟨0, 0⟩ : WState).position = (if ch.seq.cur.position < ch.seq.des.position ∨
          (ch.seq.cur.position = ch.seq.des.position ∧ ch.seq.des.tilt < ch.seq.cur.tilt) ∨ ch.seq.cur.position = 100
          then 100 else 0) ∧
        (⟨0, 0⟩ : WState).tilt = (if ch.seq.ftq = none then 0 else 90)) :=
  ⟨rfl, by decide, ⟨_, rfl, by decide⟩, _, rfl, by decide⟩
theorem witness_TrigEndstopIdempotent : ∃ t, exec .trigEndstop moving = .next t := ⟨_, rfl⟩
theorem witness_ReadAccessors : moving.fatal = none ∧ ∃ ch, moving.chans[moving.sel]? = some ch := ⟨rfl, _, rfl⟩
theorem witness_RequestsTouchOneSequencer :
    (Instr.homeFullyOpened).port = .sop ∧ (∃ t, exec .homeFullyOpened moving = .next t) ∧ (1 : Nat) ≠ moving.sel ∧
      ∃ ch, moving.chans[moving.sel]? = some ch := ⟨rfl, ⟨_, rfl⟩, by decide, _, rfl⟩
theorem witness_InnerPortStops :
    moving.fatal = none ∧ (Instr.trigEndstop).port = .sop ∧ (Instr.trigEndstop).wellFormed = true ∧
      (Instr.hold 500 100 90).port = .miw ∧ (Instr.hold 500 100 90).wellFormed = true ∧
      ({ moving with sel := 2 } : State).chans.length ≤ ({ moving with sel := 2 } : State).sel ∧
      (Instr.loadState 101 0).wellFormed = false := by decide
theorem witness_MotionSameQuality :
    (loaded .retract 0 500).fatal = none ∧ ∃ ch, (loaded .retract 0 500).chans[(loaded .retract 0 500).sel]? = some ch ∧
      ch.disp.latched = .retract ∧
      ch.disp.buf = some { quality := .retract, quantity := 3000, completed := { position := (3 : U8).toNat, tilt := (0 : U8).toInt } } :=
  ⟨rfl, _, rfl, by decide, by decide⟩
/-- The deadline is met exactly. -/
theorem witness_MotionDirectionChange :
    (loaded .hold 1050000 0).fatal = none ∧
      ∃ ch, (loaded .hold 1050000 0).chans[(loaded .hold 1050000 0).sel]? = some ch ∧ ch.disp.latched ≠ .retract ∧
        ch.pending = 0 ∧ ch.disp.resumeAfter ≤ (loaded .hold 1050000 0).now ∧
        ch.disp.buf = some { quality := .retract, quantity := 3000, completed := { position := (3 : U8).toNat, tilt := (0 : U8).toInt } } :=
  ⟨rfl, _, rfl, by decide, by decide, by decide, by decide⟩
/-- One pulse pending; then the deadline one time unit ahead; then another instruction in the buffer. -/
theorem witness_MotionWaits :
    (∃ ch, (loaded .extend 0 1).chans[(loaded .extend 0 1).sel]? = some ch ∧ ch.disp.latched ≠ .retract ∧ ch.pending ≠ 0 ∧
        ch.disp.buf = some (motion .retract 3000 3 0)) ∧
      (∃ ch, (loaded .hold 1050001 0).chans[(loaded .hold 1050001 0).sel]? = some ch ∧ ch.disp.latched ≠ .retract ∧
        (loaded .hold 1050001 0).now < ch.disp.resumeAfter ∧ ch.disp.buf = some (motion .retract 3000 3 0)) ∧
      (motion .retract 3000 3 0) ≠ { quality := .hold, quantity := 0, completed := { position := (3 : U8).toNat, tilt := (0 : U8).toInt } } :=
  ⟨⟨_, rfl, by decide, by decide, by decide⟩, ⟨_, rfl, by decide, by decide, by decide⟩, by decide⟩
theorem witness_MotionFetchedFirst :
    moving.fatal = none ∧ ∃ ch, moving.chans[moving.sel]? = some ch ∧ (100 : U8).toNat ≤ 100 ∧ -90 ≤ (90 : U8).toInt ∧
      (90 : U8).toInt ≤ 90 ∧ ch.disp.buf = none := ⟨rfl, _, rfl, by decide, by decide, by decide, rfl⟩
theorem witness_ReportsAppended :
    positionOk 100 = true ∧ tiltOk (-90) = true ∧ positionOk 0 = true ∧ tiltOk 90 = true ∧
      moving.reports[moving.taken]? = some .ready ∧ ({ moving with taken := 1 } : State).reports[1]? = none ∧
      ({ moving with reports := [.position 255 ⟨100, -90⟩ ⟨0, 90⟩] } : State).reports[moving.taken]?
        = some (.position 255 ⟨100, -90⟩ ⟨0, 90⟩) ∧
      255 < 256 ∧ (⟨100, -90⟩ : WState).inRange = true ∧ (⟨0, 90⟩ : WState).inRange = true := by decide
theorem witness_ReportWords : 255 < 256 ∧ (⟨100, -90⟩ : WState).inRange = true ∧ (⟨0, 90⟩ : WState).inRange = true := by decide
/-- X14, row b: exactly at the guard. -/
theorem witness_EndstopPath :
    (at14 (row14 none .retract 0 0) 1000000 true).fatal = none ∧
      (∃ ch, (at14 (row14 none .retract 0 0) 1000000 true).chans[0]? = some ch ∧
        ch.disp.lastReversal + setV.endstopGuard ≤ 1000000 ∧ ch.seq.cur.position < ch.seq.des.position ∧ ch.seq.ftq = none) ∧
      1 ≤ setV.qcap ∧ (at14 (row14 none .retract 0 0) 1000000 true).endstop.getD 0 false = true :=
  ⟨rfl, ⟨_, rfl, by decide, by decide, rfl⟩, by decide, rfl⟩
/-- X14, row c: one time unit before. -/
theorem witness_GuardedTriggerLost :
    (at14 (row14 none .retract 0 0) 999999 true).fatal = none ∧
      ∃ ch, (at14 (row14 none .retract 0 0) 999999 true).chans[0]? = some ch ∧
        999999 < ch.disp.lastReversal + setV.endstopGuard := ⟨rfl, _, rfl, by decide⟩
/-- Pulses pending inside the guard; and none pending, with the flag clear. -/
theorem witness_ReadyGate :
    (at14 (buffered .retract 0 500) 999999 true).fatal = none ∧ (at14 (buffered .retract 0 0) 2000000 false).fatal = none ∧
      (∃ ch, (at14 (buffered .retract 0 500) 999999 true).chans[0]? = some ch ∧
        (at14 (buffered .retract 0 500) 999999 true).noEndstop 0 ch ∧ ch.pending ≠ 0) ∧
      ∃ ch, (at14 (buffered .retract 0 0) 2000000 false).chans[0]? = some ch ∧
        (at14 (buffered .retract 0 0) 2000000 false).noEndstop 0 ch ∧ ch.pending = 0 :=
  ⟨rfl, rfl, ⟨_, rfl, by decide, by decide⟩, _, rfl, by decide, rfl⟩
theorem witness_FeedRunsBuffered :
    (loaded .hold 0 0).fatal = none ∧ ∃ ch, (loaded .hold 0 0).chans[0]? = some ch ∧
      ch.disp.buf = some (motion .retract 3000 3 0) ∧ (motion .retract 3000 3 0).completed.inRange = true :=
  ⟨rfl, _, rfl, rfl, by decide⟩
theorem witness_FeedFetches : moving.fatal = none ∧ ∃ ch, moving.chans[0]? = some ch ∧ ch.disp.buf = none := ⟨rfl, _, rfl, rfl⟩
/-- X14, row a; the channel exists before and after. -/
theorem witness_ChannelStepFrame :
    ∃ t a b, (at14 (buffered .retract 0 500) 1250000 true).channelStep 0 = t ∧ (1 : Nat) ≠ 0 ∧
      (at14 (buffered .retract 0 500) 1250000 true).chans[0]? = some a ∧ t.chans[0]? = some b := ⟨_, _, _, rfl, by decide, rfl, rfl⟩
theorem witness_HoldTimeRoundsDown : 1 ≤ { setV with pulseFrequency := 1 }.pulseFrequency := by decide
theorem witness_PassRunsEveryChannel : moving.fatal = none ∧ 1 ≤ moving.cfg.nch := by decide
theorem witness_WatcherTransitions :
    (∃ ch, (withZero { idle with line := true }).chans[0]? = some ch ∧ ch.watcher = .armed ∧ ch.line = true) ∧
      (∃ ch, (withZero { idle with watcher := .waitRelease }).chans[0]? = some ch ∧ ch.watcher = .waitRelease ∧
        ch.line = false) ∧
      (∃ ch, (withZero idle).chans[0]? = some ch ∧ ch.watcher = .armed ∧ ch.line = false) ∧
      ∃ ch, (withZero { idle with line := true, watcher := .waitRelease }).chans[0]? = some ch ∧ ch.watcher = .waitRelease ∧
        ch.line = true := ⟨⟨_, rfl, rfl, rfl⟩, ⟨_, rfl, rfl, rfl⟩, ⟨_, rfl, rfl, rfl⟩, _, rfl, rfl, rfl⟩
/-- The shortest frame and the longest. -/
theorem witness_FramesCollected :
    moving.reader = .awaitLength ∧ (1 : U8) ≠ 0#8 ∧ ([] : List U8).length + 1 = (1 : U8).toNat ∧ (255 : U8) ≠ 0#8 ∧
      (List.replicate 254 (0 : U8)).length + 1 = (255 : U8).toNat := by
  refine ⟨rfl, by decide, rfl, by decide, ?_⟩
  rw [List.length_replicate]; rfl
theorem witness_OutboundFrames :
    (List.replicate 253 (0 : U8)).length ≤ 253 ∧ 253 < (List.replicate 254 (0 : U8)).length := by
  simp only [List.length_replicate]; decide

/-- A well-formed machine in the middle of a pass, whose next step fetches on channel 1. -/
def inMidPass : State := { moving with passAt := some 1, inputs := [.env .proceed] }

theorem witness_StepKeepsWf : inMidPass.wf ∧ ∃ t, step inMidPass = .next t := ⟨by decide, _, rfl⟩
theorem witness_StepKeepsSmoothQueues : inMidPass.wf ∧ inMidPass.smoothQueues ∧ ∃ t, step inMidPass = .next t :=
  ⟨by decide, by decide, _, rfl⟩
theorem witness_StepKeepsHoldDrained : inMidPass.holdDrained ∧ ∃ t, step inMidPass = .next t := ⟨by decide, _, rfl⟩
theorem witness_StepKeepsTimely :
    (loaded .hold 0 0).timely ∧ ∃ t, step { loaded .hold 0 0 with inputs := [.motion 0 0x1000300000BB8#50] } = .next t :=
  ⟨by decide, _, rfl⟩
/-- A step in which the latched quality and the pending pulses do change (X14, row h); and a drain. -/
theorem witness_DirectionChangesDrained :
    (∃ t b, step { loaded .hold 0 0 with inputs := [.motion 0 0x1000300000BB8#50] } = .next t ∧ t.chans[0]? = some b ∧
      (∃ a, (loaded .hold 0 0).chans[0]? = some a ∧ b.disp.latched ≠ a.disp.latched ∧ a.pending < b.pending) ∧ b.disp.latched = .retract) ∧
    ∃ t a b, step { loaded .retract 0 500 with inputs := [.env (.drain 0 200)] } = .next t ∧
      (loaded .retract 0 500).chans[0]? = some a ∧ t.chans[0]? = some b ∧ b.pending = 300 :=
  ⟨⟨_, _, rfl, rfl, ⟨_, rfl, by decide, by decide⟩, rfl⟩, _, _, _, rfl, rfl, rfl, rfl⟩
/-- A step that emits (X14, row h). -/
theorem witness_StepMonotone :
    ∃ t, step { loaded .hold 0 0 with inputs := [.motion 0 0x1000300000BB8#50] } = .next t ∧ ¬ t.justReset ∧
      t.reports = (loaded .hold 0 0).reports ++ [.position 0 ⟨3, 0⟩ ⟨6, 0⟩] := ⟨_, rfl, by decide, by decide⟩
theorem witness_MismatchUnreachable : inMidPass.fatal ≠ some .mergeMismatch ∧ ∃ t, step inMidPass = .next t :=
  ⟨by decide, _, rfl⟩
theorem witness_OverflowExcluded :
    inMidPass.smallQuantities ∧ inMidPass.fatal = none ∧ ∃ t, step inMidPass = .next t := ⟨by decide, rfl, _, rfl⟩

end Sys2Proof.Tests
end

section
/-! The state right after reset meets the invariants that every step keeps (R301): first the parts of the state one by one,
then the state as a whole. -/

namespace Sys2Proof.Machine

/-- R4. A build that meets its constraints starts its sequencers in range. -/
theorem Params.initState_inRange_of_wf {p : Params} (h : p.wf = true) : p.initState.inRange = true := by
  simp only [Params.wf, Bool.and_eq_true] at h
  obtain ⟨⟨⟨⟨⟨_, hinit⟩, _⟩, _⟩, _⟩, _⟩ := h
  exact hinit

/-! ### A channel at reset -/

section Channel

variable (p : Params) (dir line : Bool)

@[simp] theorem Channel.atReset_seq :
    (Channel.atReset p dir line).seq = newSequencer p p.defaultFullCycle Config.defaultFullTilt := rfl
@[simp] theorem Channel.atReset_buf : (Channel.atReset p dir line).disp.buf = none := rfl
@[simp] theorem Channel.atReset_lastReversal : (Channel.atReset p dir line).disp.lastReversal = 0 := rfl
@[simp] theorem Channel.atReset_pending : (Channel.atReset p dir line).pending = 0 := rfl

end Channel

@[simp] theorem newSequencer_queue (p : Params) (fc : U32) (ft : Option U32) : (newSequencer p fc ft).queue = [] := rfl

theorem Channel.atReset_wf {p : Params} (h : p.wf = true) (dir line : Bool) : (Channel.atReset p dir line).wf p := by
  have hseq : (Channel.atReset p dir line).seq.wf p := newSequencer_wf _ _ (Params.initState_inRange_of_wf h)
  have hbuf : bufferWf (Channel.atReset p dir line).disp.buf := by simp [bufferWf]
  exact ⟨hseq, hbuf⟩

/-! ### The whole state at reset -/

/-- A flag word with every bit clear is well-formed. -/
theorem flagsWf_replicate_false (p : Params) : flagsWf p (List.replicate p.maskw false) := by
  refine ⟨List.length_replicate, fun b hb => ?_⟩
  exact List.eq_of_mem_replicate (List.mem_of_mem_drop hb)

/-- R301. Every channel after reset is a channel at reset: what holds of that one holds of all. -/
theorem eq_atReset_of_mem_resetOf {p : Params} {ch : Channel} (h : ch ∈ (State.resetOf p).chans) :
    ch = Channel.atReset p false false := List.eq_of_mem_replicate h

theorem State.resetOf_wf {p : Params} (h : p.wf = true) : (State.resetOf p).wf := by
  have hlen : (State.resetOf p).chans.length = p.nch := List.length_replicate
  have hchans : ∀ ch ∈ (State.resetOf p).chans, ch.wf p := by
    intro ch hch
    rw [eq_atReset_of_mem_resetOf hch]
    exact Channel.atReset_wf h _ _
  have hpass : passWf p (State.resetOf p).passAt := by simp [passWf, State.resetOf]
  exact ⟨h, hlen, flagsWf_replicate_false p, flagsWf_replicate_false p, hchans, hpass, rfl⟩

/-- R155. After reset every queue is empty. -/
theorem State.resetOf_smoothQueues (p : Params) : (State.resetOf p).smoothQueues := by
  intro ch hch
  rw [eq_atReset_of_mem_resetOf hch, Channel.atReset_seq, newSequencer_queue, smooth]

/-- R320. After reset no pulse is pending. -/
theorem State.resetOf_holdDrained (p : Params) : (State.resetOf p).holdDrained := by
  intro ch hch _
  rw [eq_atReset_of_mem_resetOf hch, Channel.atReset_pending]

/-- R33. After reset no direction change has a later time than 0. -/
theorem State.resetOf_timely (p : Params) : (State.resetOf p).timely := by
  intro ch hch
  rw [eq_atReset_of_mem_resetOf hch, Channel.atReset_lastReversal]
  exact Nat.zero_le _

/-- Settles O11: each invariant holds of a channel at reset, and reset puts such a channel everywhere. -/
theorem resetInvariants : Obligations.ResetInvariants := by
  intro p hp
  exact ⟨State.resetOf_wf hp, State.resetOf_smoothQueues p, State.resetOf_holdDrained p, State.resetOf_timely p⟩

end Sys2Proof.Machine
end

section
/-! What every step keeps (R20, R33): each invariant is proved once for a device reset and once for an `Effect`, the two
things a step can be. -/

namespace Sys2Proof.Machine

/-! ### Device reset -/

section Reset

variable (s : State)

@[simp] theorem deviceReset_cfg : s.deviceReset.cfg = s.cfg := rfl
@[simp] theorem deviceReset_passAt : s.deviceReset.passAt = none := rfl
@[simp] theorem deviceReset_length : s.deviceReset.chans.length = s.chans.length := by simp [State.deviceReset]

theorem State.deviceReset_justReset : s.deviceReset.justReset := ⟨rfl, rfl, rfl⟩

end Reset

/-- R301. Every channel after device reset is a channel at reset, whatever its direction line and limit switch show. -/
theorem eq_atReset_of_mem_deviceReset {s : State} {ch : Channel} (h : ch ∈ s.deviceReset.chans) :
    ∃ dir line, ch = Channel.atReset s.cfg dir line := by
  obtain ⟨_, _, rfl⟩ := List.mem_mapIdx.1 h
  exact ⟨_, _, rfl⟩

/-- Device reset needs of the old state only its build and its number of channels. -/
theorem State.deviceReset_wf {s : State} (hcfg : s.cfg.wf = true) (hlen : s.chans.length = s.cfg.nch) :
    s.deviceReset.wf := by
  have hchans : ∀ ch ∈ s.deviceReset.chans, ch.wf s.cfg := by
    intro ch hch
    obtain ⟨dir, line, rfl⟩ := eq_atReset_of_mem_deviceReset hch
    exact Channel.atReset_wf hcfg dir line
  have hflags := flagsWf_replicate_false s.cfg
  exact ⟨hcfg, by simpa using hlen, hflags, hflags, hchans, by simp [passWf], rfl⟩

theorem State.deviceReset_timely (s : State) : s.deviceReset.timely := by
  intro ch hch
  obtain ⟨dir, line, rfl⟩ := eq_atReset_of_mem_deviceReset hch
  rw [Channel.atReset_lastReversal]
  exact Nat.zero_le _

/-! ### Effects -/

theorem Effect.wf {s t : State} (h : Effect s t) (hw : s.wf) : t.wf := by
  obtain ⟨hcfg, hlen, hend, hpol, hchans, hpass, hrd⟩ := hw
  obtain ⟨c, htouch⟩ := h.chans
  have hchans' : ∀ ch ∈ t.chans, ch.wf s.cfg :=
    htouch.all hchans fun _ _ _ hch => hch.wf (Params.initState_inRange_of_wf hcfg)
  have hend' : flagsWf s.cfg t.endstop := FlagWrite.wf (hlen ▸ h.endstop) hend
  have hpol' : flagsWf s.cfg t.polarity := h.polarity.wf hpol
  rw [State.wf, h.cfg, htouch.length]
  exact ⟨hcfg, hlen, hend', hpol', hchans', h.pass hcfg hpass, h.reader hrd⟩

theorem Effect.timely {s t : State} (h : Effect s t) (hs : s.timely) : t.timely := by
  obtain ⟨c, htouch⟩ := h.chans
  have hkept : ∀ ch ∈ t.chans, ch.disp.lastReversal ≤ s.now := htouch.all hs fun _ _ _ hch => hch.timely
  exact fun ch hch => Nat.le_trans (hkept ch hch) h.now

/-- Settles O53: a device reset gives a well-formed state, and an effect keeps one well-formed. -/
theorem stepKeepsWf : Obligations.StepKeepsWf := by
  intro s t hw hstep
  rcases step_resetOrEffect hstep with ⟨u, hsame, rfl⟩ | heffect
  · obtain ⟨hcfg, hchans, -⟩ := hsame
    obtain ⟨hwf, hlen, -⟩ := hw
    exact State.deviceReset_wf (by rw [hcfg]; exact hwf) (by rw [hchans, hcfg]; exact hlen)
  · exact heffect.wf hw

/-- Settles O56: a device reset clears every record of a direction change, and an effect records none later than `now`, which
does not go back. -/
theorem stepKeepsTimely : Obligations.StepKeepsTimely := by
  intro s t hs hstep
  rcases step_resetOrEffect hstep with ⟨u, -, rfl⟩ | heffect
  · exact State.deviceReset_timely u
  · exact heffect.timely hs

end Sys2Proof.Machine
end

section
/-! Which transitions leave the report stream alone (R244, R245), and what follows for every step. -/

namespace Sys2Proof.Machine

/-! ### Shared operations that emit nothing -/

theorem seqRequest_reports {f : Params → Sequencer → Sequencer} {s t : State} (h : seqRequest f s = .next t) :
    t.reports = s.reports := by
  unfold seqRequest at h
  split at h
  · cases h; rfl
  · split at h <;> cases h; rfl

theorem seqRead_reports {f : Sequencer → WState} {s t : State} (h : seqRead f s = .next t) : t.reports = s.reports := by
  unfold seqRead at h
  split at h
  · cases h; rfl
  · split at h <;> cases h; rfl

theorem seqFetch_reports {f : Params → Sequencer → Except FatalCode (Option Motion) × Sequencer} {s t : State}
    (h : seqFetch f s = .next t) : t.reports = s.reports := by
  unfold seqFetch at h
  split at h
  · cases h; rfl
  · split at h
    · cases h
    · split at h <;> cases h <;> rfl

theorem encodeReportWord_reports {r : Report} {s t : State} (h : encodeReportWord r s = .next t) :
    t.reports = s.reports := by
  cases h; rfl

theorem startPass_reports (s : State) : s.startPass.reports = s.reports := by
  unfold State.startPass; split <;> rfl

theorem watch_reports (s : State) (c : Nat) : (s.watch c).reports = s.reports := by
  unfold State.watch State.watcherStep
  split
  · rfl
  · split
    · rfl
    · split <;> rfl

theorem encodeNext_reports (s : State) : s.encodeNext.reports = s.reports := by
  unfold State.encodeNext; split <;> rfl

/-! ### The ports whose instructions emit nothing -/

/-- R126. A sequencer operation emits no report. -/
theorem exec_reports_of_sop {i : Instr} {s t : State} (hp : i.port = .sop) (h : exec i s = .next t) :
    t.reports = s.reports := by
  cases i with
  | reset | home | setup | set | get | getSg => cases hp
  | extend | retract | hold => cases hp
  | ready | position | stallGuardResult => cases hp
  | new fc ft => exact seqRequest_reports (f := fun p _ => newSequencer p fc ft) h
  | newRoller fc => exact seqRequest_reports (f := fun p _ => newSequencer p fc none) h
  | newVenetian fc ft => exact seqRequest_reports (f := fun p _ => newSequencer p fc (some ft)) h
  | trigEndstop | homeFullyOpened | homeFullyClosed => exact seqRequest_reports h
  | loadState | setPosition | setTilt | addTilt | setState => exact seqRequest_reports (ifRange_next h).2
  | getNextInstruction => exact seqFetch_reports (f := fetchOne) h
  | getNextInstructionGrouped th => exact seqFetch_reports (f := fun p => getNextGrouped p th) h
  | getCurrentState | getDesiredState => exact seqRead_reports h

/-- R101. The encoder's taking of a report word emits no report. -/
theorem exec_reports_of_rw {i : Instr} {s t : State} (hp : i.port = .rw) (h : exec i s = .next t) :
    t.reports = s.reports := by
  cases i with
  | ready | stallGuardResult => exact encodeReportWord_reports h
  | position => exact encodeReportWord_reports (ifRange_next h).2
  | _ => cases hp

/-- A word of a port emits nothing if no instruction of the port does. -/
theorem runWord_reports {w : PortWord} {s t : State}
    (hport : ∀ i, i.port = w.port → exec i s = .next t → t.reports = s.reports) (h : runWord w s = .next t) :
    t.reports = s.reports := by
  unfold runWord at h
  split at h
  · next i hi => exact hport i (decode_port hi) h
  · cases h

/-! ### Events and steps -/

/-- R245. An event in which the block may not emit leaves the stream alone, or resets the device. -/
theorem react_reports {e : Event} {s t : State} (he : mayEmit e = false) (h : react e s = .next t) :
    t.justReset ∨ t.reports = s.reports := by
  cases e with
  | request c w => exact .inr (runWord_reports (s := { s with sel := c }) (fun _ => exec_reports_of_sop) h)
  | motion c w => cases he
  | report w => exact .inr (runWord_reports (fun _ => exec_reports_of_rw) h)
  | env e =>
    cases e with
    | command | byte | proceed => cases he
    | transportError | framingError | line | drain | advance => cases h; exact .inr rfl
    | tick => cases h; exact .inr (startPass_reports s)
    | watch c => cases h; exact .inr (watch_reports s c)
    | encode => cases h; exact .inr (encodeNext_reports s)
    | powerUp => cases h; exact .inl s.deviceReset_justReset

theorem mayEmit_or_tick_of_waitsForPass {e : Event} (h : waitsForPass e = true) : mayEmit e = true ∨ e = .env .tick := by
  cases e with
  | request | motion | report => cases h
  | env e =>
    cases e with
    | command | byte => exact .inl rfl
    | tick => exact .inr rfl
    | _ => cases h

/-- R245. When a step may write the report stream: it resets the device, its event is one in which the block may emit, or the
event is a tick that waits while the pass in progress goes on by one channel step. -/
theorem step_reports {s t : State} (h : step s = .next t) :
    t.justReset ∨ t.reports = s.reports ∨
      (mayEmit s.nextEvent = true ∨ (s.passAt.isSome = true ∧ s.nextEvent = .env .tick)) := by
  unfold step transition at h
  split at h
  · next hwait =>
    obtain ⟨hpass, hevent⟩ := hwait
    have hemit := mayEmit_or_tick_of_waitsForPass hevent
    exact .inr (.inr (hemit.imp_right fun htick => ⟨hpass, htick⟩))
  · cases hemit : mayEmit s.nextEvent with
    | true => exact .inr (.inr (.inl rfl))
    | false =>
      obtain ⟨⟨-, -, -, -, -, hreports, -⟩, -⟩ := takeEvent_sameBlock s
      rcases react_reports hemit h with hreset | hsame
      · exact .inl hreset
      · exact .inr (.inl (hsame.trans hreports))

/-- R4. No step changes the build or the number of channels. -/
theorem ResetOrEffect.build {s t : State} (h : ResetOrEffect s t) :
    t.cfg = s.cfg ∧ t.chans.length = s.chans.length := by
  rcases h with ⟨u, ⟨hcfg, hchans, -⟩, rfl⟩ | heffect
  · exact ⟨hcfg, by rw [deviceReset_length, hchans]⟩
  · obtain ⟨c, htouch⟩ := heffect.chans
    exact ⟨heffect.cfg, htouch.length⟩

/-- Settles O58: what an effect emits, and its time and latch, are fields of `Effect`; in which events the stream is written
at all is `step_reports`. -/
theorem stepMonotone : Obligations.StepMonotone := by
  intro s t hstep
  have hcases := step_resetOrEffect hstep
  obtain ⟨hcfg, hlen⟩ := hcases.build
  refine ⟨hcfg, hlen, ?_⟩
  rcases hcases with ⟨u, -, rfl⟩ | heffect
  · exact .inl u.deviceReset_justReset
  · rcases step_reports hstep with hreset | hsource
    · exact .inl hreset
    · obtain ⟨rs, happend, hone, hshows⟩ := heffect.reports
      refine .inr ⟨⟨rs, happend, hone, hshows, fun hne => ?_⟩, heffect.now, heffect.fatal⟩
      refine hsource.resolve_left fun hsame => hne ?_
      rwa [happend, List.append_right_eq_self] at hsame

end Sys2Proof.Machine
end

section
/-! Encoding and decoding are inverse on well-formed instructions (R96 to R102): first the fields of each word form read back,
then one case per row of the opcode table. -/

namespace Sys2Proof

open Laws

/-! ### The fields of each word form -/

section CommandFields

variable (op : BitVec 3) (c pos tilt : U8) (fc : U32) (r : Option Bool) (ft : Option U32) (sg p t : Option U8)

@[simp] theorem encodeChannelCw_channel : (encodeChannelCw op c).extractLsb' 3 8 = c := by
  simp (disch := omega) [encodeChannelCw, extract_or, extract_place_same, extract_place_below]
@[simp] theorem encodeChannelCw_rest : (encodeChannelCw op c).extractLsb' 11 92 = 0#92 := by
  simp (disch := omega) [encodeChannelCw, extract_or, extract_place_below]

/-- R98. The four fields that are always present. -/
theorem encodeSetup_operands :
    (encodeSetup c pos tilt fc r ft sg).extractLsb' 3 8 = c ∧ (encodeSetup c pos tilt fc r ft sg).extractLsb' 11 8 = pos ∧
      (encodeSetup c pos tilt fc r ft sg).extractLsb' 19 8 = tilt ∧
      (encodeSetup c pos tilt fc r ft sg).extractLsb' 27 32 = fc := by
  refine ⟨?_, ?_, ?_, ?_⟩ <;>
    simp (disch := omega) [encodeSetup, extract_or, extract_place_same, extract_place_below, extract_place_above,
      extract_placeBit_outside]
/-- R98. The three presence bits and the value bit of `reverse`. -/
theorem encodeSetup_bits :
    (encodeSetup c pos tilt fc r ft sg).getLsbD 59 = r.isSome ∧
      (encodeSetup c pos tilt fc r ft sg).getLsbD 60 = r.getD false ∧
      (encodeSetup c pos tilt fc r ft sg).getLsbD 61 = ft.isSome ∧
      (encodeSetup c pos tilt fc r ft sg).getLsbD 94 = sg.isSome := by
  refine ⟨?_, ?_, ?_, ?_⟩ <;>
    simp (disch := omega) [encodeSetup, -BitVec.getLsbD_eq_getElem, placeBit_getLsbD, place_getLsbD_outside]
/-- R98. The two optional fields that are wider than a bit. -/
theorem encodeSetup_optional :
    (encodeSetup c pos tilt fc r ft sg).extractLsb' 62 32 = ft.getD 0#32 ∧
      (encodeSetup c pos tilt fc r ft sg).extractLsb' 95 8 = sg.getD 0#8 := by
  refine ⟨?_, ?_⟩ <;>
    simp (disch := omega) [encodeSetup, extract_or, extract_place_same, extract_place_below, extract_place_above,
      extract_placeBit_outside]

/-- R99. The presence bits. -/
theorem encodeSet_bits :
    (encodeSet c p t).getLsbD 11 = p.isSome ∧ (encodeSet c p t).getLsbD 20 = t.isSome := by
  refine ⟨?_, ?_⟩ <;>
    simp (disch := omega) [encodeSet, -BitVec.getLsbD_eq_getElem, placeBit_getLsbD, place_getLsbD_outside]
/-- R99. The fields, and that the bits above them are zero. -/
theorem encodeSet_fields :
    (encodeSet c p t).extractLsb' 3 8 = c ∧ (encodeSet c p t).extractLsb' 12 8 = p.getD 0#8 ∧
      (encodeSet c p t).extractLsb' 21 8 = t.getD 0#8 ∧ (encodeSet c p t).extractLsb' 29 74 = 0#74 := by
  refine ⟨?_, ?_, ?_, ?_⟩ <;>
    simp (disch := omega) [encodeSet, extract_or, extract_place_same, extract_place_below, extract_place_above,
      extract_placeBit_outside]

end CommandFields

section SequencerFields

variable (sop : BitVec 4) (a b : U8) (n fc v : U32) (ft : Option U32)

@[simp] theorem encodeNew_fullCycle : (encodeNew fc ft).extractLsb' 4 32 = fc := by
  simp (disch := omega) [encodeNew, extract_or, extract_place_same, extract_place_below, extract_place_above,
    extract_placeBit_outside]
theorem encodeNew_present : (encodeNew fc ft).getLsbD 36 = ft.isSome := by
  simp (disch := omega) [encodeNew, -BitVec.getLsbD_eq_getElem, placeBit_getLsbD, place_getLsbD_outside]
@[simp] theorem encodeNew_fullTilt : (encodeNew fc ft).extractLsb' 37 32 = ft.getD 0#32 := by
  simp (disch := omega) [encodeNew, extract_or, extract_place_same, extract_place_below, extract_placeBit_outside]

@[simp] theorem encodeNewVenetian_fullCycle : (encodeNewVenetian fc v).extractLsb' 4 32 = fc := by
  simp (disch := omega) [encodeNewVenetian, extract_or, extract_place_same, extract_place_below, extract_place_above,
    extract_placeBit_outside]
theorem encodeNewVenetian_present : (encodeNewVenetian fc v).getLsbD 36 = true := by
  simp (disch := omega) [encodeNewVenetian, -BitVec.getLsbD_eq_getElem, placeBit_getLsbD, place_getLsbD_outside]
@[simp] theorem encodeNewVenetian_fullTilt : (encodeNewVenetian fc v).extractLsb' 37 32 = v := by
  simp (disch := omega) [encodeNewVenetian, extract_or, extract_place_same, extract_place_below, extract_placeBit_outside]

@[simp] theorem encodeBareSop_rest : (encodeBareSop sop).extractLsb' 4 65 = 0#65 := by
  simp (disch := omega) [encodeBareSop, extract_place_below]

@[simp] theorem encodeWordSop_operand : (encodeWordSop sop n).extractLsb' 4 32 = n := by
  simp (disch := omega) [encodeWordSop, extract_or, extract_place_same, extract_place_below]
@[simp] theorem encodeWordSop_rest : (encodeWordSop sop n).extractLsb' 36 33 = 0#33 := by
  simp (disch := omega) [encodeWordSop, extract_or, extract_place_below]

@[simp] theorem encodeByteSop_operand : (encodeByteSop sop a).extractLsb' 4 8 = a := by
  simp (disch := omega) [encodeByteSop, extract_or, extract_place_same, extract_place_below]
@[simp] theorem encodeByteSop_rest : (encodeByteSop sop a).extractLsb' 12 57 = 0#57 := by
  simp (disch := omega) [encodeByteSop, extract_or, extract_place_below]

@[simp] theorem encodeBytePairSop_first : (encodeBytePairSop sop a b).extractLsb' 4 8 = a := by
  simp (disch := omega) [encodeBytePairSop, extract_or, extract_place_same, extract_place_below, extract_place_above]
@[simp] theorem encodeBytePairSop_second : (encodeBytePairSop sop a b).extractLsb' 12 8 = b := by
  simp (disch := omega) [encodeBytePairSop, extract_or, extract_place_same, extract_place_below]
@[simp] theorem encodeBytePairSop_rest : (encodeBytePairSop sop a b).extractLsb' 20 49 = 0#49 := by
  simp (disch := omega) [encodeBytePairSop, extract_or, extract_place_below]

end SequencerFields

section MotionAndReportFields

variable (quality : BitVec 2) (q : U32) (p t c cp ct dp dt v : U8)

@[simp] theorem encodeMotion_quantity : (encodeMotion quality q p t).extractLsb' 0 32 = q := by
  simp (disch := omega) [encodeMotion, extract_or, extract_place_same, extract_place_above]
@[simp] theorem encodeMotion_position : (encodeMotion quality q p t).extractLsb' 32 8 = p := by
  simp (disch := omega) [encodeMotion, extract_or, extract_place_same, extract_place_below, extract_place_above]
@[simp] theorem encodeMotion_tilt : (encodeMotion quality q p t).extractLsb' 40 8 = t := by
  simp (disch := omega) [encodeMotion, extract_or, extract_place_same, extract_place_below, extract_place_above]

/-- R101, kind POSITION. -/
theorem encodePosition_fields :
    (encodePosition c cp ct dp dt).extractLsb' 2 8 = c ∧ (encodePosition c cp ct dp dt).extractLsb' 10 8 = cp ∧
      (encodePosition c cp ct dp dt).extractLsb' 18 8 = ct ∧ (encodePosition c cp ct dp dt).extractLsb' 26 8 = dp ∧
      (encodePosition c cp ct dp dt).extractLsb' 34 8 = dt := by
  refine ⟨?_, ?_, ?_, ?_, ?_⟩ <;>
    simp (disch := omega) [encodePosition, extract_or, extract_place_same, extract_place_below, extract_place_above]

@[simp] theorem encodeStallGuard_channel : (encodeStallGuard c v).extractLsb' 2 8 = c := by
  simp (disch := omega) [encodeStallGuard, extract_or, extract_place_same, extract_place_below, extract_place_above]
@[simp] theorem encodeStallGuard_result : (encodeStallGuard c v).extractLsb' 10 8 = v := by
  simp (disch := omega) [encodeStallGuard, extract_or, extract_place_same, extract_place_below]
@[simp] theorem encodeStallGuard_rest : (encodeStallGuard c v).extractLsb' 18 24 = 0#24 := by
  simp (disch := omega) [encodeStallGuard, extract_or, extract_place_below]

end MotionAndReportFields

/-! ### The decoder's checks, when they pass -/

@[simp] theorem ifZero_zero (n : Nat) (i : Instr) : ifZero (0#n) i = .ok i := if_pos rfl

theorem ifInRange_of_wellFormed {i : Instr} (h : i.wellFormed = true) : ifInRange i = .ok i := if_pos h

@[simp] theorem ifZeroInRange_zero (n : Nat) (i : Instr) : ifZeroInRange (0#n) i = ifInRange i := if_pos rfl

/-! ### The round trip -/

theorem decodeSetup_encodeSetup (c p t : U8) (fc : U32) (r : Option Bool) (ft : Option U32) (sg : Option U8) :
    decodeSetup (encodeSetup c p t fc r ft sg) = .ok (.setup c p t fc r ft sg) := by
  obtain ⟨hc, hp, ht, hfc⟩ := encodeSetup_operands c p t fc r ft sg
  obtain ⟨hr, hrv, hft, hsg⟩ := encodeSetup_bits c p t fc r ft sg
  obtain ⟨hftv, hsgv⟩ := encodeSetup_optional c p t fc r ft sg
  simp only [decodeSetup, hc, hp, ht, hfc, hr, hrv, hft, hsg, hftv, hsgv, optFlag_presence, optField_presence]

theorem decodeSet_encodeSet (c : U8) (p t : Option U8) : decodeSet (encodeSet c p t) = .ok (.set c p t) := by
  obtain ⟨hp, ht⟩ := encodeSet_bits c p t
  obtain ⟨hc, hpv, htv, hrest⟩ := encodeSet_fields c p t
  simp only [decodeSet, hc, hp, ht, hpv, htv, hrest, optField_presence, ifZero_zero]

theorem decodeNew_encodeNew (fc : U32) (ft : Option U32) : decodeNew (encodeNew fc ft) = .ok (.new fc ft) := by
  simp only [decodeNew, encodeNew_fullCycle, encodeNew_present, encodeNew_fullTilt, optField_presence]

/-- R97 to R99. -/
theorem decode_encode_cw {i : Instr} (hp : i.port = .cw) : decode (encode i) = .ok i := by
  cases i with
  | reset | home | get | getSg => simp [encode, decode, decodeCw, selector_channelCw]
  | setup => simp [encode, decode, decodeCw, selector_setup, decodeSetup_encodeSetup]
  | set => simp [encode, decode, decodeCw, selector_set, decodeSet_encodeSet]
  | _ => cases hp

/-- R100. -/
theorem decode_encode_sop {i : Instr} (hp : i.port = .sop) (h : i.wellFormed = true) : decode (encode i) = .ok i := by
  cases i with
  | new => simp [encode, decode, decodeSop, selector_new, decodeNew_encodeNew]
  | newVenetian => simp [encode, decode, decodeSop, selector_newVenetian, encodeNewVenetian_present, -BitVec.getLsbD_eq_getElem]
  | newRoller | getNextInstructionGrouped => simp [encode, decode, decodeSop, selector_wordSop]
  | loadState | addTilt | setState =>
    simp [encode, decode, decodeSop, selector_bytePairSop, ifInRange_of_wellFormed h]
  | setPosition | setTilt => simp [encode, decode, decodeSop, selector_byteSop, ifInRange_of_wellFormed h]
  | getNextInstruction | trigEndstop | homeFullyOpened | homeFullyClosed | getCurrentState | getDesiredState =>
    simp [encode, decode, decodeSop, selector_bareSop]
  | _ => cases hp

/-- R96. -/
theorem decode_encode_miw {i : Instr} (hp : i.port = .miw) (h : i.wellFormed = true) : decode (encode i) = .ok i := by
  cases i with
  | extend | retract | hold => simp [encode, decode, decodeMiw, selector_motion, ifInRange_of_wellFormed h]
  | _ => cases hp

/-- R101. -/
theorem decode_encode_rw {i : Instr} (hp : i.port = .rw) (h : i.wellFormed = true) : decode (encode i) = .ok i := by
  cases i with
  | ready => rfl
  | position c cp ct dp dt =>
    obtain ⟨hc, hcp, hct, hdp, hdt⟩ := encodePosition_fields c cp ct dp dt
    simp [encode, decode, decodeRw, selector_position, hc, hcp, hct, hdp, hdt, ifInRange_of_wellFormed h]
  | stallGuardResult => simp [encode, decode, decodeRw, selector_stallGuard]
  | _ => cases hp

/-- R102. The word of a well-formed instruction decodes to it, on every port. -/
theorem decode_encode {i : Instr} (h : i.wellFormed = true) : decode (encode i) = .ok i := by
  cases hp : i.port with
  | cw => exact decode_encode_cw hp
  | sop => exact decode_encode_sop hp h
  | miw => exact decode_encode_miw hp h
  | rw => exact decode_encode_rw hp h

end Sys2Proof
end

section
/-! Words laid out in bytes, least significant first (R69, D52), and the host's table words (log 10). -/

namespace Sys2Proof

/-! ### Bytes of a number -/

@[simp] theorem natToBytes_length (count w : Nat) : (natToBytes count w).length = count := by
  induction count generalizing w with
  | zero => rfl
  | succ count ih => simp [natToBytes, ih]

theorem bytesToNat_natToBytes {count w : Nat} (h : w < 256 ^ count) : bytesToNat (natToBytes count w) = w := by
  induction count generalizing w with
  | zero => exact (Nat.lt_one_iff.1 h).symm
  | succ count ih =>
    have hrest : w / 256 < 256 ^ count := Nat.div_lt_of_lt_mul (by rwa [Nat.pow_succ'] at h)
    simp only [natToBytes, bytesToNat, ih hrest, BitVec.toNat_ofNat]
    omega

/-! ### Words of a port -/

theorem PortWord.toNat_lt (w : PortWord) : w.toNat < 2 ^ w.port.width := by
  cases w with
  | cw w | sop w | miw w | rw w => exact w.isLt

/-- A port's words fit its whole bytes. -/
theorem Port.two_pow_width_le (p : Port) : 2 ^ p.width ≤ 256 ^ p.bytes := by cases p <;> decide

@[simp] theorem Port.word_toNat (w : PortWord) : w.port.word w.toNat = w := by
  cases w with
  | cw w | sop w | miw w | rw w => simp [PortWord.port, Port.word, PortWord.toNat]

/-- R69, D52. A word laid out in bytes is read back. -/
theorem wordOfBytes_wordToBytes (w : PortWord) : wordOfBytes w.port (wordToBytes w) = .ok w := by
  have hlt := w.toNat_lt
  have hread : bytesToNat (wordToBytes w) = w.toNat :=
    bytesToNat_natToBytes (Nat.lt_of_lt_of_le hlt w.port.two_pow_width_le)
  have hlen : (wordToBytes w).length = w.port.bytes := natToBytes_length _ _
  rw [wordOfBytes, hread, if_pos ⟨hlen, hlt⟩, Port.word_toNat]

theorem decodeBytes_wordToBytes (w : PortWord) : decodeBytes w.port (wordToBytes w) = decode w := by
  rw [decodeBytes, wordOfBytes_wordToBytes]

/-! ### Table words -/

/-- The four widths in whole bytes are distinct from each other and from the exact widths: each names its port. -/
theorem candidatePorts_bytes (p : Port) : candidatePorts (8 * p.bytes) = [p] := by cases p <;> decide

theorem decodeOn_toNat {w : PortWord} {i : Instr} (h : decode w = .ok i) : decodeOn w.toNat w.port = some i := by
  have hbytes : decodeBytes w.port (natToBytes w.port.bytes w.toNat) = .ok i := (decodeBytes_wordToBytes w).trans h
  rw [decodeOn, hbytes]

theorem decodeTableWord_toNat {w : PortWord} {i : Instr} (h : decode w = .ok i) :
    decodeTableWord (8 * w.port.bytes) w.toNat = some i := by
  have hon := decodeOn_toNat h
  have hlt : w.toNat < 2 ^ (8 * w.port.bytes) := by
    rw [Nat.pow_mul]
    exact Nat.lt_of_lt_of_le w.toNat_lt w.port.two_pow_width_le
  have hport : tableWordPort (8 * w.port.bytes) w.toNat = some w.port := by
    rw [tableWordPort, if_pos hlt, candidatePorts_bytes, List.find?_cons_of_pos (by simp [hon])]
  rw [decodeTableWord, hport]
  exact hon

/-- Settles O3: laying a word out and reading it back is the identity on words, so both readers come down to `decode_encode`. -/
theorem bytesDecode : Obligations.BytesDecode := by
  intro i h
  have hdecode := decode_encode h
  rw [decode_port hdecode]
  exact ⟨(decodeBytes_wordToBytes _).trans hdecode, decodeTableWord_toNat hdecode⟩

end Sys2Proof
end

section
/-! Steps on the presented words, and where the inner ports stop by name. -/

namespace Sys2Proof.Machine

open Host

/-! ### Presented words -/

theorem applyWord_of_decode {w : BitVec 103} {i : Instr} (h : decode (.cw w) = .ok i) (s : State) :
    applyWord w s = exec i s := by
  rw [applyWord, h]

theorem runWord_of_decode {w : PortWord} {i : Instr} (h : decode w = .ok i) (s : State) : runWord w s = exec i s := by
  rw [runWord, h]

/-- Settles O6: the step is the reaction to the first placed event, and the reaction to a word is its decoded instruction's
meaning; only a command waits for a pass. -/
theorem stepRunsDecoded : Obligations.StepRunsDecoded := by
  refine ⟨?command, ?request, ?motion, ?report⟩
  case command =>
    intro s w rest i hin hpass hdecode
    exact (step_of_input hin (.inl hpass)).trans (applyWord_of_decode hdecode _)
  case request =>
    intro s c w rest i hin hdecode
    exact (step_of_input hin (.inr rfl)).trans (runWord_of_decode hdecode _)
  case motion =>
    intro s c w rest i hin hdecode
    exact (step_of_input hin (.inr rfl)).trans (runWord_of_decode hdecode _)
  case report =>
    intro s w rest i hin hdecode
    exact (step_of_input hin (.inr rfl)).trans (runWord_of_decode hdecode _)

/-! ### Operands out of range -/

theorem ifRange_of_true {ok : Bool} (h : ok = true) (run : Outcome State Fault Refusal) : ifRange ok run = run := if_pos h

theorem ifRange_of_false {ok : Bool} (h : ok = false) (run : Outcome State Fault Refusal) :
    ifRange ok run = .refused .operandRange := by
  rw [ifRange, h, if_neg Bool.false_ne_true]

/-- R20. An instruction that is not well-formed is refused, whatever the state. -/
theorem exec_of_not_wellFormed {i : Instr} (h : i.wellFormed = false) (s : State) : exec i s = .refused .operandRange := by
  cases i with
  | loadState | setPosition | setTilt | addTilt | setState => exact ifRange_of_false h _
  | extend | retract | hold => exact ifRange_of_false h _
  | position => exact ifRange_of_false h _
  | _ => cases h

/-! ### A channel that does not exist -/

section NoChannel

variable {s : State} (hrun : s.halted = false) (hnone : s.chan? s.sel = none)

include hrun hnone

theorem seqRequest_noSuchChannel (f : Params → Sequencer → Sequencer) : seqRequest f s = .fault (.noSuchChannel s.sel) := by
  simp [seqRequest, hrun, hnone]

theorem seqRead_noSuchChannel (f : Sequencer → WState) : seqRead f s = .fault (.noSuchChannel s.sel) := by
  simp [seqRead, hrun, hnone]

theorem seqFetch_noSuchChannel (f : Params → Sequencer → Except FatalCode (Option Motion) × Sequencer) :
    seqFetch f s = .fault (.noSuchChannel s.sel) := by
  simp [seqFetch, hrun, hnone]

theorem motionRequest_noSuchChannel (m : Motion) : motionRequest m s = .fault (.noSuchChannel s.sel) := by
  simp [motionRequest, hrun, hnone]

/-- R68. Every well-formed instruction of the sequencer port and of the motion port needs the selected channel. -/
theorem exec_noSuchChannel {i : Instr} (hp : i.port = .sop ∨ i.port = .miw) (h : i.wellFormed = true) :
    exec i s = .fault (.noSuchChannel s.sel) := by
  cases i with
  | reset | home | setup | set | get | getSg => rcases hp with hp | hp <;> cases hp
  | ready | position | stallGuardResult => rcases hp with hp | hp <;> cases hp
  | new fc ft => exact seqRequest_noSuchChannel hrun hnone fun p _ => newSequencer p fc ft
  | newRoller fc => exact seqRequest_noSuchChannel hrun hnone fun p _ => newSequencer p fc none
  | newVenetian fc ft => exact seqRequest_noSuchChannel hrun hnone fun p _ => newSequencer p fc (some ft)
  | trigEndstop | homeFullyOpened | homeFullyClosed => exact seqRequest_noSuchChannel hrun hnone _
  | loadState | setPosition | setTilt | addTilt | setState =>
    exact (ifRange_of_true h _).trans (seqRequest_noSuchChannel hrun hnone _)
  | getNextInstruction => exact seqFetch_noSuchChannel hrun hnone fetchOne
  | getNextInstructionGrouped th => exact seqFetch_noSuchChannel hrun hnone fun p => getNextGrouped p th
  | getCurrentState | getDesiredState => exact seqRead_noSuchChannel hrun hnone _
  | extend | retract | hold => exact (ifRange_of_true h _).trans (motionRequest_noSuchChannel hrun hnone _)

end NoChannel

/-- Settles O35: an operand is checked before the channel, and a well-formed instruction stops at the missing channel. -/
theorem innerPortStops : Obligations.InnerPortStops := by
  intro i s hfatal
  refine ⟨fun hp hwf hsel => ?_, fun hwf => exec_of_not_wellFormed hwf s⟩
  have hrun : s.halted = false := by rw [State.halted, hfatal]; rfl
  have hnone : s.chan? s.sel = none := List.getElem?_eq_none hsel
  exact exec_noSuchChannel hrun hnone hp hwf

end Sys2Proof.Machine
end


section
/-! A word is determined by its fields: what decodes is re-encoded to the very word (R96 to R102). First what each part of
the decoder accepts, then the fields of each word form put together again. -/

namespace Sys2Proof

open Laws

/-! ### What the decoder's checks accept -/

theorem ifZero_ok_iff {n : Nat} {rest : BitVec n} {i j : Instr} : ifZero rest i = .ok j ↔ rest = 0#n ∧ i = j := by
  by_cases h : rest = 0#n <;> simp [ifZero, h]

theorem ifInRange_ok_iff {i j : Instr} : ifInRange i = .ok j ↔ i.wellFormed = true ∧ i = j := by
  by_cases h : i.wellFormed = true <;> simp [ifInRange, h]

theorem ifZeroInRange_ok_iff {n : Nat} {rest : BitVec n} {i j : Instr} :
    ifZeroInRange rest i = .ok j ↔ rest = 0#n ∧ i.wellFormed = true ∧ i = j := by
  by_cases h : rest = 0#n <;> simp [ifZeroInRange, h, ifInRange_ok_iff]

/-- R95. An optional field holds the presence bit and the value, and nothing else. -/
theorem optField_ok_iff {n : Nat} {present : Bool} {v : BitVec n} {o : Option (BitVec n)} :
    optField present v = .ok o ↔ o.isSome = present ∧ o.getD 0#n = v := by
  constructor
  · intro h
    unfold optField at h
    split at h
    · next hp => cases h; exact ⟨hp.symm, rfl⟩
    · next hp =>
      split at h <;> cases h
      next hv => exact ⟨(Bool.eq_false_of_not_eq_true hp).symm, hv.symm⟩
  · rintro ⟨rfl, rfl⟩
    exact optField_presence o

theorem optFlag_ok_iff {present v : Bool} {o : Option Bool} :
    optFlag present v = .ok o ↔ o.isSome = present ∧ o.getD false = v := by
  revert present v o
  decide

/-- R104. An optional field is legal unless a value stands without its presence bit. -/
theorem exists_optField_ok_iff {n : Nat} {present : Bool} {v : BitVec n} :
    (∃ o, optField present v = .ok o) ↔ (present = false → v = 0#n) := by
  cases present <;> by_cases h : v = 0#n <;> simp [optField, h]

theorem exists_optFlag_ok_iff {present v : Bool} :
    (∃ o, optFlag present v = .ok o) ↔ (present = false → v = false) := by
  cases present <;> cases v <;> simp [optFlag]

/-- R98. -/
theorem decodeSetup_ok_iff {w : BitVec 103} {i : Instr} :
    decodeSetup w = .ok i ↔ ∃ r ft sg, optFlag (w.getLsbD 59) (w.getLsbD 60) = .ok r ∧
      optField (w.getLsbD 61) (w.extractLsb' 62 32) = .ok ft ∧ optField (w.getLsbD 94) (w.extractLsb' 95 8) = .ok sg ∧
      .setup (w.extractLsb' 3 8) (w.extractLsb' 11 8) (w.extractLsb' 19 8) (w.extractLsb' 27 32) r ft sg = i := by
  unfold decodeSetup
  constructor
  · intro h
    split at h <;> cases h
    next r ft sg hr hft hsg => exact ⟨r, ft, sg, hr, hft, hsg, rfl⟩
  · rintro ⟨r, ft, sg, hr, hft, hsg, rfl⟩
    rw [hr, hft, hsg]

/-- R99. -/
theorem decodeSet_ok_iff {w : BitVec 103} {i : Instr} :
    decodeSet w = .ok i ↔ ∃ p t, optField (w.getLsbD 11) (w.extractLsb' 12 8) = .ok p ∧
      optField (w.getLsbD 20) (w.extractLsb' 21 8) = .ok t ∧ w.extractLsb' 29 74 = 0#74 ∧
      .set (w.extractLsb' 3 8) p t = i := by
  unfold decodeSet
  constructor
  · intro h
    split at h
    · next p t hp ht => exact ⟨p, t, hp, ht, ifZero_ok_iff.1 h⟩
    · cases h
  · rintro ⟨p, t, hp, ht, hrest⟩
    rw [hp, ht]
    exact ifZero_ok_iff.2 hrest

/-- R100, SOP `NEW`. -/
theorem decodeNew_ok_iff {w : BitVec 69} {i : Instr} :
    decodeNew w = .ok i ↔ ∃ ft, optField (w.getLsbD 36) (w.extractLsb' 37 32) = .ok ft ∧
      .new (w.extractLsb' 4 32) ft = i := by
  unfold decodeNew
  constructor
  · intro h
    split at h <;> cases h
    next ft hft => exact ⟨ft, hft, rfl⟩
  · rintro ⟨ft, hft, rfl⟩
    rw [hft]

/-! ### A word is its fields, put together -/

/-- The two words have the same bits below `n`. -/
def AgreeBelow {k : Nat} (v w : BitVec k) (n : Nat) : Prop := ∀ b, b < n → v.getLsbD b = w.getLsbD b

section Fields

variable {k n m : Nat} {v w : BitVec k}

theorem AgreeBelow.zero : AgreeBelow v w 0 := fun _ hb => absurd hb (Nat.not_lt_zero _)

/-- One more field, of `m` bits. -/
theorem AgreeBelow.field (h : AgreeBelow v w n) (hf : v.extractLsb' n m = w.extractLsb' n m) : AgreeBelow v w (n + m) := by
  intro b hb
  by_cases hlow : b < n
  · exact h b hlow
  · have hbit := congrArg (fun f => f.getLsbD (b - n)) hf
    simpa [show b - n < m by omega, show n + (b - n) = b by omega] using hbit

/-- One more bit. -/
theorem AgreeBelow.bit (h : AgreeBelow v w n) (hbit : v.getLsbD n = w.getLsbD n) : AgreeBelow v w (n + 1) := by
  intro b hb
  rcases Nat.lt_succ_iff_lt_or_eq.1 hb with hlow | rfl
  · exact h b hlow
  · exact hbit

theorem AgreeBelow.eq (h : AgreeBelow v w k) : v = w := BitVec.eq_of_getLsbD_eq fun b hb => h b hb

end Fields

section CommandWords

variable {w : BitVec 103}

/-- R97. -/
theorem encodeChannelCw_extract {op : BitVec 3} (hop : w.extractLsb' 0 3 = op) (hrest : w.extractLsb' 11 92 = 0#92) :
    encodeChannelCw op (w.extractLsb' 3 8) = w :=
  AgreeBelow.zero
    |>.field ((selector_channelCw _ _).trans hop.symm)
    |>.field (encodeChannelCw_channel _ _)
    |>.field ((encodeChannelCw_rest _ _).trans hrest.symm)
    |>.eq

/-- R98. -/
theorem encodeSetup_extract {r : Option Bool} {ft : Option U32} {sg : Option U8} (hop : w.extractLsb' 0 3 = 2#3)
    (hr : optFlag (w.getLsbD 59) (w.getLsbD 60) = .ok r) (hft : optField (w.getLsbD 61) (w.extractLsb' 62 32) = .ok ft)
    (hsg : optField (w.getLsbD 94) (w.extractLsb' 95 8) = .ok sg) :
    encodeSetup (w.extractLsb' 3 8) (w.extractLsb' 11 8) (w.extractLsb' 19 8) (w.extractLsb' 27 32) r ft sg = w := by
  obtain ⟨hrp, hrv⟩ := optFlag_ok_iff.1 hr
  obtain ⟨hftp, hftv⟩ := optField_ok_iff.1 hft
  obtain ⟨hsgp, hsgv⟩ := optField_ok_iff.1 hsg
  obtain ⟨hc, hp, ht, hfc⟩ := encodeSetup_operands (w.extractLsb' 3 8) (w.extractLsb' 11 8) (w.extractLsb' 19 8)
    (w.extractLsb' 27 32) r ft sg
  obtain ⟨b59, b60, b61, b94⟩ := encodeSetup_bits (w.extractLsb' 3 8) (w.extractLsb' 11 8) (w.extractLsb' 19 8)
    (w.extractLsb' 27 32) r ft sg
  obtain ⟨f62, f95⟩ := encodeSetup_optional (w.extractLsb' 3 8) (w.extractLsb' 11 8) (w.extractLsb' 19 8)
    (w.extractLsb' 27 32) r ft sg
  exact AgreeBelow.zero
    |>.field ((selector_setup _ _ _ _ _ _ _).trans hop.symm) |>.field hc |>.field hp |>.field ht |>.field hfc
    |>.bit (b59.trans hrp) |>.bit (b60.trans hrv)
    |>.bit (b61.trans hftp) |>.field (f62.trans hftv)
    |>.bit (b94.trans hsgp) |>.field (f95.trans hsgv)
    |>.eq

/-- R99. -/
theorem encodeSet_extract {p t : Option U8} (hop : w.extractLsb' 0 3 = 3#3)
    (hp : optField (w.getLsbD 11) (w.extractLsb' 12 8) = .ok p) (ht : optField (w.getLsbD 20) (w.extractLsb' 21 8) = .ok t)
    (hrest : w.extractLsb' 29 74 = 0#74) : encodeSet (w.extractLsb' 3 8) p t = w := by
  obtain ⟨hpp, hpv⟩ := optField_ok_iff.1 hp
  obtain ⟨htp, htv⟩ := optField_ok_iff.1 ht
  obtain ⟨b11, b20⟩ := encodeSet_bits (w.extractLsb' 3 8) p t
  obtain ⟨f3, f12, f21, f29⟩ := encodeSet_fields (w.extractLsb' 3 8) p t
  exact AgreeBelow.zero
    |>.field ((selector_set _ _ _).trans hop.symm) |>.field f3
    |>.bit (b11.trans hpp) |>.field (f12.trans hpv)
    |>.bit (b20.trans htp) |>.field (f21.trans htv)
    |>.field (f29.trans hrest.symm)
    |>.eq

end CommandWords

section SequencerWords

variable {w : BitVec 69} {sop : BitVec 4}

/-- R100, SOP `NEW`. -/
theorem encodeNew_extract {ft : Option U32} (hsop : w.extractLsb' 0 4 = 0#4)
    (hft : optField (w.getLsbD 36) (w.extractLsb' 37 32) = .ok ft) : encodeNew (w.extractLsb' 4 32) ft = w := by
  obtain ⟨hp, hv⟩ := optField_ok_iff.1 hft
  exact AgreeBelow.zero
    |>.field ((selector_new _ _).trans hsop.symm) |>.field (encodeNew_fullCycle _ _)
    |>.bit ((encodeNew_present _ _).trans hp) |>.field ((encodeNew_fullTilt _ _).trans hv)
    |>.eq

/-- R100, SOP `NEW_VENETIAN`. -/
theorem encodeNewVenetian_extract (hsop : w.extractLsb' 0 4 = 2#4) (hp : w.getLsbD 36 = true) :
    encodeNewVenetian (w.extractLsb' 4 32) (w.extractLsb' 37 32) = w :=
  AgreeBelow.zero
    |>.field ((selector_newVenetian _ _).trans hsop.symm) |>.field (encodeNewVenetian_fullCycle _ _)
    |>.bit ((encodeNewVenetian_present _ _).trans hp.symm) |>.field (encodeNewVenetian_fullTilt _ _)
    |>.eq

/-- R100. No operand. -/
theorem encodeBareSop_extract (hsop : w.extractLsb' 0 4 = sop) (hrest : w.extractLsb' 4 65 = 0#65) :
    encodeBareSop sop = w :=
  AgreeBelow.zero
    |>.field ((selector_bareSop _).trans hsop.symm)
    |>.field ((encodeBareSop_rest _).trans hrest.symm)
    |>.eq

/-- R100. One `u32` operand. -/
theorem encodeWordSop_extract (hsop : w.extractLsb' 0 4 = sop) (hrest : w.extractLsb' 36 33 = 0#33) :
    encodeWordSop sop (w.extractLsb' 4 32) = w :=
  AgreeBelow.zero
    |>.field ((selector_wordSop _ _).trans hsop.symm) |>.field (encodeWordSop_operand _ _)
    |>.field ((encodeWordSop_rest _ _).trans hrest.symm)
    |>.eq

/-- R100. One byte operand. -/
theorem encodeByteSop_extract (hsop : w.extractLsb' 0 4 = sop) (hrest : w.extractLsb' 12 57 = 0#57) :
    encodeByteSop sop (w.extractLsb' 4 8) = w :=
  AgreeBelow.zero
    |>.field ((selector_byteSop _ _).trans hsop.symm) |>.field (encodeByteSop_operand _ _)
    |>.field ((encodeByteSop_rest _ _).trans hrest.symm)
    |>.eq

/-- R100. Two byte operands. -/
theorem encodeBytePairSop_extract (hsop : w.extractLsb' 0 4 = sop) (hrest : w.extractLsb' 20 49 = 0#49) :
    encodeBytePairSop sop (w.extractLsb' 4 8) (w.extractLsb' 12 8) = w :=
  AgreeBelow.zero
    |>.field ((selector_bytePairSop _ _ _).trans hsop.symm) |>.field (encodeBytePairSop_first _ _ _)
    |>.field (encodeBytePairSop_second _ _ _) |>.field ((encodeBytePairSop_rest _ _ _).trans hrest.symm)
    |>.eq

end SequencerWords

/-- R96. -/
theorem encodeMotion_extract {w : BitVec 50} {quality : BitVec 2} (hq : w.extractLsb' 48 2 = quality) :
    encodeMotion quality (w.extractLsb' 0 32) (w.extractLsb' 32 8) (w.extractLsb' 40 8) = w :=
  AgreeBelow.zero
    |>.field (encodeMotion_quantity _ _ _ _) |>.field (encodeMotion_position _ _ _ _) |>.field (encodeMotion_tilt _ _ _ _)
    |>.field ((selector_motion _ _ _ _).trans hq.symm)
    |>.eq

section ReportWords

variable {w : BitVec 42}

/-- R101, kind READY: all bits are zero. -/
theorem readyWord_extract (hkind : w.extractLsb' 0 2 = 0#2) (hrest : w.extractLsb' 2 40 = 0#40) : 0#42 = w :=
  AgreeBelow.zero
    |>.field (BitVec.extractLsb'_zero.trans hkind.symm) |>.field (BitVec.extractLsb'_zero.trans hrest.symm)
    |>.eq

/-- R101, kind POSITION. -/
theorem encodePosition_extract (hkind : w.extractLsb' 0 2 = 1#2) :
    encodePosition (w.extractLsb' 2 8) (w.extractLsb' 10 8) (w.extractLsb' 18 8) (w.extractLsb' 26 8) (w.extractLsb' 34 8)
      = w := by
  obtain ⟨hc, hcp, hct, hdp, hdt⟩ := encodePosition_fields (w.extractLsb' 2 8) (w.extractLsb' 10 8) (w.extractLsb' 18 8)
    (w.extractLsb' 26 8) (w.extractLsb' 34 8)
  exact AgreeBelow.zero
    |>.field ((selector_position _ _ _ _ _).trans hkind.symm)
    |>.field hc |>.field hcp |>.field hct |>.field hdp |>.field hdt
    |>.eq

/-- R101, kind STALL_GUARD_RESULT. -/
theorem encodeStallGuard_extract (hkind : w.extractLsb' 0 2 = 2#2) (hrest : w.extractLsb' 18 24 = 0#24) :
    encodeStallGuard (w.extractLsb' 2 8) (w.extractLsb' 10 8) = w :=
  AgreeBelow.zero
    |>.field ((selector_stallGuard _ _).trans hkind.symm) |>.field (encodeStallGuard_channel _ _)
    |>.field (encodeStallGuard_result _ _) |>.field ((encodeStallGuard_rest _ _).trans hrest.symm)
    |>.eq

end ReportWords

/-! ### What decodes is re-encoded to its word, port by port -/

/-- What a decoder's answer `i` to the word `w` must satisfy. -/
abbrev Reencodes (w : PortWord) (i : Instr) : Prop := i.wellFormed = true ∧ (i ≠ .reset → encode i = w)

/-- R97 to R99. -/
theorem reencodes_of_decodeCw {w : BitVec 103} {i : Instr} (h : decodeCw w = .ok i) : Reencodes (.cw w) i := by
  unfold decodeCw at h
  split at h
  case h_1 => cases h; exact ⟨rfl, fun hne => absurd rfl hne⟩
  case h_2 | h_5 | h_6 =>
    next hop =>
      obtain ⟨hrest, rfl⟩ := ifZero_ok_iff.1 h
      exact ⟨rfl, fun _ => congrArg PortWord.cw (encodeChannelCw_extract (BitVec.eq_of_toNat_eq hop) hrest)⟩
  case h_3 hop =>
    obtain ⟨r, ft, sg, hr, hft, hsg, rfl⟩ := decodeSetup_ok_iff.1 h
    exact ⟨rfl, fun _ => congrArg PortWord.cw (encodeSetup_extract (BitVec.eq_of_toNat_eq hop) hr hft hsg)⟩
  case h_4 hop =>
    obtain ⟨p, t, hp, ht, hrest, rfl⟩ := decodeSet_ok_iff.1 h
    exact ⟨rfl, fun _ => congrArg PortWord.cw (encodeSet_extract (BitVec.eq_of_toNat_eq hop) hp ht hrest)⟩
  case h_7 => cases h

/-- R100. -/
theorem reencodes_of_decodeSop {w : BitVec 69} {i : Instr} (h : decodeSop w = .ok i) : Reencodes (.sop w) i := by
  unfold decodeSop at h
  split at h
  case h_1 hsop =>
    obtain ⟨ft, hft, rfl⟩ := decodeNew_ok_iff.1 h
    exact ⟨rfl, fun _ => congrArg PortWord.sop (encodeNew_extract (BitVec.eq_of_toNat_eq hsop) hft)⟩
  case h_3 hsop =>
    split at h <;> cases h
    next hp => exact ⟨rfl, fun _ => congrArg PortWord.sop (encodeNewVenetian_extract (BitVec.eq_of_toNat_eq hsop) hp)⟩
  case h_2 | h_10 =>
    next hsop =>
      obtain ⟨hrest, rfl⟩ := ifZero_ok_iff.1 h
      exact ⟨rfl, fun _ => congrArg PortWord.sop (encodeWordSop_extract (BitVec.eq_of_toNat_eq hsop) hrest)⟩
  case h_4 | h_7 | h_8 =>
    next hsop =>
      obtain ⟨hrest, hwf, rfl⟩ := ifZeroInRange_ok_iff.1 h
      exact ⟨hwf, fun _ => congrArg PortWord.sop (encodeBytePairSop_extract (BitVec.eq_of_toNat_eq hsop) hrest)⟩
  case h_5 | h_6 =>
    next hsop =>
      obtain ⟨hrest, hwf, rfl⟩ := ifZeroInRange_ok_iff.1 h
      exact ⟨hwf, fun _ => congrArg PortWord.sop (encodeByteSop_extract (BitVec.eq_of_toNat_eq hsop) hrest)⟩
  case h_9 | h_11 | h_12 | h_13 | h_14 | h_15 =>
    next hsop =>
      obtain ⟨hrest, rfl⟩ := ifZero_ok_iff.1 h
      exact ⟨rfl, fun _ => congrArg PortWord.sop (encodeBareSop_extract (BitVec.eq_of_toNat_eq hsop) hrest)⟩
  case h_16 => cases h

/-- R96. -/
theorem reencodes_of_decodeMiw {w : BitVec 50} {i : Instr} (h : decodeMiw w = .ok i) : Reencodes (.miw w) i := by
  unfold decodeMiw at h
  split at h
  case h_1 | h_2 | h_3 =>
    next hq =>
      obtain ⟨hwf, rfl⟩ := ifInRange_ok_iff.1 h
      exact ⟨hwf, fun _ => congrArg PortWord.miw (encodeMotion_extract (BitVec.eq_of_toNat_eq hq))⟩
  case h_4 => cases h

/-- R101. -/
theorem reencodes_of_decodeRw {w : BitVec 42} {i : Instr} (h : decodeRw w = .ok i) : Reencodes (.rw w) i := by
  unfold decodeRw at h
  split at h
  case h_1 hkind =>
    obtain ⟨hrest, rfl⟩ := ifZero_ok_iff.1 h
    exact ⟨rfl, fun _ => congrArg PortWord.rw (readyWord_extract (BitVec.eq_of_toNat_eq hkind) hrest)⟩
  case h_2 hkind =>
    obtain ⟨hwf, rfl⟩ := ifInRange_ok_iff.1 h
    exact ⟨hwf, fun _ => congrArg PortWord.rw (encodePosition_extract (BitVec.eq_of_toNat_eq hkind))⟩
  case h_3 hkind =>
    obtain ⟨hrest, rfl⟩ := ifZero_ok_iff.1 h
    exact ⟨rfl, fun _ => congrArg PortWord.rw (encodeStallGuard_extract (BitVec.eq_of_toNat_eq hkind) hrest)⟩
  case h_4 => cases h

/-- R102. On every port a word that decodes is the word of what it decodes to. -/
theorem reencodes_of_decode {w : PortWord} {i : Instr} (h : decode w = .ok i) : Reencodes w i := by
  cases w with
  | cw w => exact reencodes_of_decodeCw h
  | sop w => exact reencodes_of_decodeSop h
  | miw w => exact reencodes_of_decodeMiw h
  | rw w => exact reencodes_of_decodeRw h

/-- Settles O1: the fields of each word form read back (`decode_encode`). -/
theorem decodeEncode : Obligations.DecodeEncode := fun _ h => decode_encode h

/-- Settles O2: the fields the decoder reads from a word, and the bits it requires to be zero, cover the word. -/
theorem encodeDecode : Obligations.EncodeDecode := fun _ _ h => reencodes_of_decode h

end Sys2Proof
end

section
/-! Which words decode at all (R104), case by case of the selecting field, and what becomes of the others. -/

namespace Sys2Proof

open Machine

/-! ### Which words decode -/

/-- R97 to R99. -/
theorem exists_decodeCw_ok_iff (w : BitVec 103) : (∃ i, decodeCw w = .ok i) ↔ legalCw w := by
  have hops : ∀ op : BitVec 3, op = 0#3 ∨ op = 1#3 ∨ op = 2#3 ∨ op = 3#3 ∨ op = 4#3 ∨ op = 5#3 ∨ op = 6#3 ∨ op = 7#3 := by
    decide
  rcases hops (w.extractLsb' 0 3) with hop | hop | hop | hop | hop | hop | hop | hop
  case inr.inr.inl => -- SETUP
    simp [decodeCw, legalCw, hop, decodeSetup_ok_iff, ← exists_optField_ok_iff, ← exists_optFlag_ok_iff,
      -BitVec.getLsbD_eq_getElem]
  case inr.inr.inr.inl => -- SET
    simp [decodeCw, legalCw, hop, decodeSet_ok_iff, ← exists_optField_ok_iff, -BitVec.getLsbD_eq_getElem]
  all_goals simp [decodeCw, legalCw, hop, ifZero_ok_iff]

/-- R100. -/
theorem exists_decodeSop_ok_iff (w : BitVec 69) : (∃ i, decodeSop w = .ok i) ↔ legalSop w := by
  have hsops : ∀ sop : BitVec 4, sop = 0#4 ∨ sop = 1#4 ∨ sop = 2#4 ∨ sop = 3#4 ∨ sop = 4#4 ∨ sop = 5#4 ∨ sop = 6#4 ∨
      sop = 7#4 ∨ sop = 8#4 ∨ sop = 9#4 ∨ sop = 10#4 ∨ sop = 11#4 ∨ sop = 12#4 ∨ sop = 13#4 ∨ sop = 14#4 ∨ sop = 15#4 := by
    decide
  rcases hsops (w.extractLsb' 0 4) with h | h | h | h | h | h | h | h | h | h | h | h | h | h | h | h
  case inl => -- NEW
    simp [decodeSop, legalSop, h, decodeNew_ok_iff, ← exists_optField_ok_iff, -BitVec.getLsbD_eq_getElem]
  case inr.inr.inl => -- NEW_VENETIAN
    by_cases hp : w.getLsbD 36 = true <;> simp [decodeSop, legalSop, h, hp, -BitVec.getLsbD_eq_getElem]
  all_goals simp [decodeSop, legalSop, h, ifZero_ok_iff, ifZeroInRange_ok_iff, Instr.wellFormed]

/-- R96. -/
theorem exists_decodeMiw_ok_iff (w : BitVec 50) : (∃ i, decodeMiw w = .ok i) ↔ legalMiw w := by
  have hqualities : ∀ quality : BitVec 2, quality = 0#2 ∨ quality = 1#2 ∨ quality = 2#2 ∨ quality = 3#2 := by decide
  rcases hqualities (w.extractLsb' 48 2) with h | h | h | h <;>
    simp [decodeMiw, legalMiw, h, ifInRange_ok_iff, Instr.wellFormed]

/-- R101. -/
theorem exists_decodeRw_ok_iff (w : BitVec 42) : (∃ i, decodeRw w = .ok i) ↔ legalRw w := by
  have hkinds : ∀ kind : BitVec 2, kind = 0#2 ∨ kind = 1#2 ∨ kind = 2#2 ∨ kind = 3#2 := by decide
  rcases hkinds (w.extractLsb' 0 2) with h | h | h | h <;>
    simp [decodeRw, legalRw, h, ifZero_ok_iff, ifInRange_ok_iff, Instr.wellFormed, and_assoc]

/-! ### What becomes of a word that does not decode -/

theorem decode_error_of_not_exists {w : PortWord} (h : ¬ ∃ i, decode w = .ok i) : ∃ e, decode w = .error e := by
  cases hd : decode w with
  | ok i => exact absurd ⟨i, hd⟩ h
  | error e => exact ⟨e, rfl⟩

/-- R104. A word that does not decode leaves the state as it was at the command port. -/
theorem applyWord_of_not_exists {w : BitVec 103} (h : ¬ ∃ i, decode (.cw w) = .ok i) (s : State) :
    applyWord w s = .next s := by
  obtain ⟨e, he⟩ := decode_error_of_not_exists h
  rw [applyWord, he]

/-- R104. A word that does not decode is refused by name at an inner port. -/
theorem runWord_of_not_exists {w : PortWord} (h : ¬ ∃ i, decode w = .ok i) (s : State) :
    ∃ e, runWord w s = .refused (.illegalWord e) := by
  obtain ⟨e, he⟩ := decode_error_of_not_exists h
  exact ⟨e, by rw [runWord, he]⟩

/-- Settles O5: per port, legal means decodable, and an undecodable word is what the port's own rule says. -/
theorem illegalWords : Obligations.IllegalWords := by
  refine ⟨exists_decodeCw_ok_iff, exists_decodeSop_ok_iff, exists_decodeMiw_ok_iff, exists_decodeRw_ok_iff,
    fun w s h => ?command, fun w s h => ?request, fun w s h => ?motion, fun w s h => ?report⟩
  case command => exact applyWord_of_not_exists (mt (exists_decodeCw_ok_iff w).1 h) s
  case request => exact runWord_of_not_exists (w := .sop w) (mt (exists_decodeSop_ok_iff w).1 h) s
  case motion => exact runWord_of_not_exists (w := .miw w) (mt (exists_decodeMiw_ok_iff w).1 h) s
  case report => exact runWord_of_not_exists (w := .rw w) (mt (exists_decodeRw_ok_iff w).1 h) s

/-! ### Words the spec writes out -/

/-- For a word written out in full, the hypothesis on the encoder is an evaluation. -/
theorem decode_of_encode_eq {w : PortWord} {i : Instr} (h : encode i = w) (hwf : i.wellFormed = true) : decode w = .ok i :=
  h ▸ decode_encode hwf

/-- Settles O4: every written word is the encoding of the instruction beside it; the last two have reserved codes. -/
theorem writtenWordsDecode : Obligations.WrittenWordsDecode := by
  refine ⟨?_, ?_, ?_, ?_, ?_, ?_, ?_, ?_, ?_, ?_, ?_, ?_, ?_, ?_, ?_, by decide, by decide⟩
  all_goals exact decode_of_encode_eq (by decide) rfl

end Sys2Proof
end

section
/-! The host's placing of a table word (log 8, log 10): the word placed is the one the decoder read, and the next step runs
it. -/

namespace Sys2Proof

/-! ### The word that was read -/

/-- The lowest bytes of a number are the number, up to what they can hold. -/
theorem bytesToNat_natToBytes_eq_mod (count w : Nat) : bytesToNat (natToBytes count w) = w % 256 ^ count := by
  induction count generalizing w with
  | zero => simp [natToBytes, bytesToNat, Nat.mod_one]
  | succ count ih =>
    calc bytesToNat (natToBytes (count + 1) w)
        = w % 256 + 256 * (w / 256 % 256 ^ count) := by rw [natToBytes, bytesToNat, ih, BitVec.toNat_ofNat]
      _ = w % 256 ^ (count + 1) := by rw [Nat.pow_succ', Nat.mod_mul]

/-- A port's word does not change when its number is cut off at the port's whole bytes. -/
theorem Port.word_mod_bytes (p : Port) (w : Nat) : p.word (w % 256 ^ p.bytes) = p.word w := by
  have hcut : ∀ n, 2 ^ n ∣ 256 ^ p.bytes → BitVec.ofNat n (w % 256 ^ p.bytes) = BitVec.ofNat n w := by
    intro n hdvd
    apply BitVec.eq_of_toNat_eq
    rw [BitVec.toNat_ofNat, BitVec.toNat_ofNat, Nat.mod_mod_of_dvd w hdvd]
  cases p with
  | cw => exact congrArg PortWord.cw (hcut 103 (by decide))
  | sop => exact congrArg PortWord.sop (hcut 69 (by decide))
  | miw => exact congrArg PortWord.miw (hcut 50 (by decide))
  | rw => exact congrArg PortWord.rw (hcut 42 (by decide))

theorem decode_word_of_decodeOn {w : Nat} {p : Port} {i : Instr} (h : decodeOn w p = some i) :
    decode (p.word w) = .ok i := by
  unfold decodeOn at h
  split at h <;> cases h
  next hbytes =>
    unfold decodeBytes wordOfBytes at hbytes
    split at hbytes
    · next word hword =>
      split at hword <;> cases hword
      rwa [bytesToNat_natToBytes_eq_mod, Port.word_mod_bytes] at hbytes
    · cases hbytes

end Sys2Proof

namespace Sys2Proof.Machine

/-- Log 10. A table word from which an instruction is read is placed on the port it is read on. -/
theorem fetchWord_of_decodeTableWord {nbits w : Nat} {i : Instr} (h : decodeTableWord nbits w = some i) :
    ∃ word, fetchWord nbits w = some word ∧ decode word = .ok i := by
  unfold decodeTableWord at h
  split at h
  · next p hport => exact ⟨p.word w, by rw [fetchWord, hport], decode_word_of_decodeOn h⟩
  · cases h

/-! ### The step that runs it -/

/-- Log 3. The event that presents a word runs its instruction, with channel 0 selected on the two ports that need a channel. -/
theorem react_wordEvent {word : PortWord} {i : Instr} (h : decode word = .ok i) (s : State) :
    react (wordEvent word) s = exec i { s with sel := if i.port = .sop ∨ i.port = .miw then 0 else s.sel } := by
  rw [decode_port h]
  cases word with
  | cw w => exact applyWord_of_decode h s
  | sop w => exact runWord_of_decode h _
  | miw w => exact runWord_of_decode h _
  | rw w => exact runWord_of_decode h s

/-- Settles O7: the word placed decodes to what the host's decoder read, and it is the first event of a step between
passes. -/
theorem fetchRunsDecoded : Obligations.FetchRunsDecoded := by
  intro s nbits w i h
  obtain ⟨word, hword, hdecode⟩ := fetchWord_of_decodeTableWord h
  have hplaced : s.withFetchWord nbits w = s.withWord word := by rw [State.withFetchWord, hword]
  have hinputs : (s.withWord word).inputs = wordEvent word :: s.inputs := rfl
  rw [hplaced, step_of_input hinputs (.inl rfl)]
  exact react_wordEvent hdecode _

end Sys2Proof.Machine
end

section
/-! Reports as words and as what the protocol encoder takes (R91, R101), and the framing of the inbound stream (R90, R92). -/

namespace Sys2Proof.Machine

open Host

/-! ### The word of a report -/

theorem positionByte_toNat {s : WState} (h : s.inRange = true) : (positionByte s).toNat = s.position := by
  obtain ⟨hpos, -⟩ := (inRange_iff s).1 h
  rw [positionByte, BitVec.toNat_ofNat]
  omega

theorem tiltByte_toInt {s : WState} (h : s.inRange = true) : (tiltByte s).toInt = s.tilt := by
  obtain ⟨-, hlow, hhigh⟩ := (inRange_iff s).1 h
  rw [tiltByte, BitVec.toInt_ofInt, Int.bmod_eq_of_le] <;> omega

/-- R93. The two bytes of a state in range stand for the state. -/
theorem stateOf_bytes {s : WState} (h : s.inRange = true) : stateOf (positionByte s) (tiltByte s) = s := by
  rw [stateOf, positionOf, tiltOf, positionByte_toNat h, tiltByte_toInt h]

/-- R20. The two bytes of a state in range pass the operand checks. -/
theorem bytesOk_of_inRange {s : WState} (h : s.inRange = true) :
    positionOk (positionByte s) = true ∧ tiltOk (tiltByte s) = true := by
  rw [← Bool.and_eq_true, ← stateOf_inRange, stateOf_bytes h, h]

/-- R101. A report is presented as the word of its row. -/
theorem rw_reportWord (r : Report) : PortWord.rw (reportWord r) = encode (instrOfReport r) := by
  cases r with
  | ready | position | stallGuardResult => rfl

/-- What a report's word can carry: a channel of one byte, and states in range. -/
def Report.fits : Report → Prop
  | .ready => True
  | .position c cur des => c < 256 ∧ cur.inRange = true ∧ des.inRange = true
  | .stallGuardResult c _ => c < 256

theorem instrOfReport_wellFormed {r : Report} (h : r.fits) : (instrOfReport r).wellFormed = true := by
  cases r with
  | ready | stallGuardResult => rfl
  | position c cur des =>
    obtain ⟨-, hcur, hdes⟩ := h
    obtain ⟨hcp, hct⟩ := bytesOk_of_inRange hcur
    obtain ⟨hdp, hdt⟩ := bytesOk_of_inRange hdes
    simp [instrOfReport, Instr.wellFormed, hcp, hct, hdp, hdt]

theorem decode_reportWord {r : Report} (h : r.fits) : decode (.rw (reportWord r)) = .ok (instrOfReport r) := by
  rw [rw_reportWord]
  exact decode_encode (instrOfReport_wellFormed h)

theorem channelByte_toNat {c : Nat} (h : c < 256) : (BitVec.ofNat 8 c).toNat = c := by
  rw [BitVec.toNat_ofNat, Nat.mod_eq_of_lt h]

/-- Settles O41: the word is that of the report's row, whose bytes read back as the report's values. -/
theorem reportWords : Obligations.ReportWords := by
  refine ⟨decode_reportWord (r := .ready) trivial, fun c v hc => ?stall, fun c cur des hc hcur hdes => ?position⟩
  case stall => exact ⟨_, channelByte_toNat hc, decode_reportWord (r := .stallGuardResult c v) hc⟩
  case position =>
    exact ⟨_, _, _, _, _, channelByte_toNat hc, positionByte_toNat hcur, tiltByte_toInt hcur, positionByte_toNat hdes,
      tiltByte_toInt hdes, decode_reportWord (r := .position c cur des) ⟨hc, hcur, hdes⟩⟩

/-! ### What the encoder takes -/

/-- R101. A `POSITION` word in range is taken as the report of its values. -/
theorem exec_position {c cp ct dp dt : U8} (hcp : positionOk cp = true) (hct : tiltOk ct = true) (hdp : positionOk dp = true)
    (hdt : tiltOk dt = true) (s : State) :
    exec (.position c cp ct dp dt) s = .next (s.present (.position c.toNat (stateOf cp ct) (stateOf dp dt))) :=
  ifRange_of_true (by simp [hcp, hct, hdp, hdt]) _

/-- R101. The row of a report whose values fit is executed as the taking of that report. -/
theorem exec_instrOfReport {r : Report} (h : r.fits) (s : State) : exec (instrOfReport r) s = .next (s.present r) := by
  cases r with
  | ready => rfl
  | position c cur des =>
    obtain ⟨hc, hcur, hdes⟩ := h
    obtain ⟨hcp, hct⟩ := bytesOk_of_inRange hcur
    obtain ⟨hdp, hdt⟩ := bytesOk_of_inRange hdes
    rw [instrOfReport, exec_position hcp hct hdp hdt, channelByte_toNat hc, stateOf_bytes hcur, stateOf_bytes hdes]
  | stallGuardResult c v =>
    have hc : (BitVec.ofNat 8 c).toNat = c := channelByte_toNat h
    rw [instrOfReport, exec, execStallGuardResult, encodeReportWord, hc]

theorem encodeNext_of_none {s : State} (h : s.reports[s.taken]? = none) : s.encodeNext = s := by
  rw [State.encodeNext, h]

theorem encodeNext_of_some {s : State} {r : Report} (h : s.reports[s.taken]? = some r) :
    s.encodeNext = State.present { s with taken := s.taken + 1 } r := by
  rw [State.encodeNext, h]

/-- Settles O40: the three rows and the encode event come down to `State.present`, which appends to one list. -/
theorem reportsAppended : Obligations.ReportsAppended := by
  intro s
  refine ⟨rfl, fun c v => rfl, fun c cp ct dp dt hcp hct hdp hdt => ?row, fun h => ?drained, fun r h => ?taken,
    fun c cur des h hc hcur hdes => ?asRow⟩
  case row => exact exec_position hcp hct hdp hdt s
  case drained => exact congrArg Outcome.next (encodeNext_of_none h)
  case taken => exact congrArg Outcome.next (encodeNext_of_some h)
  case asRow =>
    have hfits : Report.fits (.position c cur des) := ⟨hc, hcur, hdes⟩
    exact (congrArg Outcome.next (encodeNext_of_some h)).trans (exec_instrOfReport hfits _).symm

/-! ### Frames -/

/-- R90. A length byte that is not zero opens the payload. -/
theorem readByte_length {s : State} {l : U8} (h : s.reader = .awaitLength) (hl : l ≠ 0#8) :
    readByte l s = .next { s with reader := .awaitPayload l.toNat [] } := by
  rw [readByte, h]
  exact if_neg hl

/-- R92. A byte that is not the last of its payload is collected. -/
theorem readByte_collect {s : State} {remaining : Nat} {payload : List U8} (h : s.reader = .awaitPayload remaining payload)
    (hmore : 1 < remaining) (b : U8) :
    readByte b s = .next { s with reader := .awaitPayload (remaining - 1) (payload ++ [b]) } := by
  rw [readByte, h]
  exact if_neg (Nat.not_le.2 hmore)

/-- R92. The last byte of a payload applies it, and a length is awaited again. -/
theorem readByte_last {s : State} {payload : List U8} (h : s.reader = .awaitPayload 1 payload) (b : U8) :
    readByte b s = applyPayload (payload ++ [b]) { s with reader := .awaitLength } := by
  rw [readByte, h]
  exact if_pos (Nat.le_refl 1)

/-- One byte of a run of bytes none of which may stop the machine. -/
def collectByte (s : State) (b : U8) : Option State :=
  match readByte b s with
  | .next t => some t
  | _ => none

/-- R92. Bytes fewer than the announced ones are collected one after the other. -/
theorem foldlM_collectByte {bytes : List U8} {remaining : Nat} (hmore : bytes.length < remaining) (s : State)
    (payload : List U8) :
    bytes.foldlM collectByte { s with reader := .awaitPayload remaining payload } =
      some { s with reader := .awaitPayload (remaining - bytes.length) (payload ++ bytes) } := by
  induction bytes generalizing remaining payload with
  | nil => simp
  | cons b bytes ih =>
    rw [List.length_cons] at hmore
    have hstep : collectByte { s with reader := .awaitPayload remaining payload } b =
        some { s with reader := .awaitPayload (remaining - 1) (payload ++ [b]) } := by
      rw [collectByte, readByte_collect rfl (by omega)]
    rw [List.foldlM_cons, hstep, Option.bind_eq_bind, Option.bind_some, ih (by omega), List.append_assoc,
      List.singleton_append, List.length_cons, Nat.sub_sub, Nat.add_comm 1]

/-- Settles O51: the length byte opens the payload, all but one byte are collected, and the last one closes it. -/
theorem framesCollected : Obligations.FramesCollected := by
  intro s l payload b hreader hl hlen
  have hcollect := foldlM_collectByte (bytes := payload) (remaining := l.toNat) (by omega) s []
  rw [← hlen, Nat.add_sub_cancel_left, List.nil_append, hlen] at hcollect
  have hawait : { s with reader := .awaitLength } = s := by rw [← hreader]
  refine ⟨_, readByte_length hreader hl, rfl, _, hcollect, ?_⟩
  rw [readByte_last rfl b]
  exact congrArg (applyPayload (payload ++ [b])) hawait

/-- Settles O52: 253 is the longest payload whose length byte, counting CR and LF, is a byte. -/
theorem outboundFrames : Obligations.OutboundFrames := by
  intro payload
  refine ⟨fun hshort => ⟨BitVec.ofNat 8 (payload.length + 2), channelByte_toNat (by omega), ?_⟩, fun hlong => ?_⟩
  · rw [outFrame, if_pos (by omega), List.append_assoc, List.singleton_append]
  · rw [outFrame, if_neg (by omega)]

end Sys2Proof.Machine
end

section
/-! The sequencer port (R100, R126): what its three shared operations, the request, the read and the fetch, leave of a running
block, and then what any of its fifteen rows may write. -/

namespace Sys2Proof.Machine

open Host

/-! ### The shared operations in a halted block, and on a selected channel that exists -/

theorem halted_eq_false {s : State} (h : s.fatal = none) : s.halted = false := by rw [State.halted, h]; rfl

/-- What the port finds: a halted block, a missing channel, or a channel to work on. -/
theorem halted_or_chan (s : State) :
    s.halted = true ∨ (s.halted = false ∧ s.chan? s.sel = none) ∨
      ∃ ch, s.fatal = none ∧ s.chans[s.sel]? = some ch := by
  cases hfatal : s.fatal with
  | some e => exact .inl (by rw [State.halted, hfatal]; rfl)
  | none =>
    cases hch : s.chans[s.sel]? with
    | none => exact .inr (.inl ⟨halted_eq_false hfatal, hch⟩)
    | some ch => exact .inr (.inr ⟨ch, rfl, rfl⟩)

section Halted

variable {s : State} (hhalt : s.halted = true)

include hhalt

theorem seqRequest_halted (f : Params → Sequencer → Sequencer) : seqRequest f s = .next s := if_pos hhalt

theorem seqRead_halted (f : Sequencer → WState) : seqRead f s = .next s := if_pos hhalt

theorem seqFetch_halted (f : Params → Sequencer → Except FatalCode (Option Motion) × Sequencer) :
    seqFetch f s = .next s := if_pos hhalt

end Halted

section Running

variable {s : State} {ch : Channel} (hfatal : s.fatal = none) (hch : s.chans[s.sel]? = some ch)

include hfatal hch

theorem seqRequest_of_chan (f : Params → Sequencer → Sequencer) :
    seqRequest f s = .next (s.afterRequest ch (f s.cfg ch.seq) .nothing) := by
  simp [seqRequest, halted_eq_false hfatal, State.chan?, hch, onSeq_get hch, State.afterRequest]

theorem seqRead_of_chan (f : Sequencer → WState) : seqRead f s = .next { s with sopOut := .state (f ch.seq) } := by
  simp [seqRead, halted_eq_false hfatal, State.chan?, hch]

theorem seqFetch_of_ok {f : Params → Sequencer → Except FatalCode (Option Motion) × Sequencer} {r : Option Motion}
    {S : Sequencer} (hf : f s.cfg ch.seq = (.ok r, S)) : seqFetch f s = .next (s.afterRequest ch S (.motion r)) := by
  simp [seqFetch, halted_eq_false hfatal, State.chan?, hch, hf, onSeq_get hch, State.afterRequest]

/-- R262. A fatal fetch answers nothing: the port keeps its last answer. -/
theorem seqFetch_of_error {f : Params → Sequencer → Except FatalCode (Option Motion) × Sequencer} {e : FatalCode}
    {S : Sequencer} (hf : f s.cfg ch.seq = (.error e, S)) :
    seqFetch f s = .next ((s.afterRequest ch S s.sopOut).raiseFatal e) := by
  simp [seqFetch, halted_eq_false hfatal, State.chan?, hch, hf, onSeq_get hch, State.afterRequest]

end Running

/-- The operand check of the rows that carry a state. -/
theorem positionOk_and_tiltOk {p t : U8} (hp : p.toNat ≤ 100) (hlow : -90 ≤ t.toInt) (hhigh : t.toInt ≤ 90) :
    (positionOk p && tiltOk t) = true := by
  rw [← stateOf_inRange]
  exact (inRange_iff _).2 ⟨hp, hlow, hhigh⟩

/-! ### Construction, state load and the read accessors -/

/-- Settles O20: each constructor is a request whose new record does not depend on the old one. -/
theorem constructorRequests : Obligations.ConstructorRequests := by
  intro s ch fc ft o hfatal hch
  refine ⟨?new, ?roller, ?venetian⟩
  case new => exact seqRequest_of_chan hfatal hch fun p _ => newSequencer p fc o
  case roller => exact seqRequest_of_chan hfatal hch fun p _ => newSequencer p fc none
  case venetian => exact seqRequest_of_chan hfatal hch fun p _ => newSequencer p fc (some ft)

/-- Settles O21: the operand passes its check, and the request writes the two state registers. -/
theorem loadStateRequest : Obligations.LoadStateRequest := by
  intro s ch p t hfatal hch hp hlow hhigh
  have hok := positionOk_and_tiltOk hp hlow hhigh
  exact (ifRange_of_true hok _).trans (seqRequest_of_chan hfatal hch fun _ => loadState (stateOf p t))

/-- Settles O33: both accessors are reads. -/
theorem readAccessors : Obligations.ReadAccessors := by
  intro s ch hfatal hch
  exact ⟨seqRead_of_chan hfatal hch Sequencer.cur, seqRead_of_chan hfatal hch Sequencer.des⟩

/-! ### What any row may write -/

/-- R126. The states that a sequencer operation may leave: at most the port's answer has changed, or the selected channel's
sequencer record too and, on a fatal merge, the latch and the pass (R262, log 12). -/
inductive SequencerWrite (s : State) : State → Prop where
  | answered (out : SopResult) : SequencerWrite s { s with sopOut := out }
  | written (ch : Channel) (S : Sequencer) (out : SopResult) (fatal : Option FatalCode) (pass : Option Nat)
      (hch : s.chans[s.sel]? = some ch) :
      SequencerWrite s { s.afterRequest ch S out with fatal := fatal, passAt := pass }

namespace SequencerWrite

variable {s t : State}

/-- A halted block is left as it is. -/
theorem refl (s : State) : SequencerWrite s s := .answered s.sopOut

theorem other_chan (h : SequencerWrite s t) {c : Nat} (hc : c ≠ s.sel) : t.chans[c]? = s.chans[c]? := by
  cases h with
  | answered => rfl
  | written => exact List.getElem?_set_ne hc.symm

theorem selected_chan (h : SequencerWrite s t) {ch : Channel} (hch : s.chans[s.sel]? = some ch) :
    ∃ S, t.chans[s.sel]? = some { ch with seq := S } := by
  cases h with
  | answered => exact ⟨ch.seq, hch⟩
  | written ch' S _ _ _ hch' =>
    obtain rfl : ch' = ch := Option.some.inj (hch'.symm.trans hch)
    exact ⟨S, List.getElem?_set_self (lt_of_some hch)⟩

theorem rest (h : SequencerWrite s t) :
    { t with chans := s.chans, sopOut := s.sopOut, fatal := s.fatal, passAt := s.passAt } = s := by
  cases h <;> rfl

end SequencerWrite

section SharedOperations

variable {s t : State}

theorem seqRequest_write {f : Params → Sequencer → Sequencer} (h : seqRequest f s = .next t) : SequencerWrite s t := by
  rcases halted_or_chan s with hhalt | ⟨hrun, hnone⟩ | ⟨ch, hfatal, hch⟩
  · rw [seqRequest_halted hhalt] at h
    cases h
    exact .refl s
  · rw [seqRequest_noSuchChannel hrun hnone] at h
    cases h
  · rw [seqRequest_of_chan hfatal hch] at h
    cases h
    exact .written ch (f s.cfg ch.seq) .nothing s.fatal s.passAt hch

theorem seqRead_write {f : Sequencer → WState} (h : seqRead f s = .next t) : SequencerWrite s t := by
  rcases halted_or_chan s with hhalt | ⟨hrun, hnone⟩ | ⟨ch, hfatal, hch⟩
  · rw [seqRead_halted hhalt] at h
    cases h
    exact .refl s
  · rw [seqRead_noSuchChannel hrun hnone] at h
    cases h
  · rw [seqRead_of_chan hfatal hch] at h
    cases h
    exact .answered (.state (f ch.seq))

theorem seqFetch_write {f : Params → Sequencer → Except FatalCode (Option Motion) × Sequencer}
    (h : seqFetch f s = .next t) : SequencerWrite s t := by
  rcases halted_or_chan s with hhalt | ⟨hrun, hnone⟩ | ⟨ch, hfatal, hch⟩
  · rw [seqFetch_halted hhalt] at h
    cases h
    exact .refl s
  · rw [seqFetch_noSuchChannel hrun hnone] at h
    cases h
  · rcases hf : f s.cfg ch.seq with ⟨e | r, S⟩
    · rw [seqFetch_of_error hfatal hch hf] at h
      cases h
      exact .written ch S s.sopOut _ none hch
    · rw [seqFetch_of_ok hfatal hch hf] at h
      cases h
      exact .written ch S (.motion r) s.fatal s.passAt hch

/-- R126. Each of the fifteen rows is a request, a read or a fetch. -/
theorem exec_write_of_sop {i : Instr} (hp : i.port = .sop) (h : exec i s = .next t) : SequencerWrite s t := by
  cases i with
  | reset | home | setup | set | get | getSg => cases hp
  | extend | retract | hold => cases hp
  | ready | position | stallGuardResult => cases hp
  | new fc ft => exact seqRequest_write (f := fun p _ => newSequencer p fc ft) h
  | newRoller fc => exact seqRequest_write (f := fun p _ => newSequencer p fc none) h
  | newVenetian fc ft => exact seqRequest_write (f := fun p _ => newSequencer p fc (some ft)) h
  | trigEndstop | homeFullyOpened | homeFullyClosed => exact seqRequest_write h
  | loadState | setPosition | setTilt | addTilt | setState => exact seqRequest_write (ifRange_next h).2
  | getNextInstruction => exact seqFetch_write (f := fetchOne) h
  | getNextInstructionGrouped th => exact seqFetch_write (f := fun p => getNextGrouped p th) h
  | getCurrentState | getDesiredState => exact seqRead_write h

end SharedOperations

/-- Settles O34: the frame of a `SequencerWrite`. -/
theorem requestsTouchOneSequencer : Obligations.RequestsTouchOneSequencer := by
  intro i s t hp h
  have hwrite := exec_write_of_sop hp h
  exact ⟨fun _ hc => hwrite.other_chan hc, fun _ hch => hwrite.selected_chan hch, hwrite.rest⟩

end Sys2Proof.Machine
end

section
/-! What every step keeps of the queues (R155): no `Extend` comes to stand next to a `Retract`. A device reset empties every
queue; an `Effect` touches one channel, and each change of a channel keeps its queue smooth. -/

namespace Sys2Proof.Machine

theorem State.deviceReset_smoothQueues (s : State) : s.deviceReset.smoothQueues := by
  intro ch hch
  obtain ⟨dir, line, rfl⟩ := eq_atReset_of_mem_deviceReset hch
  rw [Channel.atReset_seq, newSequencer_queue, smooth]

/-- The ranges of R20 are needed: beyond them the tilt before a move can be opposed to the move. -/
theorem Effect.smoothQueues {s t : State} (h : Effect s t) (hw : s.wf) (hs : s.smoothQueues) : t.smoothQueues := by
  obtain ⟨hcfg, -, -, -, hchans, -, -⟩ := hw
  obtain ⟨c, htouch⟩ := h.chans
  have hinit := Params.initState_inRange_of_wf hcfg
  exact htouch.all hs fun a ha _ hchange hsmooth => hchange.smooth hinit (hchans a ha) hsmooth

/-- Settles O54: the queues are smooth after a device reset, and an effect on a well-formed state keeps them so. -/
theorem stepKeepsSmoothQueues : Obligations.StepKeepsSmoothQueues := by
  intro s t hw hs hstep
  rcases step_resetOrEffect hstep with ⟨u, -, rfl⟩ | heffect
  · exact State.deviceReset_smoothQueues u
  · exact heffect.smoothQueues hw hs

end Sys2Proof.Machine
end

section
/-! The planning requests of the sequencer port (R143 to R154): each is a request whose new record is the plan in closed form,
as far as the capacity goes. -/

namespace Sys2Proof.Machine

open Host

/-! ### The operand check -/

theorem positionOk_of_le {x : U8} (h : x.toNat ≤ 100) : positionOk x = true := decide_eq_true h

theorem tiltOk_of_range {t : U8} (hlow : -90 ≤ t.toInt) (hhigh : t.toInt ≤ 90) : tiltOk t = true :=
  Bool.and_eq_true_iff.2 ⟨decide_eq_true hlow, decide_eq_true hhigh⟩

/-! ### One request after another -/

section AfterRequest

variable {s : State} {ch : Channel} (S T : Sequencer) (out out' : SopResult)

@[simp] theorem afterRequest_fatal : (s.afterRequest ch S out).fatal = s.fatal := rfl
@[simp] theorem afterRequest_cfg : (s.afterRequest ch S out).cfg = s.cfg := rfl
@[simp] theorem afterRequest_sel : (s.afterRequest ch S out).sel = s.sel := rfl

/-- The record a request has written is the one the next request finds. -/
theorem afterRequest_selected (hch : s.chans[s.sel]? = some ch) :
    (s.afterRequest ch S out).chans[(s.afterRequest ch S out).sel]? = some { ch with seq := S } :=
  List.getElem?_set_self (lt_of_some hch)

/-- Of two requests the second one's record and answer stand. -/
theorem afterRequest_afterRequest :
    (s.afterRequest ch S out).afterRequest { ch with seq := S } T out' = s.afterRequest ch T out' := by
  simp only [State.afterRequest, List.set_set]

end AfterRequest

/-! ### The planning operations as requests -/

theorem setState_closed (p : Params) (target : WState) (S : Sequencer) :
    setState p target S = tilted p (planned p S target.position) target.tilt := by
  rw [setState, setPosition_closed, setTilt_closed]

section Requests

variable {s : State} {ch : Channel} (hfatal : s.fatal = none) (hch : s.chans[s.sel]? = some ch)

include hfatal hch

theorem exec_setPosition_of_chan {x : U8} (hx : x.toNat ≤ 100) :
    exec (.setPosition x) s = .next (s.afterRequest ch (planned s.cfg ch.seq x.toNat) .nothing) := by
  rw [← setPosition_closed]
  exact (ifRange_of_true (positionOk_of_le hx) _).trans (seqRequest_of_chan hfatal hch fun p => setPosition p x.toNat)

theorem exec_setTilt_of_chan {t : U8} (hlow : -90 ≤ t.toInt) (hhigh : t.toInt ≤ 90) :
    exec (.setTilt t) s = .next (s.afterRequest ch (tilted s.cfg ch.seq t.toInt) .nothing) := by
  rw [← setTilt_closed]
  exact (ifRange_of_true (tiltOk_of_range hlow hhigh) _).trans
    (seqRequest_of_chan hfatal hch fun p => setTilt p t.toInt)

theorem exec_addTilt_of_chan {a b : U8} (ha : tiltOk a = true) (hb : tiltOk b = true) :
    exec (.addTilt a b) s = .next (s.afterRequest ch (addTilt s.cfg a.toInt b.toInt ch.seq) .nothing) :=
  (ifRange_of_true (Bool.and_eq_true_iff.2 ⟨ha, hb⟩) _).trans
    (seqRequest_of_chan hfatal hch fun p => addTilt p a.toInt b.toInt)

theorem exec_setState_of_chan {p t : U8} (hp : p.toNat ≤ 100) (hlow : -90 ≤ t.toInt) (hhigh : t.toInt ≤ 90) :
    exec (.setState p t) s =
      .next (s.afterRequest ch (tilted s.cfg (planned s.cfg ch.seq p.toNat) t.toInt) .nothing) := by
  have hclosed := setState_closed s.cfg (stateOf p t) ch.seq
  have hrequest := seqRequest_of_chan hfatal hch fun cfg => setState cfg (stateOf p t)
  rw [hclosed] at hrequest
  exact (ifRange_of_true (positionOk_and_tiltOk hp hlow hhigh) _).trans hrequest

end Requests

/-- Settles O22: the operand passes its check, and `set_position` is its closed form. -/
theorem setPositionRequest : Obligations.SetPositionRequest := fun _ _ _ hfatal hch hx =>
  exec_setPosition_of_chan hfatal hch hx

/-- Settles O24: on a roller `add_tilt` does nothing, on a venetian it appends its segment. -/
theorem addTiltRequest : Obligations.AddTiltRequest := by
  intro s ch a b hfatal hch halow hahigh hblow hbhigh
  rw [exec_addTilt_of_chan hfatal hch (tiltOk_of_range halow hahigh) (tiltOk_of_range hblow hbhigh)]
  rcases hft : ch.seq.ftq with _ | ft
  · rw [addTilt_roller hft]
  · simp only [addTilt_closed _ _ _ _ ft hft, hft]

/-- Settles O25: the operand passes its check, and `set_tilt` is its closed form. -/
theorem setTiltRequest : Obligations.SetTiltRequest := fun _ _ _ hfatal hch hlow hhigh =>
  exec_setTilt_of_chan hfatal hch hlow hhigh

/-- Settles O26: the second of the two requests starts from the record that the first one wrote, and overwrites it. -/
theorem setStateRequest : Obligations.SetStateRequest := by
  intro s ch p t hfatal hch hp hlow hhigh
  have hstate := exec_setState_of_chan hfatal hch hp hlow hhigh
  refine ⟨hstate, _, exec_setPosition_of_chan hfatal hch hp, ?_⟩
  have hrunning := (afterRequest_fatal (ch := ch) (planned s.cfg ch.seq p.toNat) .nothing).trans hfatal
  have hselected := afterRequest_selected (planned s.cfg ch.seq p.toNat) .nothing hch
  rw [exec_setTilt_of_chan hrunning hselected hlow hhigh, afterRequest_afterRequest, hstate, afterRequest_cfg]

/-- Settles O27: homing is the load of the opposite extreme and then the plan of the full move. -/
theorem homingRequests : Obligations.HomingRequests := by
  intro s ch hfatal hch
  rw [← homeFullyOpened_closed, ← homeFullyClosed_closed]
  exact ⟨seqRequest_of_chan hfatal hch homeFullyOpened, seqRequest_of_chan hfatal hch homeFullyClosed⟩

end Sys2Proof.Machine
end

section
/-! How long a plan is (R149): segment by segment, at most one reversal `Hold`, 180 degrees of tilt each way with a `Hold` of
its own, and 100 percentage points. -/

namespace Sys2Proof.Machine

/-! ### The segments -/

theorem reversalHold_length_le (p : Params) (tail : Option Motion) (d : Direction) (s : WState) :
    (reversalHold p tail d s).length ≤ 1 := by
  unfold reversalHold
  split
  · split <;> simp
  · simp

@[simp] theorem travelRun_length (quantity : U32) (tilt : Int) (position target : Nat) :
    (travelRun quantity tilt position target).length = moveLength position target := by
  rw [← moveSteps_eq_travelRun, moveSteps, List.length_map, List.length_range]

theorem moveLength_le {position target : Nat} (hp : position ≤ 100) (ht : target ≤ 100) :
    moveLength position target ≤ 100 := by
  unfold moveLength
  split <;> omega

@[simp] theorem sweepRun_length (fullTilt : U32) (position : Nat) (start stop : Int) :
    (sweepRun fullTilt position start stop).length = (stop - start).natAbs := by
  rw [sweepRun, List.length_map, List.length_range]

theorem travelTilt_range (position target : Nat) : -90 ≤ travelTilt position target ∧ travelTilt position target ≤ 90 := by
  unfold travelTilt
  split <;> omega

theorem tiltSegment_length_le (p : Params) (before : List Motion) (here : WState) (fullTilt : U32) {start stop : Int}
    (hstart : -90 ≤ start ∧ start ≤ 90) (hstop : -90 ≤ stop ∧ stop ≤ 90) :
    (tiltSegment p before here fullTilt start stop).length ≤ 1 + 180 := by
  unfold tiltSegment
  split
  · exact Nat.zero_le _
  · have hhold := reversalHold_length_le p before.getLast? (sweepQuality here.position start stop) here
    rw [List.length_append, sweepRun_length]
    omega

/-! ### The plans -/

section Plans

variable (p : Params) {S : Sequencer} {target : Nat} (hcur : S.cur.inRange = true) (htarget : target ≤ 100)

include hcur htarget

theorem rollerPlan_length_le : (rollerPlan p S target).length ≤ 1 + 100 := by
  obtain ⟨hposition, -⟩ := (inRange_iff _).1 hcur
  have hhold := reversalHold_length_le p S.queue.getLast? (travelQuality S.cur.position target) S.cur
  have hmove := moveLength_le hposition htarget
  rw [rollerPlan, List.length_append, travelRun_length]
  omega

theorem venetianPlan_length_le (fullTilt : U32) :
    (venetianPlan p S fullTilt target).length ≤ 1 + (1 + 180) + 100 + (1 + 180) := by
  obtain ⟨hposition, htilt⟩ := (inRange_iff _).1 hcur
  have hhold := reversalHold_length_le p S.queue.getLast? (travelQuality S.cur.position target) S.cur
  have hmove := moveLength_le hposition htarget
  have hmoving := travelTilt_range S.cur.position target
  have hout := fun before => tiltSegment_length_le p before S.cur fullTilt htilt hmoving
  have hback := fun before =>
    tiltSegment_length_le p before ⟨target, travelTilt S.cur.position target⟩ fullTilt hmoving htilt
  simp only [venetianPlan, List.length_append, travelRun_length]
  exact Nat.add_le_add (Nat.add_le_add (Nat.add_le_add hhold (hout _)) hmove) (hback _)

/-- R149. The bound of a plan of either kind. -/
theorem movePlan_length_le : (S.ftq = none → (movePlan p S target).length ≤ 101) ∧ (movePlan p S target).length ≤ 463 := by
  rcases hft : S.ftq with _ | fullTilt
  · have hroller := rollerPlan_length_le p hcur htarget
    simp only [movePlan, hft]
    exact ⟨fun _ => hroller, by omega⟩
  · have hvenetian := venetianPlan_length_le p hcur htarget fullTilt
    simp only [movePlan, hft]
    exact ⟨nofun, hvenetian⟩

end Plans

/-- R143, R149. The record a real move leaves. -/
theorem setPosition_of_ne (p : Params) {S : Sequencer} {target : Nat} (h : S.cur.position ≠ target) :
    setPosition p target S =
      { S with des := { S.des with position := target }, queue := (movePlan p S target).take p.qcap } :=
  (setPosition_closed p S target).trans (if_neg h)

/-- Settles O23: the plan's bound, and the closed form of a real move; a plan within the capacity is not cut. -/
theorem planLength : Obligations.PlanLength := by
  intro p S target hcur htarget hne
  obtain ⟨hroller, hany⟩ := movePlan_length_le p hcur htarget
  rw [setPosition_of_ne p hne]
  exact ⟨hroller, hany, rfl, fun hcap => List.take_of_length_le (by omega), rfl⟩

end Sys2Proof.Machine
end

section
/-! The endstop recovery and the fetches as requests on the sequencer port (R171 to R177): `trig_endstop`, then the single
fetch, then the grouped fetch in closed form. -/

namespace Sys2Proof.Machine

open Host

/-! ### Endstop recovery -/

/-- R176. The placeholder `Hold` always fits the cleared queue. -/
theorem trigEndstop_eq {p : Params} (hq : 1 ≤ p.qcap) (S : Sequencer) :
    trigEndstop p S =
      { S with
        cur := inferredExtreme S, des := inferredExtreme S, queue := [endstopHold p (inferredExtreme S)] } := by
  have hfits : pushBack p.qcap [] (endstopHold p (inferredExtreme S)) = [endstopHold p (inferredExtreme S)] := if_pos hq
  rw [trigEndstop, hfits]

theorem stateLt_irrefl (a : WState) : stateLt a a = false := by simp [stateLt]

/-- R177. At an extreme the same extreme is inferred again: `S.cur` is not below `S.des`, and position 100 is kept. -/
theorem inferredExtreme_trigEndstop (p : Params) (S : Sequencer) :
    inferredExtreme (trigEndstop p S) = inferredExtreme S := by
  have hposition : decide ((inferredExtreme S).position = 100) = towardOpen S := by
    cases h : towardOpen S <;> simp [inferredExtreme, h]
  have htoward : towardOpen (trigEndstop p S) = towardOpen S := by
    rw [towardOpen, trigEndstop, stateLt_irrefl, hposition, Bool.false_or]
  simp only [inferredExtreme, htoward]
  rfl

theorem trigEndstop_trigEndstop (p : Params) (S : Sequencer) : trigEndstop p (trigEndstop p S) = trigEndstop p S := by
  rw [trigEndstop, inferredExtreme_trigEndstop]
  rfl

/-- Settles O31: the statement's extreme is the inferred one, and the placeholder fits an empty queue. -/
theorem trigEndstopRequest : Obligations.TrigEndstopRequest := by
  intro s ch e hfatal hch hq hposition htilt
  obtain rfl := inferredExtreme_eq hposition htilt
  have hrequest := seqRequest_of_chan hfatal hch trigEndstop
  rwa [trigEndstop_eq hq] at hrequest

/-- Settles O32: a halted block is left as it is twice; in a running one the second recovery starts from the record that the
first one wrote and leaves it. -/
theorem trigEndstopIdempotent : Obligations.TrigEndstopIdempotent := by
  intro s t (h : seqRequest trigEndstop s = .next t)
  rcases halted_or_chan s with hhalt | ⟨hrun, hnone⟩ | ⟨ch, hfatal, hch⟩
  · obtain rfl : s = t := Outcome.next.inj ((seqRequest_halted hhalt trigEndstop).symm.trans h)
    exact h
  · rw [seqRequest_noSuchChannel hrun hnone] at h
    cases h
  · obtain rfl := Outcome.next.inj ((seqRequest_of_chan hfatal hch trigEndstop).symm.trans h)
    have hselected := afterRequest_selected (trigEndstop s.cfg ch.seq) .nothing hch
    have hagain := seqRequest_of_chan ((afterRequest_fatal _ _).trans hfatal) hselected trigEndstop
    rwa [afterRequest_afterRequest, afterRequest_cfg, trigEndstop_trigEndstop] at hagain

/-! ### The single fetch -/

/-- A request that leaves the record as it was writes the port's answer only. -/
theorem afterRequest_self {s : State} {ch : Channel} (hch : s.chans[s.sel]? = some ch) (out : SopResult) :
    s.afterRequest ch ch.seq out = { s with sopOut := out } := by
  obtain ⟨hlt, rfl⟩ := List.getElem?_eq_some_iff.1 hch
  have hset : s.chans.set s.sel { s.chans[s.sel] with seq := s.chans[s.sel].seq } = s.chans := List.set_getElem_self hlt
  rw [State.afterRequest, hset]

theorem getNext_nil {p : Params} {S : Sequencer} (h : S.queue = []) : getNext p S = (none, S) := by
  simp only [getNext, h]

theorem getNext_cons {p : Params} {S : Sequencer} {m : Motion} {rest : List Motion} (h : S.queue = m :: rest) :
    getNext p S = (some m, { S with cur := m.completed, queue := queueAfterPop p m rest }) := by
  simp only [getNext, h]

/-- Settles O28: the fetch by the two forms of the queue; the trailing `Hold` fits. -/
theorem getNextRequest : Obligations.GetNextRequest := by
  intro s ch hfatal hch hq
  constructor
  · intro hempty
    have hfetch : fetchOne s.cfg ch.seq = (.ok none, ch.seq) := by rw [fetchOne, getNext_nil hempty]
    rw [← afterRequest_self hch]
    exact seqFetch_of_ok hfatal hch hfetch
  · intro m rest hqueue
    have hfetch : fetchOne s.cfg ch.seq =
        (.ok (some m), { ch.seq with cur := m.completed, queue := queueAfterPop s.cfg m rest }) := by
      rw [fetchOne, getNext_cons hqueue]
    rw [← queueAfterPop_eq hq]
    exact seqFetch_of_ok hfatal hch hfetch

/-! ### The grouped fetch -/

theorem getNextGrouped_nil {p : Params} {th : U32} {S : Sequencer} (h : S.queue = []) :
    getNextGrouped p th S = (.ok none, S) := by
  simp only [getNextGrouped, getNext_nil h]

/-- R174. From a queue that is not empty the answer is the loop's. -/
theorem getNextGrouped_cons {p : Params} {th : U32} {S S' : Sequencer} {first : Motion} {rest : List Motion}
    {r : Except FatalCode Motion} (h : S.queue = first :: rest)
    (hloop : groupLoop p th (queueAfterPop p first rest).length first
      { S with cur := first.completed, queue := queueAfterPop p first rest } = (r, S')) :
    getNextGrouped p th S = (r.map some, S') := by
  cases r <;> simp only [getNextGrouped, getNext_cons h, hloop] <;> rfl

/-- The loop's fuel is one per instruction that was behind the front, or more. -/
theorem length_le_queueAfterPop (p : Params) (m : Motion) (rest : List Motion) :
    rest.length ≤ (queueAfterPop p m rest).length := by
  unfold queueAfterPop
  split
  · next h => simp [h.1]
  · exact Nat.le_refl _

section GroupedRequest

variable {s : State} {ch : Channel} (hfatal : s.fatal = none) (hch : s.chans[s.sel]? = some ch)

include hfatal hch

theorem exec_getNextInstructionGrouped_of_ok {th : U32} {r : Option Motion} {S : Sequencer}
    (h : getNextGrouped s.cfg th ch.seq = (.ok r, S)) :
    exec (.getNextInstructionGrouped th) s = .next (s.afterRequest ch S (.motion r)) :=
  seqFetch_of_ok (f := fun p => getNextGrouped p th) hfatal hch h

/-- R262. The latch was clear, so it takes the code. -/
theorem exec_getNextInstructionGrouped_of_error {th : U32} {e : FatalCode} {S : Sequencer}
    (h : getNextGrouped s.cfg th ch.seq = (.error e, S)) :
    exec (.getNextInstructionGrouped th) s =
      .next { s with chans := s.chans.set s.sel { ch with seq := S }, fatal := some e, passAt := none } := by
  have hraised := seqFetch_of_error (f := fun p => getNextGrouped p th) hfatal hch h
  rwa [State.raiseFatal, afterRequest_fatal, hfatal] at hraised

end GroupedRequest

/-- Settles O29: the run that the loop pops, with the front's own quantity counted into its sum. -/
theorem groupedRequest : Obligations.GroupedRequest := by
  intro s ch th hfatal hch hq
  constructor
  · intro hempty
    rw [← afterRequest_self hch]
    exact exec_getNextInstructionGrouped_of_ok hfatal hch (getNextGrouped_nil hempty)
  · intro first rest hqueue
    obtain ⟨k, last, hk, hlast, hquality, hbelow, hend⟩ :=
      groupLoop_closed s.cfg hq th ch.seq rest first first _ (length_le_queueAfterPop s.cfg first rest) rfl rfl
    refine ⟨k, last, hk, hlast, hquality, hbelow, hend.imp ?_ ?_⟩
    · rintro ⟨hfits, hstop, hloop⟩
      rw [queueAfterPop_eq hq _ (rest.drop k)] at hloop
      exact ⟨hfits, hstop, exec_getNextInstructionGrouped_of_ok hfatal hch (getNextGrouped_cons hqueue hloop)⟩
    · rintro ⟨hover, hloop⟩
      rw [queueAfterPop_eq hq _ (rest.drop k)] at hloop
      exact ⟨hover, exec_getNextInstructionGrouped_of_error hfatal hch (getNextGrouped_cons hqueue hloop)⟩

/-- Settles O30: the loop's first turn pops the second instruction, and its merge overflows. -/
theorem groupedOverflow : Obligations.GroupedOverflow := by
  intro s ch th a b rest hfatal hch hq hqueue hquality hbelow hover
  have hmerge : merge a b = .error .mergeOverflow := by
    rcases merge_cases a b with ⟨hne, -⟩ | ⟨-, -, h⟩ | ⟨-, hle, -⟩
    · exact absurd hquality hne
    · exact h
    · exact absurd hle (Nat.not_le.2 hover)
  have hpop : queueAfterPop s.cfg a (b :: rest) = b :: rest := by simp [queueAfterPop]
  have hloop : groupLoop s.cfg th (queueAfterPop s.cfg a (b :: rest)).length a
      { ch.seq with cur := a.completed, queue := queueAfterPop s.cfg a (b :: rest) } =
        (.error .mergeOverflow, { ch.seq with cur := b.completed, queue := queueAfterPop s.cfg b rest }) := by
    rw [hpop, List.length_cons, groupLoop_succ rfl hbelow hquality.symm, hmerge]
  rw [queueAfterPop_eq hq b rest] at hloop
  exact ⟨exec_getNextInstructionGrouped_of_error hfatal hch (getNextGrouped_cons hqueue hloop), rfl⟩

end Sys2Proof.Machine
end

section
/-! What can latch a fault (R171, R262), said once: a grouped fetch whose merge fails, requested by the dispatcher with the
build's own threshold or on the sequencer port with the word's. -/

namespace Sys2Proof.Machine

open Host

/-! ### Where a fault comes from -/

/-- R262. Some channel's grouped fetch with threshold `th` ends in a fatal merge. -/
def State.groupFails (s : State) (th : U32) : Prop :=
  ∃ ch ∈ s.chans, ∃ e, (getNextGrouped s.cfg th ch.seq).1 = .error e

/-- R68. A channel that does not exist has nothing queued, so its fetch does not fail. -/
theorem groupFails_of_chan {s : State} {c : Nat} {th : U32} {e : FatalCode}
    (h : (getNextGrouped s.cfg th (s.chan c).seq).1 = .error e) : s.groupFails th := by
  by_cases hc : c < s.chans.length
  · exact ⟨s.chan c, List.mem_of_getElem? (chans_getElem? hc), e, h⟩
  · have hnone : s.chan c = default := by simp [State.chan, List.getD_eq_getElem?_getD, Nat.le_of_not_lt hc]
    rw [hnone, getNextGrouped_nil rfl] at h
    cases h

/-- `State.groupFails` reads the build and the channels only. -/
theorem State.groupFails.congr {s s' : State} {th : U32} (h : s'.groupFails th) (hs : SameBlock s s') :
    s.groupFails th := by
  obtain ⟨hcfg, hchans, -⟩ := hs
  rwa [State.groupFails, ← hcfg, ← hchans]

theorem watch_fatal (s : State) (c : Nat) : (s.watch c).fatal = s.fatal := by
  unfold State.watch State.watcherStep
  split
  · rfl
  · split
    · rfl
    · split <;> rfl

theorem startPass_fatal (s : State) : s.startPass.fatal = s.fatal := by
  unfold State.startPass; split <;> rfl

theorem encodeNext_fatal (s : State) : s.encodeNext.fatal = s.fatal := by
  unfold State.encodeNext; split <;> rfl

theorem dispatch_fatal (s : State) (c : Nat) (m : Motion) (now : Nat) : (s.dispatch c m now).fatal = s.fatal := by
  unfold State.dispatch
  split
  · rfl
  · split <;> rfl

theorem runMotion_fatal (s : State) (c : Nat) (m : Motion) : (s.runMotion c m).fatal = s.fatal := by
  unfold State.runMotion
  split
  · split
    · exact dispatch_fatal s c m s.now
    · rfl
  · exact dispatch_fatal _ c m s.now

theorem setupEffect_fatal (init : WState) (fullCycle : U32) (reverse : Option Bool) (fullTilt : Option U32)
    (sgthrs : Option U8) (c : Nat) (s : State) :
    (setupEffect init fullCycle reverse fullTilt sgthrs c s).fatal = s.fatal := by
  cases sgthrs <;> rfl

theorem fetchGroup_fatal (s : State) (c : Nat) :
    (s.fetchGroup c).fatal = s.fatal ∨ s.groupFails s.cfg.tickPulseBudget := by
  unfold State.fetchGroup
  split
  · exact .inl rfl
  · next e S heq => exact .inr (groupFails_of_chan (c := c) (e := e) (by rw [heq]))

theorem feed_fatal (s : State) (c now : Nat) :
    (s.feed c now).fatal = s.fatal ∨ s.groupFails s.cfg.tickPulseBudget := by
  unfold State.feed
  split
  · exact .inl (dispatch_fatal s c _ now)
  · exact fetchGroup_fatal s c

theorem feedCheck_fatal (s : State) (c now : Nat) :
    (s.feedCheck c now).fatal = s.fatal ∨ s.groupFails s.cfg.tickPulseBudget := by
  unfold State.feedCheck
  dsimp only
  split
  · exact feed_fatal { s with freeAt := s.freeAt + 1 } c now
  · exact .inl rfl

theorem channelStep_fatal (s : State) (c : Nat) :
    (s.channelStep c).fatal = s.fatal ∨ s.groupFails s.cfg.tickPulseBudget := by
  unfold State.channelStep
  split
  · exact .inl rfl
  · split
    · exact .inl rfl
    · exact feedCheck_fatal (s.consumeFlag c) c s.now

/-- R204. A pass latches a fault only by the fetch of a group. -/
theorem passStep_fatal (s : State) : s.passStep.fatal = s.fatal ∨ s.groupFails s.cfg.tickPulseBudget := by
  unfold State.passStep
  split
  · exact .inl rfl
  · next c _ => exact channelStep_fatal s c

section Shared

variable {s t : State}

theorem applyCommand_fatal {channel : U8} {legal : Bool} {effect : Nat → State → State}
    (heffect : ∀ c, (effect c s).fatal = s.fatal) (ht : applyCommand channel legal effect s = .next t) :
    t.fatal = s.fatal := by
  unfold applyCommand at ht
  split at ht
  · cases ht; rfl
  · split at ht <;> cases ht
    · exact heffect _
    · rfl

theorem motionRequest_fatal {m : Motion} (ht : motionRequest m s = .next t) : t.fatal = s.fatal := by
  unfold motionRequest at ht
  split at ht
  · cases ht; rfl
  · split at ht <;> cases ht
    exact runMotion_fatal s _ m

theorem encodeReportWord_fatal {r : Report} (ht : encodeReportWord r s = .next t) : t.fatal = s.fatal := by
  cases ht; rfl

theorem seqRequest_fatal {f : Params → Sequencer → Sequencer} (ht : seqRequest f s = .next t) : t.fatal = s.fatal := by
  rcases halted_or_chan s with hhalt | ⟨hrun, hnone⟩ | ⟨ch, hfatal, hch⟩
  · rw [seqRequest_halted hhalt] at ht
    cases ht; rfl
  · rw [seqRequest_noSuchChannel hrun hnone] at ht
    cases ht
  · rw [seqRequest_of_chan hfatal hch] at ht
    cases ht; rfl

theorem seqRead_fatal {f : Sequencer → WState} (ht : seqRead f s = .next t) : t.fatal = s.fatal := by
  rcases halted_or_chan s with hhalt | ⟨hrun, hnone⟩ | ⟨ch, hfatal, hch⟩
  · rw [seqRead_halted hhalt] at ht
    cases ht; rfl
  · rw [seqRead_noSuchChannel hrun hnone] at ht
    cases ht
  · rw [seqRead_of_chan hfatal hch] at ht
    cases ht; rfl

theorem seqFetch_fatal {f : Params → Sequencer → Except FatalCode (Option Motion) × Sequencer}
    (ht : seqFetch f s = .next t) :
    t.fatal = s.fatal ∨ ∃ ch ∈ s.chans, ∃ e, (f s.cfg ch.seq).1 = .error e := by
  rcases halted_or_chan s with hhalt | ⟨hrun, hnone⟩ | ⟨ch, hfatal, hch⟩
  · rw [seqFetch_halted hhalt] at ht
    cases ht
    exact .inl rfl
  · rw [seqFetch_noSuchChannel hrun hnone] at ht
    cases ht
  · rcases hf : f s.cfg ch.seq with ⟨e | r, S⟩
    · exact .inr ⟨ch, List.mem_of_getElem? hch, e, by rw [hf]⟩
    · rw [seqFetch_of_ok hfatal hch hf] at ht
      cases ht
      exact .inl rfl

end Shared

/-! ### Instructions, events, steps -/

/-- The free schedule presents no request: one that comes next was placed. -/
theorem inputs_of_nextEvent_request {s : State} {c : Nat} {w : BitVec 69} (h : s.nextEvent = .request c w) :
    ∃ rest, s.inputs = .request c w :: rest := by
  unfold State.nextEvent at h
  split at h
  · next e rest hinputs => exact ⟨rest, by rw [hinputs, h]⟩
  · cases h

section Running

variable {s t : State} (hclear : s.fatal = none)

include hclear

/-- R171, R262. The one instruction that latches a fault is the grouped fetch. -/
theorem exec_fatal {i : Instr} (h : exec i s = .next t) :
    t.fatal = none ∨ ∃ th, i = .getNextInstructionGrouped th ∧ s.groupFails th := by
  have kept (hkept : t.fatal = s.fatal) : t.fatal = none := hkept.trans hclear
  cases i with
  | reset => cases h; exact .inl rfl
  | home | get | getSg | set => exact .inl (kept (applyCommand_fatal (fun _ => rfl) h))
  | setup => exact .inl (kept (applyCommand_fatal (fun c => setupEffect_fatal _ _ _ _ _ c s) h))
  | new fc ft => exact .inl (kept (seqRequest_fatal (f := fun p _ => newSequencer p fc ft) h))
  | newRoller fc => exact .inl (kept (seqRequest_fatal (f := fun p _ => newSequencer p fc none) h))
  | newVenetian fc ft => exact .inl (kept (seqRequest_fatal (f := fun p _ => newSequencer p fc (some ft)) h))
  | trigEndstop | homeFullyOpened | homeFullyClosed => exact .inl (kept (seqRequest_fatal h))
  | loadState | setPosition | setTilt | addTilt | setState => exact .inl (kept (seqRequest_fatal (ifRange_next h).2))
  | getCurrentState | getDesiredState => exact .inl (kept (seqRead_fatal h))
  | getNextInstruction =>
    refine .inl (kept ((seqFetch_fatal (f := fetchOne) h).resolve_right ?_))
    rintro ⟨ch, -, e, he⟩
    cases he
  | getNextInstructionGrouped th =>
    exact (seqFetch_fatal (f := fun p => getNextGrouped p th) h).imp kept fun hfails => ⟨th, rfl, hfails⟩
  | extend | retract | hold => exact .inl (kept (motionRequest_fatal (ifRange_next h).2))
  | ready | stallGuardResult => exact .inl (kept (encodeReportWord_fatal h))
  | position => exact .inl (kept (encodeReportWord_fatal (ifRange_next h).2))

/-- No instruction of another port than the sequencer's latches a fault. -/
theorem exec_fatal_of_port_ne_sop {i : Instr} (hp : i.port ≠ .sop) (h : exec i s = .next t) : t.fatal = none := by
  refine (exec_fatal hclear h).resolve_right ?_
  rintro ⟨th, rfl, -⟩
  exact hp rfl

theorem applyWord_fatal {w : BitVec 103} (h : applyWord w s = .next t) : t.fatal = none := by
  unfold applyWord at h
  split at h
  · next i hi => exact exec_fatal_of_port_ne_sop hclear (by rw [decode_port hi]; nofun) h
  · cases h; exact hclear

theorem applyPayload_fatal {payload : List U8} (h : applyPayload payload s = .next t) : t.fatal = none := by
  unfold applyPayload at h
  split at h
  · cases h; exact hclear
  · split at h
    · cases h; exact hclear
    · exact applyWord_fatal hclear h

theorem readByte_fatal {b : U8} (h : readByte b s = .next t) : t.fatal = none := by
  unfold readByte at h
  split at h
  · split at h
    · cases h; rfl
    · cases h; exact hclear
  · split at h
    · exact applyPayload_fatal (s := { s with reader := .awaitLength }) hclear h
    · cases h; exact hclear

theorem runWord_fatal {w : PortWord} (h : runWord w s = .next t) :
    t.fatal = none ∨ ∃ th, decode w = .ok (.getNextInstructionGrouped th) ∧ s.groupFails th := by
  unfold runWord at h
  split at h
  · next i hi =>
    refine (exec_fatal hclear h).imp_right ?_
    rintro ⟨th, rfl, hfails⟩
    exact ⟨th, hi, hfails⟩
  · cases h

/-- A word of another inner port than the sequencer's latches no fault. -/
theorem runWord_fatal_of_port_ne_sop {w : PortWord} (hp : w.port ≠ .sop) (h : runWord w s = .next t) :
    t.fatal = none := by
  refine (runWord_fatal hclear h).resolve_right ?_
  rintro ⟨th, hdecode, -⟩
  exact hp (decode_port hdecode).symm

/-- R204. Of the environment's events only the pass latches a fault. -/
theorem envStep_fatal {e : EnvEvent} (h : envStep e s = .next t) :
    t.fatal = none ∨ s.groupFails s.cfg.tickPulseBudget := by
  cases e with
  | command w => exact .inl (applyWord_fatal hclear h)
  | byte b => exact .inl (readByte_fatal hclear h)
  | proceed => cases h; exact (passStep_fatal s).imp_left (·.trans hclear)
  | tick => cases h; exact .inl ((startPass_fatal s).trans hclear)
  | watch c => cases h; exact .inl ((watch_fatal s c).trans hclear)
  | encode => cases h; exact .inl ((encodeNext_fatal s).trans hclear)
  | transportError | framingError | line | drain | advance => cases h; exact .inl hclear
  | powerUp => cases h; exact .inl rfl

/-- A fault that an event latches is a failing group of the pass, or of a grouped request with its own threshold. -/
theorem react_fatal {e : Event} (h : react e s = .next t) :
    t.fatal = none ∨ s.groupFails s.cfg.tickPulseBudget ∨
      ∃ c w th, e = .request c w ∧ decode (.sop w) = .ok (.getNextInstructionGrouped th) ∧ s.groupFails th := by
  cases e with
  | env e => exact (envStep_fatal hclear h).imp_right .inl
  | request c w =>
    refine (runWord_fatal (s := { s with sel := c }) hclear h).imp_right fun ⟨th, hdecode, hfails⟩ => ?_
    exact .inr ⟨c, w, th, rfl, hdecode, hfails⟩
  | motion c w => exact .inl (runWord_fatal_of_port_ne_sop (s := { s with sel := c }) (w := .miw w) hclear nofun h)
  | report w => exact .inl (runWord_fatal_of_port_ne_sop (w := .rw w) hclear nofun h)

/-- A fault that a step latches is a failing group of the pass, or of a grouped request with its own threshold. -/
theorem step_fatal (h : step s = .next t) :
    t.fatal = none ∨ s.groupFails s.cfg.tickPulseBudget ∨
      ∃ c w rest th, s.inputs = .request c w :: rest ∧ decode (.sop w) = .ok (.getNextInstructionGrouped th) ∧
        s.groupFails th := by
  unfold step transition at h
  split at h
  · cases h
    exact (passStep_fatal s).imp (·.trans hclear) .inl
  · obtain ⟨hsame, -⟩ := takeEvent_sameBlock s
    have ⟨hcfg, _, _, _, hfatal, _⟩ := hsame
    rcases react_fatal (hfatal.trans hclear) h with hnone | hpass | ⟨c, w, th, hevent, hdecode, hfails⟩
    · exact .inl hnone
    · rw [hcfg] at hpass
      exact .inr (.inl (hpass.congr hsame))
    · obtain ⟨rest, hinputs⟩ := inputs_of_nextEvent_request hevent
      exact .inr (.inr ⟨c, w, rest, th, hinputs, hdecode, hfails.congr hsame⟩)

end Running

end Sys2Proof.Machine
end

section
/-! Quantities below `2^31` (R171): every operation of the sequencer keeps them, since a plan's steps are a full travel
divided by 100 or 180 and the `Hold`s are the build's; and two of them do not overflow a merge. -/

namespace Sys2Proof.Machine

/-- R171. Every quantity of the queue is below `2^31`. -/
abbrev smallQueue (q : List Motion) : Prop := ∀ m ∈ q, m.quantity.toNat < 2147483648

/-! ### What the planning operations push -/

theorem positionStep_small (S : Sequencer) : (positionStep S).toNat < 2147483648 := by
  have hlt := S.fcq.isLt
  rw [positionStep, BitVec.toNat_udiv]
  exact Nat.div_lt_of_lt_mul (by simp; omega)

theorem tiltStep_small (fullTilt : U32) : (tiltStep fullTilt).toNat < 2147483648 := by
  have hlt := fullTilt.isLt
  rw [tiltStep, BitVec.toNat_udiv]
  exact Nat.div_lt_of_lt_mul (by simp; omega)

theorem tiltQuantity_small (position : Nat) (fullTilt : U32) : (tiltQuantity position fullTilt).toNat < 2147483648 := by
  unfold tiltQuantity
  split
  · decide
  · exact tiltStep_small fullTilt

theorem smallQueue_pushMove {p : Params} {S : Sequencer} (target : Nat) (h : smallQueue S.queue) :
    smallQueue (pushMove p target S).queue := by
  intro m hm
  rcases mem_pushAll hm with hm | hm
  · exact h m hm
  · obtain ⟨-, hquantity, -⟩ := mem_moveSteps hm
    rw [hquantity]
    exact positionStep_small S

theorem smallQueue_trigEndstop {p : Params} (hendstop : p.endstopHoldQuantity.toNat < 2147483648) (S : Sequencer) :
    smallQueue (trigEndstop p S).queue := by
  intro m hm
  rcases mem_pushBack hm with hm | rfl
  · cases hm
  · exact hendstop

section Keeps

variable {p : Params} (hhold : p.holdQuantity.toNat < 2147483648) {S : Sequencer}

include hhold

theorem smallQueue_addTilt (start stop : Int) (h : smallQueue S.queue) : smallQueue (addTilt p start stop S).queue := by
  rcases hft : S.ftq with _ | ft
  · rwa [addTilt_roller hft]
  · by_cases hsame : start = stop
    · subst hsame; rwa [addTilt_same]
    · intro m hm
      rw [addTilt_queue hft hsame] at hm
      rcases mem_pushAll hm with hm | hm
      · rcases mem_pushTiltHold hm with hm | rfl
        · exact h m hm
        · exact hhold
      · obtain ⟨-, hquantity, -⟩ := mem_tiltSweep hm
        rw [hquantity]
        exact tiltQuantity_small _ ft

theorem smallQueue_setPosition (target : Nat) (h : smallQueue S.queue) : smallQueue (setPosition p target S).queue := by
  unfold setPosition
  split
  · exact h
  · have hrestart : smallQueue (restartQueue p S (moveQuality S.cur.position target)) := fun m hm => by
      rw [mem_restartQueue hm]
      exact hhold
    exact smallQueue_addTilt hhold _ _ (smallQueue_pushMove target (smallQueue_addTilt hhold _ _ hrestart))

theorem smallQueue_setTilt (target : Int) (h : smallQueue S.queue) : smallQueue (setTilt p target S).queue := by
  unfold setTilt
  split
  · exact h
  · exact smallQueue_addTilt hhold _ _ h

/-! ### The fetches -/

theorem smallQueue_getNext (h : smallQueue S.queue) : smallQueue (getNext p S).2.queue := by
  rcases hg : getNext p S with ⟨r, S'⟩
  rcases getNext_cases hg with ⟨-, rfl, rfl⟩ | ⟨m, rest, hq, rfl, rfl⟩
  · exact h
  · intro x hx
    rcases mem_queueAfterPop hx with hx | rfl
    · exact h x (hq ▸ List.mem_cons_of_mem m hx)
    · exact hhold

/-- R171. With the threshold below `2^31` the group so far is below it too when another quantity is added. -/
theorem groupLoop_ne_error_of_small {th : U32} (hth : th.toNat < 2147483648) (fuel : Nat) (acc : Motion) (S : Sequencer)
    (h : smallQueue S.queue) (e : FatalCode) : (groupLoop p th fuel acc S).1 ≠ .error e := by
  induction fuel generalizing acc S with
  | zero => nofun
  | succ fuel ih =>
    by_cases hmay : mayGroup th acc S = true
    · obtain ⟨hbelow, m, rest, hq, hquality⟩ := mayGroup_iff.1 hmay
      have hm : m.quantity.toNat < 2147483648 := h m (by rw [hq]; exact List.mem_cons_self)
      have hrest := smallQueue_getNext hhold h
      rw [getNext_cons hq] at hrest
      rw [groupLoop_succ hq hbelow hquality]
      rcases merge_cases acc m with ⟨hne, -⟩ | ⟨-, hover, -⟩ | ⟨-, -, hmerge⟩
      · exact absurd hquality.symm hne
      · exact absurd hover (by simp only [maxU32]; omega)
      · rw [hmerge]
        exact ih _ _ hrest
    · rw [groupLoop_stop (by simpa using hmay)]
      nofun

theorem getNextGrouped_ne_error_of_small {th : U32} (hth : th.toNat < 2147483648) (h : smallQueue S.queue) (e : FatalCode) :
    (getNextGrouped p th S).1 ≠ .error e := by
  cases hq : S.queue with
  | nil => rw [getNextGrouped_nil hq]; nofun
  | cons first rest =>
    have hrest := smallQueue_getNext hhold h
    rw [getNext_cons hq] at hrest
    have hloop := groupLoop_ne_error_of_small hhold hth (queueAfterPop p first rest).length first _ hrest
    rcases hr : groupLoop p th (queueAfterPop p first rest).length first
      { S with cur := first.completed, queue := queueAfterPop p first rest } with ⟨e' | r, S'⟩
    · exact absurd (congrArg Prod.fst hr) (hloop e')
    · rw [getNextGrouped_cons hq hr]
      nofun

end Keeps

/-! ### Chains of changes -/

section Chains

variable {p : Params} (hhold : p.holdQuantity.toNat < 2147483648) (hendstop : p.endstopHoldQuantity.toNat < 2147483648)

include hhold hendstop

theorem SeqChange.smallQueue {S T : Sequencer} (h : SeqChange p S T) (hs : Machine.smallQueue S.queue) :
    Machine.smallQueue T.queue := by
  induction h with
  | refl => exact hs
  | trans _ _ ih1 ih2 => exact ih2 (ih1 hs)
  | fresh => nofun
  | load => exact hs
  | position _ target => exact smallQueue_setPosition hhold target hs
  | tilt _ target => exact smallQueue_setTilt hhold target hs
  | sweep _ a b => exact smallQueue_addTilt hhold a b hs
  | fetch => exact smallQueue_getNext hhold hs
  | endstop S => exact smallQueue_trigEndstop hendstop S

theorem ChanChange.smallQueue {now : Nat} {a b : Channel} (h : ChanChange p now a b)
    (hs : Machine.smallQueue a.seq.queue) : Machine.smallQueue b.seq.queue := by
  induction h with
  | refl => exact hs
  | trans _ _ ih1 ih2 => exact ih2 (ih1 hs)
  | seq ch S h => exact h.smallQueue hhold hendstop hs
  | fetched ch r S th h =>
    have hgrouped := (SeqChange.grouped th ch.seq).smallQueue hhold hendstop hs
    rwa [h] at hgrouped
  | consumed ch m => rw [consumeMotion_seq]; exact hs
  | endstop ch => exact smallQueue_trigEndstop hendstop ch.seq
  | buffered | changed | watcher | line | drained => exact hs

end Chains

/-! ### The whole state -/

theorem State.deviceReset_smallQuantities {s : State} (hbudget : s.cfg.tickPulseBudget.toNat < 2147483648)
    (hhold : s.cfg.holdQuantity.toNat < 2147483648) (hendstop : s.cfg.endstopHoldQuantity.toNat < 2147483648) :
    s.deviceReset.smallQuantities := by
  refine ⟨hbudget, hhold, hendstop, fun ch hch => ?_⟩
  obtain ⟨dir, line, rfl⟩ := eq_atReset_of_mem_deviceReset hch
  nofun

theorem Effect.smallQuantities {s t : State} (h : Effect s t) (hs : s.smallQuantities) : t.smallQuantities := by
  obtain ⟨hbudget, hhold, hendstop, hqueues⟩ := hs
  obtain ⟨c, htouch⟩ := h.chans
  rw [State.smallQuantities, h.cfg]
  exact ⟨hbudget, hhold, hendstop, htouch.all hqueues fun _ _ _ hchange => hchange.smallQueue hhold hendstop⟩

theorem step_smallQuantities {s t : State} (hs : s.smallQuantities) (hstep : step s = .next t) : t.smallQuantities := by
  rcases step_resetOrEffect hstep with ⟨u, ⟨hcfg, -⟩, rfl⟩ | heffect
  · obtain ⟨hbudget, hhold, hendstop, -⟩ := hs
    rw [← hcfg] at hbudget hhold hendstop
    exact State.deviceReset_smallQuantities hbudget hhold hendstop
  · exact heffect.smallQuantities hs

/-- R171. Where quantities are small only a threshold of `2^31` or more lets a group fail. -/
theorem State.groupFails.threshold {s : State} {th : U32} (h : s.groupFails th) (hs : s.smallQuantities) :
    2147483648 ≤ th.toNat := by
  obtain ⟨-, hhold, -, hqueues⟩ := hs
  obtain ⟨ch, hch, e, he⟩ := h
  by_contra hsmall
  exact getNextGrouped_ne_error_of_small hhold (Nat.lt_of_not_le hsmall) (hqueues ch hch) e he

/-- Settles O60: a step keeps the quantities small, and the group that a fault comes from has a threshold of `2^31` or more,
which the build's budget is not. -/
theorem overflowExcluded : Obligations.OverflowExcluded := by
  intro s t hs hstep
  refine ⟨step_smallQuantities hs hstep, fun hclear => (step_fatal hclear hstep).imp_right ?_⟩
  rintro (hpass | ⟨c, w, rest, th, hinputs, hdecode, hfails⟩)
  · exact absurd (hpass.threshold hs) (Nat.not_le.2 hs.1)
  · exact ⟨c, w, rest, th, hinputs, hdecode, hfails.threshold hs⟩

end Sys2Proof.Machine
end

section
/-! Rules about the operations that the dispatcher is made of: the change of one channel, the feed with its fetch, and the
channel step, one rule per branch (R194 to R197, R204, R205). -/

namespace Sys2Proof.Machine

/-! ### Changing one channel -/

/-- Beyond the channels there is nothing to change. -/
theorem onChan_of_length_le {s : State} {c : Nat} (h : s.chans.length ≤ c) (f : Channel → Channel) : s.onChan c f = s := by
  rw [State.onChan, State.setChan, List.set_eq_of_length_le h]

/-- What relates a channel's record to its change relates every channel of the state before to the same one after. -/
theorem onChan_rel {R : Nat → Channel → Channel → Prop} (hrefl : ∀ d ch, R d ch ch) {s : State} {c : Nat}
    {f : Channel → Channel} (hf : R c (s.chan c) (f (s.chan c))) (d : Nat) :
    R d (s.chan d) ((s.onChan c f).chan d) := by
  by_cases hd : c = d
  · subst hd
    by_cases hc : c < s.chans.length
    · rwa [onChan_chan_same f hc]
    · rw [onChan_of_length_le (Nat.le_of_not_lt hc)]
      exact hrefl c _
  · rw [onChan_chan_other f hd]
    exact hrefl d _

/-- A change of a channel that leaves its pending pulses alone leaves every channel's. -/
theorem onChan_chan_pending {s : State} {c : Nat} {f : Channel → Channel} (h : ∀ ch, (f ch).pending = ch.pending) (d : Nat) :
    ((s.onChan c f).chan d).pending = (s.chan d).pending :=
  onChan_rel (R := fun _ a b => b.pending = a.pending) (fun _ _ => rfl) (h _) d

/-! ### The feed and the fetch -/

section Feed

variable {s : State} {c : Nat}

theorem feed_of_buffered {m : Motion} (hbuf : (s.chan c).disp.buf = some m) (t : Nat) :
    s.feed c t = s.dispatch c m t := by
  rw [State.feed, hbuf]

theorem feed_of_empty (hbuf : (s.chan c).disp.buf = none) (t : Nat) : s.feed c t = s.fetchGroup c := by
  rw [State.feed, hbuf]

theorem fetchGroup_of_ok {r : Option Motion} {S : Sequencer}
    (h : getNextGrouped s.cfg s.cfg.tickPulseBudget (s.chan c).seq = (.ok r, S)) :
    s.fetchGroup c = s.onChan c (bufferFetched r S) := by
  rw [State.fetchGroup, h]

theorem fetchGroup_of_error {e : FatalCode} {S : Sequencer}
    (h : getNextGrouped s.cfg s.cfg.tickPulseBudget (s.chan c).seq = (.error e, S)) :
    s.fetchGroup c = (s.onSeq c fun _ => S).raiseFatal e := by
  rw [State.fetchGroup, h]

end Feed

/-! ### The branches of a channel step -/

theorem channelStep_of_halted {s : State} (h : s.halted = true) (c : Nat) : s.channelStep c = s := if_pos h

section Branches

variable {s : State} {c : Nat} (hfatal : s.fatal = none)

include hfatal

theorem channelStep_of_due (hdue : s.endstopDue c s.now = true) : s.channelStep c = (s.consumeFlag c).takeEndstop c := by
  rw [State.channelStep, halted_eq_false hfatal, if_neg Bool.false_ne_true, if_pos hdue]

/-- R197. Sampling uses up one free value, whatever it shows. -/
theorem channelStep_of_not_due (hdue : ¬ s.endstopDue c s.now = true) :
    s.channelStep c =
      if pgReady (Config.pgReady s.freeAt) (s.chan c) = true then (s.atFeed c).feed c s.now else s.atFeed c := by
  rw [State.channelStep, halted_eq_false hfatal, if_neg Bool.false_ne_true, if_neg hdue]
  rfl

theorem channelStep_of_ready (hdue : ¬ s.endstopDue c s.now = true)
    (hready : pgReady (Config.pgReady s.freeAt) (s.chan c) = true) : s.channelStep c = (s.atFeed c).feed c s.now :=
  (channelStep_of_not_due hfatal hdue).trans (if_pos hready)

theorem channelStep_of_not_ready (hdue : ¬ s.endstopDue c s.now = true)
    (hready : ¬ pgReady (Config.pgReady s.freeAt) (s.chan c) = true) : s.channelStep c = s.atFeed c :=
  (channelStep_of_not_due hfatal hdue).trans (if_neg hready)

end Branches

/-- R205. What a channel step comes to: nothing in a halted block; otherwise, with the flag consumed, the endstop path, or the
sampling of `ready` with the feed or without it. -/
theorem channelStep_cases (s : State) (c : Nat) :
    s.channelStep c = s ∨ s.channelStep c = (s.consumeFlag c).takeEndstop c ∨
      (s.fatal = none ∧ s.channelStep c = (s.atFeed c).feed c s.now) ∨ s.channelStep c = s.atFeed c := by
  by_cases hhalt : s.halted = true
  · exact .inl (channelStep_of_halted hhalt c)
  · have hfatal : s.fatal = none := by simpa [State.halted] using hhalt
    refine .inr ?_
    by_cases hdue : s.endstopDue c s.now = true
    · exact .inl (channelStep_of_due hfatal hdue)
    · by_cases hready : pgReady (Config.pgReady s.freeAt) (s.chan c) = true
      · exact .inr (.inl ⟨hfatal, channelStep_of_ready hfatal hdue hready⟩)
      · exact .inr (.inr (channelStep_of_not_ready hfatal hdue hready))

end Sys2Proof.Machine
end

section
/-! The motion port (R198 to R203, R207 to R209): what running a motion instruction comes to by the form of the buffer, and the
three rows by the outcomes of dispatch. -/

namespace Sys2Proof.Machine

open Host

/-! ### Running a motion instruction, by what the buffer holds -/

section Buffer

variable {s : State} {c : Nat} {ch : Channel} (hch : s.chans[c]? = some ch) {m : Motion}

include hch

/-- R207. An instruction that stands in the buffer is dispatched. -/
theorem runMotion_of_buffered (hbuf : ch.disp.buf = some m) : s.runMotion c m = s.dispatch c m s.now := by
  rw [State.runMotion, chan_of_some hch, hbuf]
  exact if_pos rfl

/-- R30. It is not the turn of an instruction while another one stands in the buffer. -/
theorem runMotion_of_other {b : Motion} (hbuf : ch.disp.buf = some b) (hne : b ≠ m) : s.runMotion c m = s := by
  rw [State.runMotion, chan_of_some hch, hbuf]
  exact if_neg hne

/-- R207, "effect when fetched": with an empty buffer the run is the one of the state in which the instruction was fetched. -/
theorem runMotion_of_empty (hbuf : ch.disp.buf = none) :
    s.runMotion c m = (s.setChan c (fetchInto m ch)).runMotion c m := by
  have hfetched : (s.setChan c (fetchInto m ch)).chans[c]? = some (fetchInto m ch) :=
    List.getElem?_set_self (lt_of_some hch)
  have hrun := runMotion_of_buffered hfetched (m := m) rfl
  rw [hrun, State.runMotion, State.onChan, chan_of_some hch, hbuf]
  rfl

end Buffer

/-! ### The rows -/

section Rows

variable {s : State} {ch : Channel} (hfatal : s.fatal = none) (hch : s.chans[s.sel]? = some ch) (d : Direction) (q : U32)

include hfatal hch

/-- R207 to R209. With operands in range each of the three rows runs its motion instruction on the selected channel. -/
theorem exec_motionRow {p t : U8} (hp : p.toNat ≤ 100) (hlow : -90 ≤ t.toInt) (hhigh : t.toInt ≤ 90) :
    exec (motionRow d q p t) s = .next (s.runMotion s.sel (motionOf d q p t)) := by
  have hok := positionOk_and_tiltOk hp hlow hhigh
  have hrequest : motionRequest (motionOf d q p t) s = .next (s.runMotion s.sel (motionOf d q p t)) := by
    simp [motionRequest, halted_eq_false hfatal, State.chan?, hch]
  cases d with
  | extend | retract | hold => exact (ifRange_of_true hok _).trans hrequest

end Rows

/-- Settles O36: the buffered instruction is dispatched, by the branch of the latched quality. -/
theorem motionSameQuality : Obligations.MotionSameQuality := by
  intro d q p t s ch hfatal hch hp hlow hhigh hlatched hbuf
  have hrun := runMotion_of_buffered hch (m := motionOf d q p t) hbuf
  rw [exec_motionRow hfatal hch d q hp hlow hhigh, hrun, dispatch_same hch hlatched.symm]
  rfl

/-- Settles O37: the buffered instruction is dispatched, by the branch of the direction change. -/
theorem motionDirectionChange : Obligations.MotionDirectionChange := by
  intro d q p t s ch hfatal hch hp hlow hhigh hlatched hpending hdeadline hbuf
  have hrun := runMotion_of_buffered hch (m := motionOf d q p t) hbuf
  rw [exec_motionRow hfatal hch d q hp hlow hhigh, hrun, dispatch_turn hch hlatched.symm hpending hdeadline]
  rfl

/-- Settles O38: the buffered instruction waits in its dispatch, any other one before it. -/
theorem motionWaits : Obligations.MotionWaits := by
  intro d q p t s ch m hfatal hch hp hlow hhigh hbuf hcases
  rw [exec_motionRow hfatal hch d q hp hlow hhigh]
  rcases hcases with ⟨rfl, hlatched, hwait⟩ | hother
  · have hrun := runMotion_of_buffered hch (m := motionOf d q p t) hbuf
    rw [hrun, dispatch_wait hch hlatched.symm hwait]
  · have hstay := runMotion_of_other hch (m := motionOf d q p t) hbuf hother
    rw [hstay]

/-- Settles O39: both rows run the instruction, and from an empty buffer its run begins with the fetch. -/
theorem motionFetchedFirst : Obligations.MotionFetchedFirst := by
  intro d q p t s ch hfatal hch hp hlow hhigh hbuf
  have hfetched : (s.setChan s.sel (fetchInto (motionOf d q p t) ch)).chans[s.sel]? =
      some (fetchInto (motionOf d q p t) ch) := List.getElem?_set_self (lt_of_some hch)
  rw [exec_motionRow hfatal hch d q hp hlow hhigh, runMotion_of_empty hch hbuf]
  exact (exec_motionRow (s := s.setChan s.sel _) hfatal hfetched d q hp hlow hhigh).symm

/-! ### The dispatcher's feed -/

/-- An update of fields that the dispatcher does not look at, such as the port's selection. -/
structure Bookkeeping (g : State → State) : Prop where
  cfg : ∀ s, (g s).cfg = s.cfg
  polarity : ∀ s, (g s).polarity = s.polarity
  chan : ∀ s c, (g s).chan c = s.chan c
  onChan : ∀ s c f, (g s).onChan c f = g (s.onChan c f)
  emitPosition : ∀ s c, (g s).emitPosition c = g (s.emitPosition c)

theorem Bookkeeping.dispatch {g : State → State} (hg : Bookkeeping g) (s : State) (c : Nat) (m : Motion) (t : Nat) :
    (g s).dispatch c m t = g (s.dispatch c m t) := by
  simp only [State.dispatch, hg.cfg, hg.polarity, hg.chan, hg.onChan, hg.emitPosition, apply_ite g]

theorem bookkeeping_sel (sel : Nat) : Bookkeeping fun s => { s with sel := sel } :=
  ⟨fun _ => rfl, fun _ => rfl, fun _ _ => rfl, fun _ _ _ => rfl, fun _ _ => rfl⟩

theorem instrOfMotion_eq (m : Motion) :
    instrOfMotion m = motionRow m.quality m.quantity (positionByte m.completed) (tiltByte m.completed) := by
  unfold instrOfMotion motionRow
  cases m.quality <;> rfl

/-- Settles O45: the feed of a full buffer and the row of its instruction are the same dispatch; the row's bytes stand for the
instruction's state. -/
theorem feedRunsBuffered : Obligations.FeedRunsBuffered := by
  intro s c ch m hfatal hch hbuf hrange
  obtain ⟨hposition, hlow, hhigh⟩ := (inRange_iff _).1 hrange
  rw [← positionByte_toNat hrange] at hposition
  rw [← tiltByte_toInt hrange] at hlow hhigh
  have hmotion : motionOf m.quality m.quantity (positionByte m.completed) (tiltByte m.completed) = m := by
    rw [motionOf, stateOf_bytes hrange]
  have hrow := exec_motionRow (s := { s with sel := c }) hfatal hch m.quality m.quantity hposition hlow hhigh
  have hrun := runMotion_of_buffered (s := { s with sel := c }) hch hbuf
  have hdispatch := (bookkeeping_sel c).dispatch s c m s.now
  rw [hmotion] at hrow
  rw [instrOfMotion_eq, feed_of_buffered (chan_of_some hch ▸ hbuf), hrow]
  exact congrArg Outcome.next (hrun.trans hdispatch)

end Sys2Proof.Machine
end

section
/-! The channel step (R194 to R197, R204, R205): its rules, one per branch, and what any branch may write. -/

namespace Sys2Proof.Machine

open Host

/-! ### The endstop path -/

/-- R194. The flag is consumed at once and for all. -/
theorem consumeFlag_eq (s : State) (c : Nat) : s.consumeFlag c = { s with endstop := s.endstop.set c false } := rfl

theorem endstopDue_iff {s : State} {c : Nat} {ch : Channel} (hch : s.chans[c]? = some ch) :
    s.endstopDue c s.now = true ↔
      s.endstop.getD c false = true ∧ ch.disp.lastReversal + s.cfg.endstopGuard ≤ s.now := by
  simp [State.endstopDue, fetchAndClear, readBit, guardElapsed, chan_of_some hch]

theorem takeEndstop_of_chan {s : State} {c : Nat} {ch : Channel} (hch : s.chans[c]? = some ch) :
    s.takeEndstop c =
      { s with
        chans := s.chans.set c (endstopChannel s.cfg ch)
        reports := s.reports ++ [.position c (inferredExtreme ch.seq) (inferredExtreme ch.seq)] } := by
  have hread : ({ s with chans := s.chans.set c (endstopChannel s.cfg ch) } : State).chan c = endstopChannel s.cfg ch :=
    chan_of_some (List.getElem?_set_self (lt_of_some hch))
  rw [State.takeEndstop, onChan_get hch, State.emitPosition, hread]
  rfl

/-- Settles O42: the path is due, the statement's extreme is the inferred one, and the placeholder fits. -/
theorem endstopPath : Obligations.EndstopPath := by
  intro s c ch e hfatal hch hq hflag hguard hposition htilt
  obtain rfl := inferredExtreme_eq hposition htilt
  have hdue := (endstopDue_iff hch).2 ⟨hflag, hguard⟩
  have htaken := takeEndstop_of_chan (s := s.consumeFlag c) hch
  rw [endstopChannel, trigEndstop_eq (p := (s.consumeFlag c).cfg) hq] at htaken
  rw [channelStep_of_due hfatal hdue, htaken]
  rfl

/-- R194. -/
theorem channelStep_endstop {s : State} (hfatal : s.fatal = none) (c : Nat) :
    (s.channelStep c).endstop = s.endstop.set c false := by
  by_cases hdue : s.endstopDue c s.now = true
  · rw [channelStep_of_due hfatal hdue]
    rfl
  · rw [channelStep_of_not_due hfatal hdue]
    split
    · exact feed_endstop (s.atFeed c) c s.now
    · rfl

/-- Settles O43: inside the guard interval the path is not due, whether the bit is set or was clear before. -/
theorem guardedTriggerLost : Obligations.GuardedTriggerLost := by
  intro s c ch hfatal hch
  refine ⟨channelStep_endstop hfatal c, fun hguard => ?_⟩
  have hdue : ¬ s.endstopDue c s.now = true := fun h => Nat.not_le.2 hguard ((endstopDue_iff hch).1 h).2
  have hdue' : ¬ (s.consumeFlag c).endstopDue c s.now = true := fun h =>
    Nat.not_le.2 hguard ((endstopDue_iff (s := s.consumeFlag c) hch).1 h).2
  have htwice : (s.consumeFlag c).atFeed c = s.atFeed c := by simp only [consumeFlag_eq, State.atFeed, List.set_set]
  rw [channelStep_of_not_due hfatal hdue, ← consumeFlag_eq,
    channelStep_of_not_due (s := s.consumeFlag c) hfatal hdue', htwice]
  rfl

/-! ### The ready gate -/

theorem pgReady_of_stopped {ch : Channel} (h : ch.pending = 0) (whileBusy : Bool) : pgReady whileBusy ch = true := by
  simp [pgReady, pgStopped, h]

theorem pgReady_of_busy {ch : Channel} (h : ch.pending ≠ 0) (whileBusy : Bool) : pgReady whileBusy ch = whileBusy := by
  simp [pgReady, pgStopped, h]

/-- Settles O44: the path is not due, so the step is the gate. -/
theorem readyGate : Obligations.ReadyGate := by
  intro s c ch hfatal hch hno
  have hdue : ¬ s.endstopDue c s.now = true := by
    rw [endstopDue_iff hch]
    rintro ⟨hflag, hguard⟩
    rcases hno with hclear | hinside
    · exact Bool.false_ne_true (hclear.symm.trans hflag)
    · exact Nat.not_le.2 hinside hguard
  rw [channelStep_of_not_due hfatal hdue, chan_of_some hch]
  exact ⟨rfl, fun h => pgReady_of_stopped h _, fun h => pgReady_of_busy h _⟩

/-! ### The fetch -/

/-- Settles O46: the feed of an empty buffer and the request on the port are the same grouped fetch. -/
theorem feedFetches : Obligations.FeedFetches := by
  intro s c ch hfatal hch hbuf
  obtain rfl := chan_of_some hch
  rw [feed_of_empty hbuf]
  rcases hgroup : getNextGrouped s.cfg s.cfg.tickPulseBudget (s.chan c).seq with ⟨e | r, S⟩
  · have hrow := exec_getNextInstructionGrouped_of_error (s := { s with sel := c }) hfatal hch hgroup
    refine ⟨_, hrow, .inr ⟨nofun, ?_⟩⟩
    simp only [fetchGroup_of_error hgroup, onSeq_get hch, State.raiseFatal, hfatal]
  · have hrow := exec_getNextInstructionGrouped_of_ok (s := { s with sel := c }) hfatal hch hgroup
    refine ⟨_, hrow, .inl ⟨r, S, hfatal, rfl, List.getElem?_set_self (lt_of_some hch), ?_⟩⟩
    simp only [fetchGroup_of_ok hgroup, onChan_get hch, bufferFetched, pgStopped, decide_eq_true_eq]

/-! ### What a channel step may write -/

/-- R191. Two records of a channel with the same watcher and the same limit-switch line. -/
abbrev Channel.SameInputs (a b : Channel) : Prop := b.watcher = a.watcher ∧ b.line = a.line

theorem Channel.SameInputs.trans {a b c : Channel} (h : a.SameInputs b) (h' : b.SameInputs c) : a.SameInputs c :=
  ⟨h'.1.trans h.1, h'.2.trans h.2⟩

/-- R191, R262. What `channel_step(c)` may do once the flag is consumed and `ready` sampled. -/
structure DispatcherWrite (c : Nat) (s t : State) : Prop where
  chans : ∃ ch', (s.chan c).SameInputs ch' ∧ t.chans = s.chans.set c ch'
  reports : ∃ rs : List Report, rs.length ≤ 1 ∧ t.reports = s.reports ++ rs
  latch : (t.fatal = s.fatal ∧ t.passAt = s.passAt) ∨
    (s.fatal = none ∧ t.fatal = some .mergeOverflow ∧ t.passAt = none)
  rest : { t with chans := s.chans, reports := s.reports, fatal := s.fatal, passAt := s.passAt } = s

theorem set_chan_self (s : State) (c : Nat) : s.chans.set c (s.chan c) = s.chans := by
  by_cases hc : c < s.chans.length
  · have hread := (List.getElem?_eq_some_iff.1 (chans_getElem? hc)).2
    rw [← hread, List.set_getElem_self]
  · rw [List.set_eq_of_length_le (Nat.le_of_not_lt hc)]

theorem consumeMotion_inputs (p : Params) (t : Nat) (m : Motion) (ch : Channel) :
    ch.SameInputs (consumeMotion p t m ch) := by
  unfold consumeMotion
  split <;> exact ⟨rfl, rfl⟩

/-- R263. The one fatal condition that a grouped fetch can end in. -/
theorem eq_mergeOverflow_of_getNextGrouped {p : Params} {th : U32} {S S' : Sequencer} {e : FatalCode}
    (h : getNextGrouped p th S = (.error e, S')) : e = .mergeOverflow := by
  cases e with
  | mergeOverflow => rfl
  | mergeMismatch => exact absurd (congrArg Prod.fst h) (getNextGrouped_no_mismatch p th S)

theorem appends_nothing (stream : List Report) : ∃ rs : List Report, rs.length ≤ 1 ∧ stream = stream ++ rs :=
  ⟨[], Nat.zero_le _, (List.append_nil _).symm⟩

namespace DispatcherWrite

variable {s : State} {c : Nat}

theorem refl (s : State) (c : Nat) : DispatcherWrite c s s where
  chans := ⟨s.chan c, ⟨rfl, rfl⟩, (set_chan_self s c).symm⟩
  reports := appends_nothing _
  latch := .inl ⟨rfl, rfl⟩
  rest := rfl

/-- A change of the channel's own fields that emits nothing. -/
theorem onChan {f : Channel → Channel} (hf : (s.chan c).SameInputs (f (s.chan c))) :
    DispatcherWrite c s (s.onChan c f) where
  chans := ⟨_, hf, rfl⟩
  reports := appends_nothing _
  latch := .inl ⟨rfl, rfl⟩
  rest := rfl

theorem takeEndstop (s : State) (c : Nat) : DispatcherWrite c s (s.takeEndstop c) where
  chans := ⟨endstopChannel s.cfg (s.chan c), ⟨rfl, rfl⟩, rfl⟩
  reports := ⟨[_], Nat.le_refl 1, rfl⟩
  latch := .inl ⟨rfl, rfl⟩
  rest := rfl

theorem dispatch (s : State) (c : Nat) (m : Motion) (now : Nat) : DispatcherWrite c s (s.dispatch c m now) := by
  unfold State.dispatch
  split
  · exact .onChan (consumeMotion_inputs ..)
  · split
    · have hturned : (s.chan c).SameInputs
          ((s.onChan c (changeDirection s.cfg now (readBit s.polarity c) m.quality)).chan c) :=
        onChan_rel (R := fun _ => Channel.SameInputs) (fun _ _ => ⟨rfl, rfl⟩) ⟨rfl, rfl⟩ c
      exact
        { chans := ⟨_, hturned.trans (consumeMotion_inputs ..), List.set_set ..⟩
          reports := ⟨[_], Nat.le_refl 1, rfl⟩
          latch := .inl ⟨rfl, rfl⟩
          rest := rfl }
    · exact .refl s c

/-- R262. The latch was clear, so it takes the code. -/
theorem fetchGroup (hfatal : s.fatal = none) (c : Nat) : DispatcherWrite c s (s.fetchGroup c) := by
  unfold State.fetchGroup
  split
  · exact .onChan ⟨rfl, rfl⟩
  · next e S heq =>
    obtain rfl := eq_mergeOverflow_of_getNextGrouped heq
    exact
      { chans := ⟨{ s.chan c with seq := S }, ⟨rfl, rfl⟩, rfl⟩
        reports := appends_nothing _
        latch := .inr ⟨hfatal, raiseFatal_fatal _ _ hfatal, rfl⟩
        rest := rfl }

theorem feed (hfatal : s.fatal = none) (c now : Nat) : DispatcherWrite c s (s.feed c now) := by
  unfold State.feed
  split
  · exact .dispatch s c _ now
  · exact .fetchGroup hfatal c

theorem other_chan {t : State} (h : DispatcherWrite c s t) {d : Nat} (hd : d ≠ c) : t.chans[d]? = s.chans[d]? := by
  obtain ⟨ch', -, hchans⟩ := h.chans
  rw [hchans, List.getElem?_set_ne hd.symm]

theorem inputs {t : State} (h : DispatcherWrite c s t) {a b : Channel} (ha : s.chans[c]? = some a)
    (hb : t.chans[c]? = some b) : a.SameInputs b := by
  obtain ⟨ch', hinputs, hchans⟩ := h.chans
  rw [hchans, List.getElem?_set_self (lt_of_some ha)] at hb
  rwa [chan_of_some ha, Option.some.inj hb] at hinputs

end DispatcherWrite

/-- R205. A channel step does nothing, or it consumes the flag, uses at most one free value, and then writes as the dispatcher
does. -/
theorem channelStep_write (s : State) (c : Nat) :
    s.channelStep c = s ∨ ∃ free, (free = s.freeAt ∨ free = s.freeAt + 1) ∧
      DispatcherWrite c { s with endstop := s.endstop.set c false, freeAt := free } (s.channelStep c) := by
  refine (channelStep_cases s c).imp_right ?_
  rintro (hstep | ⟨hfatal, hstep⟩ | hstep)
  · rw [hstep]
    exact ⟨s.freeAt, .inl rfl, .takeEndstop (s.consumeFlag c) c⟩
  · rw [hstep]
    exact ⟨s.freeAt + 1, .inr rfl, .feed (s := s.atFeed c) hfatal c s.now⟩
  · rw [hstep]
    exact ⟨s.freeAt + 1, .inr rfl, .refl (s.atFeed c) c⟩

/-- Settles O47: the frame of a `DispatcherWrite`, after the flag and the free value. -/
theorem channelStepFrame : Obligations.ChannelStepFrame := by
  rintro s _ c rfl
  rcases channelStep_write s c with hsame | ⟨free, hfree, hwrite⟩
  · rw [hsame]
    refine ⟨fun _ _ => ⟨rfl, rfl⟩, fun a b ha hb => ?_, appends_nothing _, .inl ⟨rfl, rfl⟩,
      .inl rfl, rfl⟩
    obtain rfl := Option.some.inj (ha.symm.trans hb)
    exact ⟨rfl, rfl⟩
  · have hendstop : (s.channelStep c).endstop = s.endstop.set c false := congrArg State.endstop hwrite.rest
    have hfreeAt : (s.channelStep c).freeAt = free := congrArg State.freeAt hwrite.rest
    have hrest := congrArg (fun u : State => { u with endstop := s.endstop, freeAt := s.freeAt }) hwrite.rest
    refine ⟨fun d hd => ⟨hwrite.other_chan hd, ?_⟩, fun a b ha hb => hwrite.inputs ha hb, hwrite.reports, hwrite.latch,
      by rwa [hfreeAt], hrest⟩
    rw [hendstop, List.getElem?_set_ne hd.symm]

end Sys2Proof.Machine
end

section
/-! The pass (R190, R191): taken one channel step at a time, and what waits for its end; and the length of a pause (R192). -/

namespace Sys2Proof.Machine

open Host

/-! ### One piece of a pass -/

theorem passStep_of_none {s : State} (h : s.passAt = none) : s.passStep = s := by rw [State.passStep, h]

theorem passStep_of_some {s : State} {c : Nat} (h : s.passAt = some c) :
    s.passStep =
      { s.channelStep c with passAt := if (s.channelStep c).halted then none else nextInPass s c } := by
  rw [State.passStep, h]

/-- Settles O8: such an event waits, and the pass goes on. -/
theorem commandsWaitForPass : Obligations.CommandsWaitForPass := by
  intro s c e rest hpass hinputs hevent
  have hnext : s.nextEvent = e := by rw [State.nextEvent, hinputs]
  have hwaits : waitsForPass e = true := by rcases hevent with rfl | ⟨b, rfl⟩ | ⟨w, rfl⟩ <;> rfl
  have hstep : step s = .next s.passStep := if_pos ⟨by rw [State.inPass, hpass]; rfl, hnext ▸ hwaits⟩
  rw [hstep, passStep_of_some hpass]
  rfl

/-! ### A whole pass -/

theorem bookkeeping_passAt (pass : Option Nat) : Bookkeeping fun s => { s with passAt := pass } :=
  ⟨fun _ => rfl, fun _ => rfl, fun _ _ => rfl, fun _ _ _ => rfl, fun _ _ => rfl⟩

section PassApart

variable (s : State) (c : Nat) (p q : Option Nat)

/-- A fatal merge overwrites the pass, any other fetch leaves it. -/
theorem fetchGroup_passAt_apart :
    { ({ s with passAt := p } : State).fetchGroup c with passAt := q } = { s.fetchGroup c with passAt := q } := by
  rcases hgroup : getNextGrouped s.cfg s.cfg.tickPulseBudget (s.chan c).seq with ⟨e | r, S⟩
  · rw [fetchGroup_of_error hgroup, fetchGroup_of_error (s := { s with passAt := p }) hgroup]
    rfl
  · rw [fetchGroup_of_ok hgroup, fetchGroup_of_ok (s := { s with passAt := p }) hgroup]
    rfl

theorem feed_passAt_apart (now : Nat) :
    { ({ s with passAt := p } : State).feed c now with passAt := q } = { s.feed c now with passAt := q } := by
  cases hbuf : (s.chan c).disp.buf with
  | some m =>
    have hdispatch := (bookkeeping_passAt p).dispatch s c m now
    rw [feed_of_buffered hbuf, feed_of_buffered (s := { s with passAt := p }) hbuf, hdispatch]
  | none =>
    rw [feed_of_empty hbuf, feed_of_empty (s := { s with passAt := p }) hbuf]
    exact fetchGroup_passAt_apart s c p q

/-- R191. A channel step does the same wherever the pass is, apart from the pass itself. -/
theorem channelStep_passAt_apart :
    { ({ s with passAt := p } : State).channelStep c with passAt := q } = { s.channelStep c with passAt := q } := by
  by_cases hhalt : s.halted = true
  · rw [channelStep_of_halted hhalt, channelStep_of_halted (s := { s with passAt := p }) hhalt]
  · have hfatal : s.fatal = none := by simpa [State.halted] using hhalt
    by_cases hdue : s.endstopDue c s.now = true
    · rw [channelStep_of_due hfatal hdue, channelStep_of_due (s := { s with passAt := p }) hfatal hdue]
      rfl
    · by_cases hready : pgReady (Config.pgReady s.freeAt) (s.chan c) = true
      · rw [channelStep_of_ready hfatal hdue hready,
          channelStep_of_ready (s := { s with passAt := p }) hfatal hdue hready]
        exact feed_passAt_apart (s.atFeed c) c p q s.now
      · rw [channelStep_of_not_ready hfatal hdue hready,
          channelStep_of_not_ready (s := { s with passAt := p }) hfatal hdue hready]
        rfl

theorem channelStep_passAt_halted :
    (({ s with passAt := p } : State).channelStep c).halted = (s.channelStep c).halted := by
  have hapart := congrArg State.halted (channelStep_passAt_apart s c p none)
  exact hapart

end PassApart

/-- The channel steps of the first `k` channels, ascending. -/
def State.stepsBelow (s : State) (k : Nat) : State := (List.range k).foldl State.channelStep s

theorem stepsBelow_succ (s : State) (k : Nat) : s.stepsBelow (k + 1) = (s.stepsBelow k).channelStep k := by
  rw [State.stepsBelow, List.range_succ, List.foldl_append]
  rfl

theorem stepsBelow_cfg (s : State) (k : Nat) : (s.stepsBelow k).cfg = s.cfg := by
  induction k with
  | zero => rfl
  | succ k ih => rw [stepsBelow_succ, (channelStep_effect _ k).cfg, ih]

/-- R190, R191. Where a pass stands after its first `k` channels: at the next channel, or at its end, which a fatal fault
brings at once. -/
def State.passAfter (s : State) (k : Nat) : State :=
  { s.stepsBelow k with
    passAt := if (s.stepsBelow k).halted then none else if k < s.cfg.nch then some k else none }

theorem passStep_passAfter {s : State} {k : Nat} (hk : k < s.cfg.nch) : (s.passAfter k).passStep = s.passAfter (k + 1) := by
  by_cases hhalt : (s.stepsBelow k).halted = true
  · have hstays : s.stepsBelow (k + 1) = s.stepsBelow k := by rw [stepsBelow_succ, channelStep_of_halted hhalt]
    rw [passStep_of_none (by rw [State.passAfter, if_pos hhalt])]
    simp only [State.passAfter, hstays, hhalt, if_true]
  · have hat : s.passAfter k = { s.stepsBelow k with passAt := some k } := by
      rw [State.passAfter, if_neg hhalt, if_pos hk]
    have hnext : nextInPass { s.stepsBelow k with passAt := some k } k =
        if k + 1 < s.cfg.nch then some (k + 1) else none := by
      rw [nextInPass, ← stepsBelow_cfg s k]
    rw [hat, passStep_of_some rfl, channelStep_passAt_halted, channelStep_passAt_apart, hnext, State.passAfter,
      stepsBelow_succ]

theorem iterate_passStep {s : State} (hfatal : s.fatal = none) (hnch : 0 < s.cfg.nch) {k : Nat} (hk : k ≤ s.cfg.nch) :
    State.passStep^[k] s.startPass = s.passAfter k := by
  induction k with
  | zero =>
    have hhalt : ¬ s.halted = true := by simp [halted_eq_false hfatal]
    have hzero : s.stepsBelow 0 = s := rfl
    rw [State.passAfter, hzero, if_neg hhalt, if_pos hnch]
    exact if_neg hhalt
  | succ k ih => rw [Function.iterate_succ_apply', ih (Nat.le_of_succ_le hk), passStep_passAfter hk]

/-- Settles O49: a pass taken to its last channel is at its end. -/
theorem passRunsEveryChannel : Obligations.PassRunsEveryChannel := by
  intro s hfatal hnch
  rw [iterate_passStep hfatal hnch (Nat.le_refl _), State.passAfter, if_neg (Nat.lt_irrefl _), ite_self]
  rfl

/-! ### The length of a pause -/

/-- Settles O48: the two bounds of a quotient that is rounded down. -/
theorem holdTimeRoundsDown : Obligations.HoldTimeRoundsDown := by
  intro p q hpos
  refine ⟨Nat.div_mul_le_self _ _, ?_, ?_⟩
  · rw [Nat.mul_comm (holdTime p q + 1)]
    exact Nat.lt_mul_div_succ _ hpos
  · rw [holdTime, BitVec.toNat_zero, Nat.zero_mul, Nat.zero_div]

end Sys2Proof.Machine
end

section
/-! The central property of the dispatcher (R206, R283): a channel turns, that is, its direction line or its latched quality
changes, only while no pulse is pending, and only a pass or a motion word at the channel pushes pulses. First the property of
one channel's record, then each operation of the block, then the step. -/

namespace Sys2Proof.Machine

open Host

/-! ### The property -/

/-- R206. A channel that was `a` and is `b` has turned only if it was drained, and has more pulses pending only if it may. -/
structure Channel.TurnsDrained (mayPush : Prop) (a b : Channel) : Prop where
  turn : b.dir ≠ a.dir ∨ b.disp.latched ≠ a.disp.latched → a.pending = 0
  push : a.pending < b.pending → mayPush

/-- R206, for every channel; `mayPush` says which ones may push. -/
def State.TurnsDrained (mayPush : Nat → Prop) (s t : State) : Prop :=
  ∀ d, (s.chan d).TurnsDrained (mayPush d) (t.chan d)

namespace Channel.TurnsDrained

variable {mayPush : Prop} {a b c : Channel}

theorem of_not_turned (hdir : b.dir = a.dir) (hlatched : b.disp.latched = a.disp.latched)
    (hpush : a.pending < b.pending → mayPush) : a.TurnsDrained mayPush b :=
  ⟨fun hturn => (hturn.elim (· hdir) (· hlatched)).elim, hpush⟩

/-- Neither turned nor pushed. -/
theorem of_calm (hdir : b.dir = a.dir) (hlatched : b.disp.latched = a.disp.latched) (hpending : b.pending ≤ a.pending) :
    a.TurnsDrained mayPush b :=
  of_not_turned hdir hlatched fun hmore => absurd hmore (Nat.not_lt.2 hpending)

theorem refl (a : Channel) : a.TurnsDrained mayPush a := of_calm rfl rfl (Nat.le_refl _)

/-- A pulse taken away in between would hide one that was pending at a turn. -/
theorem trans (h : a.TurnsDrained mayPush b) (hkept : b.pending = a.pending) (h' : b.TurnsDrained mayPush c) :
    a.TurnsDrained mayPush c := by
  refine ⟨fun hturn => ?_, fun hmore => h'.push (hkept ▸ hmore)⟩
  by_cases hfirst : b.dir ≠ a.dir ∨ b.disp.latched ≠ a.disp.latched
  · exact h.turn hfirst
  · obtain ⟨hdir, hlatched⟩ : b.dir = a.dir ∧ b.disp.latched = a.disp.latched := by simpa using hfirst
    rw [← hkept]
    exact h'.turn (by rwa [hdir, hlatched])

end Channel.TurnsDrained

section Operations

variable {mayPush : Nat → Prop} {s t : State} {c : Nat}

namespace State.TurnsDrained

theorem refl (s : State) : s.TurnsDrained mayPush s := fun _ => .refl _

theorem onChan {f : Channel → Channel} (hf : (s.chan c).TurnsDrained (mayPush c) (f (s.chan c))) :
    s.TurnsDrained mayPush (s.onChan c f) :=
  onChan_rel (R := fun d => Channel.TurnsDrained (mayPush d)) (fun _ => .refl) hf

theorem trans {u : State} (h : s.TurnsDrained mayPush t) (hkept : ∀ d, (t.chan d).pending = (s.chan d).pending)
    (h' : t.TurnsDrained mayPush u) : s.TurnsDrained mayPush u := fun d => (h d).trans (hkept d) (h' d)

/-- R126. A sequencer operation has no part in it. -/
theorem onSeq (f : Sequencer → Sequencer) : s.TurnsDrained mayPush (s.onSeq c f) :=
  .onChan (.of_calm rfl rfl (Nat.le_refl _))

theorem onSeq_report (f : Sequencer → Sequencer) : s.TurnsDrained mayPush ((s.onSeq c f).emitPosition c) := .onSeq f

end State.TurnsDrained

/-! ### The dispatcher -/

theorem dispatch_turnsDrained (hpush : mayPush c) (m : Motion) (now : Nat) :
    s.TurnsDrained mayPush (s.dispatch c m now) := by
  have hconsume (u : State) : u.TurnsDrained mayPush (u.onChan c (consumeMotion s.cfg now m)) :=
    .onChan (.of_not_turned (consumeMotion_dir ..) (consumeMotion_latched ..) fun _ => hpush)
  unfold State.dispatch
  split
  · exact hconsume s
  · split
    · next hmay =>
      have hdrained : (s.chan c).pending = 0 := by
        simp only [mayChange, pgStopped, Bool.and_eq_true, decide_eq_true_eq] at hmay
        exact hmay.1
      have hturn : s.TurnsDrained mayPush (s.onChan c (changeDirection s.cfg now (readBit s.polarity c) m.quality)) :=
        .onChan ⟨fun _ => hdrained, fun _ => hpush⟩
      exact hturn.trans (onChan_chan_pending fun _ => rfl) (hconsume _)
    · exact .refl s

theorem fetchGroup_turnsDrained : s.TurnsDrained mayPush (s.fetchGroup c) := by
  unfold State.fetchGroup
  split
  · exact .onChan (.of_calm rfl rfl (Nat.le_refl _))
  · next S _ => exact .onSeq (c := c) fun _ => S

theorem feed_turnsDrained (hpush : mayPush c) (now : Nat) : s.TurnsDrained mayPush (s.feed c now) := by
  unfold State.feed
  split
  · exact dispatch_turnsDrained hpush _ now
  · exact fetchGroup_turnsDrained

/-- R196. The endstop path takes pulses away and leaves the line and the latched quality (R213). -/
theorem takeEndstop_turnsDrained : s.TurnsDrained mayPush (s.takeEndstop c) :=
  .onChan (.of_calm rfl rfl (Nat.zero_le _))

theorem channelStep_turnsDrained (hpush : mayPush c) : s.TurnsDrained mayPush (s.channelStep c) := by
  rcases channelStep_cases s c with hstep | hstep | ⟨-, hstep⟩ | hstep
  · rw [hstep]
    exact .refl s
  · rw [hstep]
    exact takeEndstop_turnsDrained (s := s.consumeFlag c)
  · rw [hstep]
    exact feed_turnsDrained (s := s.atFeed c) hpush s.now
  · rw [hstep]
    exact .refl s

theorem passStep_turnsDrained (hpush : ∀ d, s.passAt = some d → mayPush d) : s.TurnsDrained mayPush s.passStep := by
  unfold State.passStep
  split
  · exact .refl s
  · next c hc => exact channelStep_turnsDrained (s := s) (hpush c hc)

/-! ### Instructions -/

theorem applyCommand_turnsDrained {channel : U8} {legal : Bool} {effect : Nat → State → State}
    (heffect : ∀ c, s.TurnsDrained mayPush (effect c s)) (h : applyCommand channel legal effect s = .next t) :
    s.TurnsDrained mayPush t := by
  unfold applyCommand at h
  split at h
  · cases h; exact .refl s
  · split at h <;> cases h
    · exact heffect _
    · exact .refl s

/-- R238. A host command has no part in it, but for `RESET`. -/
theorem exec_turnsDrained_of_cw {i : Instr} (hp : i.port = .cw) (h : exec i s = .next t) :
    t.justReset ∨ s.TurnsDrained mayPush t := by
  cases i with
  | reset => cases h; exact .inl s.deviceReset_justReset
  | home | set => exact .inr (applyCommand_turnsDrained (fun _ => .onSeq_report _) h)
  | get | getSg => exact .inr (applyCommand_turnsDrained (fun _ => .refl s) h)
  | setup channel position tilt fullCycle reverse fullTilt sgthrs =>
    refine .inr (applyCommand_turnsDrained (fun c => ?_) h)
    cases sgthrs <;> exact .onSeq (c := c) fun _ => setupSequencer s.cfg (stateOf position tilt) fullCycle fullTilt
  | _ => cases hp

theorem SequencerWrite.turnsDrained (h : SequencerWrite s t) : s.TurnsDrained mayPush t := by
  cases h with
  | answered => exact .refl s
  | written ch S out fatal pass hch =>
    have hseq := State.TurnsDrained.onSeq (mayPush := mayPush) (s := s) (c := s.sel) fun _ => S
    rwa [onSeq_get hch] at hseq

theorem runMotion_turnsDrained (hpush : mayPush c) (m : Motion) : s.TurnsDrained mayPush (s.runMotion c m) := by
  unfold State.runMotion
  split
  · split
    · exact dispatch_turnsDrained hpush m s.now
    · exact .refl s
  · have hfetch : s.TurnsDrained mayPush (s.onChan c (fetchInto m)) := .onChan (.of_calm rfl rfl (Nat.le_refl _))
    exact hfetch.trans (onChan_chan_pending fun _ => rfl) (dispatch_turnsDrained hpush m s.now)

theorem motionRequest_turnsDrained (hpush : mayPush s.sel) {m : Motion} (h : motionRequest m s = .next t) :
    s.TurnsDrained mayPush t := by
  unfold motionRequest at h
  split at h
  · cases h; exact .refl s
  · split at h <;> cases h
    exact runMotion_turnsDrained hpush m

theorem exec_turnsDrained_of_miw {i : Instr} (hp : i.port = .miw) (hpush : mayPush s.sel) (h : exec i s = .next t) :
    s.TurnsDrained mayPush t := by
  cases i with
  | extend | retract | hold => exact motionRequest_turnsDrained hpush (ifRange_next h).2
  | _ => cases hp

theorem exec_turnsDrained_of_rw {i : Instr} (hp : i.port = .rw) (h : exec i s = .next t) : s.TurnsDrained mayPush t := by
  cases i with
  | ready | stallGuardResult => cases h; exact .refl s
  | position => cases (ifRange_next h).2; exact .refl s
  | _ => cases hp

/-! ### Events -/

theorem applyWord_turnsDrained {w : BitVec 103} (h : applyWord w s = .next t) : t.justReset ∨ s.TurnsDrained mayPush t := by
  unfold applyWord at h
  split at h
  · next i hi => exact exec_turnsDrained_of_cw (decode_port hi) h
  · cases h; exact .inr (.refl s)

theorem applyPayload_turnsDrained {payload : List U8} (h : applyPayload payload s = .next t) :
    t.justReset ∨ s.TurnsDrained mayPush t := by
  unfold applyPayload at h
  split at h
  · cases h; exact .inr (.refl s)
  · split at h
    · cases h; exact .inr (.refl s)
    · exact applyWord_turnsDrained h

theorem readByte_turnsDrained {b : U8} (h : readByte b s = .next t) : t.justReset ∨ s.TurnsDrained mayPush t := by
  unfold readByte at h
  split at h
  · split at h
    · cases h; exact .inl s.deviceReset_justReset
    · cases h; exact .inr (.refl s)
  · split at h
    · exact applyPayload_turnsDrained (s := { s with reader := .awaitLength }) h
    · cases h; exact .inr (.refl s)

theorem watcherStep_turnsDrained : s.TurnsDrained mayPush (s.watcherStep c) := by
  have hwatcher {ch : Channel} (hch : s.chan? c = some ch) (w : Watcher) :
      s.TurnsDrained mayPush (s.setChan c { ch with watcher := w }) := by
    have hchange : s.TurnsDrained mayPush (s.onChan c fun ch => { ch with watcher := w }) :=
      .onChan (.of_calm rfl rfl (Nat.le_refl _))
    rwa [onChan_get hch] at hchange
  unfold State.watcherStep
  split
  · exact .refl s
  · next ch hch =>
    split
    · exact hwatcher hch .waitRelease
    · exact hwatcher hch .armed
    · exact .refl s

theorem envStep_turnsDrained (hpass : ∀ d, s.passAt = some d → mayPush d) {e : EnvEvent} (h : envStep e s = .next t) :
    t.justReset ∨ s.TurnsDrained mayPush t := by
  cases e with
  | command w => exact applyWord_turnsDrained h
  | byte b => exact readByte_turnsDrained h
  | transportError | framingError | advance => cases h; exact .inr (.refl s)
  | tick => cases h; unfold State.startPass; split <;> exact .inr (.refl s)
  | proceed => cases h; exact .inr (passStep_turnsDrained hpass)
  | watch c =>
    cases h
    unfold State.watch
    split
    · exact .inr (.refl s)
    · exact .inr watcherStep_turnsDrained
  | line => cases h; exact .inr (.onChan (.of_calm rfl rfl (Nat.le_refl _)))
  | drain => cases h; exact .inr (.onChan (.of_calm rfl rfl (Nat.sub_le _ _)))
  | encode => cases h; unfold State.encodeNext; split <;> exact .inr (.refl s)
  | powerUp => cases h; exact .inl s.deviceReset_justReset

/-- A word that is taken on its port is an instruction of the port. -/
theorem exec_of_runWord {w : PortWord} (h : runWord w s = .next t) : ∃ i, i.port = w.port ∧ exec i s = .next t := by
  unfold runWord at h
  split at h
  · next i hi => exact ⟨i, decode_port hi, h⟩
  · cases h

theorem react_turnsDrained {e : Event} (hpass : ∀ d, s.passAt = some d → mayPush d)
    (hmotion : ∀ d w, e = .motion d w → mayPush d) (h : react e s = .next t) :
    t.justReset ∨ s.TurnsDrained mayPush t := by
  cases e with
  | env e => exact envStep_turnsDrained hpass h
  | request c w =>
    obtain ⟨i, hp, hexec⟩ := exec_of_runWord h
    exact .inr (exec_write_of_sop hp hexec).turnsDrained
  | motion c w =>
    obtain ⟨i, hp, hexec⟩ := exec_of_runWord h
    exact .inr (exec_turnsDrained_of_miw (s := { s with sel := c }) hp (hmotion c w rfl) hexec)
  | report w =>
    obtain ⟨i, hp, hexec⟩ := exec_of_runWord h
    exact .inr (exec_turnsDrained_of_rw hp hexec)

end Operations

/-- R206. Which channels a step may push pulses to: the one that the pass is at, and the one of a motion word. -/
def State.mayPush (s : State) (c : Nat) : Prop := s.passAt = some c ∨ ∃ w, s.nextEvent = .motion c w

theorem step_turnsDrained {s t : State} (h : step s = .next t) : t.justReset ∨ s.TurnsDrained s.mayPush t := by
  unfold step transition at h
  split at h
  · cases h; exact .inr (passStep_turnsDrained fun _ => .inl)
  · have ⟨⟨_, hchans, _, _, _, _, _, hpassAt, _⟩, _⟩ := takeEvent_sameBlock s
    have hreact := react_turnsDrained (mayPush := s.mayPush) (fun _ hd => .inl (hpassAt ▸ hd))
      (fun _ w he => .inr ⟨w, he⟩) h
    have hchan : s.takeEvent.chan = s.chan := funext fun d => by rw [State.chan, hchans, State.chan]
    rwa [State.TurnsDrained, hchan] at hreact

/-- Settles O57: a step that does not reset turns drained channels only; the step of a drain is its reaction. -/
theorem directionChangesDrained : Obligations.DirectionChangesDrained := by
  intro s t c a b hstep ha hb
  refine ⟨(step_turnsDrained hstep).imp_right fun hturns => ?_, fun n rest hinputs => ?_⟩
  · have hchan := hturns c
    rw [chan_of_some ha, chan_of_some hb] at hchan
    exact ⟨hchan.turn, hchan.push⟩
  · rw [step_of_input hinputs (.inr rfl)] at hstep
    have hdrain := onChan_get (s := { s with inputs := rest }) ha (pgDrain n)
    exact (Outcome.next.inj hstep).symm.trans hdrain

end Sys2Proof.Machine
end

section
/-! The host commands (R230 to R243). First what the command port does with any of its commands, then each command on a
channel that exists, then device reset, and last that the commands and the dispatcher do not see each other (R238). -/

namespace Sys2Proof.Machine

open Host

/-! ### When a command is applied -/

/-- R230 to R233, R262. A command is applied or it changes nothing; it never stops the machine. -/
theorem applyCommand_eq (channel : U8) (legal : Bool) (effect : Nat → State → State) (s : State) :
    applyCommand channel legal effect s =
      .next (if s.fatal = none ∧ channel.toNat < s.cfg.nch ∧ legal = true then effect channel.toNat s else s) := by
  unfold applyCommand
  by_cases hfatal : s.fatal = none
  · rw [if_neg (by simp [halted_eq_false hfatal])]
    simp only [hfatal, true_and]
    split <;> rfl
  · rw [if_pos (by rwa [State.halted, Option.isSome_iff_ne_none]), if_neg fun h => hfatal h.1]

theorem applyCommand_of_legal {channel : U8} {legal : Bool} {s : State} (hfatal : s.fatal = none)
    (hc : channel.toNat < s.cfg.nch) (hlegal : legal = true) (effect : Nat → State → State) :
    applyCommand channel legal effect s = .next (effect channel.toNat s) := by
  rw [applyCommand_eq, if_pos ⟨hfatal, hc, hlegal⟩]

theorem applyCommand_of_noSuchChannel {channel : U8} {s : State} (hc : s.cfg.nch ≤ channel.toNat) (legal : Bool)
    (effect : Nat → State → State) : applyCommand channel legal effect s = .next s := by
  rw [applyCommand_eq, if_neg fun h => Nat.not_lt.2 hc h.2.1]

theorem applyCommand_of_illegal {legal : Bool} (hlegal : legal = false) (channel : U8) (effect : Nat → State → State)
    (s : State) : applyCommand channel legal effect s = .next s := by
  rw [applyCommand_eq, hlegal, if_neg fun h => Bool.false_ne_true h.2.2]

/-! ### The operand checks of `set` and `setup` -/

theorem positionOk_of_gt {x : U8} (h : 100 < x.toNat) : positionOk x = false := decide_eq_false (Nat.not_le.2 h)

theorem tiltOk_of_outside {t : U8} (h : t.toInt < -90 ∨ 90 < t.toInt) : tiltOk t = false := by
  simp only [tiltOk, Bool.and_eq_false_iff, decide_eq_false_iff_not]
  omega

theorem optOk_of_forall {check : U8 → Bool} {o : Option U8} (h : ∀ x, o = some x → check x = true) :
    optOk check o = true := by
  cases o with
  | none => rfl
  | some x => exact h x rfl

/-- Settles O17: each of these commands is an application that the channel or the operand check keeps from its effect. -/
theorem refusedCommands : Obligations.RefusedCommands := by
  intro s
  refine ⟨fun c hc => ?channel, ?setupValue, ?setPosition, ?setTilt⟩
  case channel =>
    exact ⟨applyCommand_of_noSuchChannel hc _ _, applyCommand_of_noSuchChannel hc _ _, applyCommand_of_noSuchChannel hc _ _,
      fun _ _ => applyCommand_of_noSuchChannel hc _ _, fun _ _ _ _ _ _ => applyCommand_of_noSuchChannel hc _ _⟩
  case setupValue =>
    intro c p t fc r ft sg hvalue
    refine applyCommand_of_illegal (Bool.and_eq_false_iff.2 ?_) _ _ _
    exact hvalue.imp positionOk_of_gt tiltOk_of_outside
  case setPosition =>
    intro c p t hp
    exact applyCommand_of_illegal (Bool.and_eq_false_iff.2 (.inl (positionOk_of_gt hp))) _ _ _
  case setTilt =>
    intro c p t ht
    exact applyCommand_of_illegal (Bool.and_eq_false_iff.2 (.inr (tiltOk_of_outside ht))) _ _ _

/-! ### The effect of each command -/

section Effects

variable {s : State} {c : Nat} {ch : Channel} (hch : s.chans[c]? = some ch)

/-- R235. -/
theorem homeSequencer_closed (p : Params) (S : Sequencer) : homeSequencer p S = homedPer p S := by
  unfold homeSequencer homedPer
  cases p.homeTarget with
  | opened => exact homeFullyOpened_closed p S
  | closed => exact homeFullyClosed_closed p S

@[simp] theorem setPositionIf_none (p : Params) (S : Sequencer) : setPositionIf p none S = S := rfl

@[simp] theorem setPositionIf_some (p : Params) (x : U8) (S : Sequencer) :
    setPositionIf p (some x) S = planned p S x.toNat := setPosition_closed p S _

@[simp] theorem setTiltIf_none (p : Params) (S : Sequencer) : setTiltIf p none S = S := rfl

@[simp] theorem setTiltIf_some (p : Params) (t : U8) (S : Sequencer) :
    setTiltIf p (some t) S = tilted p S t.toInt := setTilt_closed p S _

/-- R236. A roller and a venetian blind are seeded alike. -/
theorem setupSequencer_eq (p : Params) (init : WState) (fullCycle : U32) (fullTilt : Option U32) :
    setupSequencer p init fullCycle fullTilt =
      { fcq := fullCycle, ftq := fullTilt, cur := init, des := init, queue := [] } := by
  cases fullTilt <;> rfl

/-- R237. -/
theorem reverseBit_eq : ∀ reverse : Option Bool, reverseBit reverse = decide (reverse = some true) := by decide

/-- R287, log 6. -/
theorem handOver_eq (c : Nat) (sgthrs : Option U8) (s : State) :
    handOver c sgthrs s = { s with driverCfg := s.driverCfg ++ (sgthrs.map fun v => (c, v)).toList } := by
  cases sgthrs with
  | none => simp [handOver]
  | some v => rfl

include hch

/-- R244. -/
theorem emitPosition_of_chan : s.emitPosition c = { s with reports := s.reports ++ [.position c ch.seq.cur ch.seq.des] } := by
  rw [State.emitPosition, chan_of_some hch, State.emit]

/-- R236, R237. -/
theorem setupEffect_of_chan (init : WState) (fullCycle : U32) (reverse : Option Bool) (fullTilt : Option U32)
    (sgthrs : Option U8) :
    setupEffect init fullCycle reverse fullTilt sgthrs c s =
      { s with
        chans := s.chans.set c { ch with seq := { fcq := fullCycle, ftq := fullTilt, cur := init, des := init, queue := [] } }
        polarity := s.polarity.set c (decide (reverse = some true))
        driverCfg := s.driverCfg ++ (sgthrs.map fun v => (c, v)).toList
        reports := s.reports ++ [.position c init init] } := by
  simp only [setupEffect, onSeq_get hch, setupSequencer_eq, handOver_eq, reverseBit_eq, writeBit]
  exact emitPosition_of_chan
    (ch := { ch with seq := { fcq := fullCycle, ftq := fullTilt, cur := init, des := init, queue := [] } })
    (List.getElem?_set_self (lt_of_some hch))

end Effects

/-- Settles O12: the command is applied, and its homing is the one in closed form. -/
theorem homeCommand : Obligations.HomeCommand := by
  intro c s ch hfatal hc hch
  have happlied : exec (.home c) s = .next (homeEffect c.toNat s) := applyCommand_of_legal hfatal hc rfl homeEffect
  rw [happlied, homeEffect, onSeq_report hch, homeSequencer_closed]

/-- Settles O13: the operands pass the check, and the effect is the one spelled out. -/
theorem setupCommand : Obligations.SetupCommand := by
  intro c pos tilt fc reverse ft sgthrs s ch hfatal hc hch hpos hlow hhigh
  have happlied := applyCommand_of_legal hfatal hc (positionOk_and_tiltOk hpos hlow hhigh)
    (setupEffect (stateOf pos tilt) fc reverse ft sgthrs)
  rw [setupEffect_of_chan hch] at happlied
  exact happlied

/-- Settles O14: the operands pass the check, and each of the two steps is there or not. -/
theorem setCommand : Obligations.SetCommand := by
  intro c pos tilt s ch hfatal hc hch hpos htilt
  have hposOk : optOk positionOk pos = true := optOk_of_forall fun x hx => positionOk_of_le (hpos x hx)
  have htiltOk : optOk tiltOk tilt = true :=
    optOk_of_forall fun x hx => tiltOk_of_range (htilt x hx).1 (htilt x hx).2
  have happlied : exec (.set c pos tilt) s = .next (setEffect pos tilt c.toNat s) :=
    applyCommand_of_legal hfatal hc (Bool.and_eq_true_iff.2 ⟨hposOk, htiltOk⟩) (setEffect pos tilt)
  rw [happlied, setEffect, onSeq_report hch]
  cases pos with
  | none => cases tilt <;> simp
  | some x => cases tilt <;> simp

/-- Settles O15: the command is applied, and its effect is the report. -/
theorem getCommand : Obligations.GetCommand := by
  intro c s ch hfatal hc hch
  have happlied : exec (.get c) s = .next (s.emitPosition c.toNat) := applyCommand_of_legal hfatal hc rfl getEffect
  rw [happlied, emitPosition_of_chan hch]

/-- Settles O16: the feature is the command's legality; the reported value is the next free one. -/
theorem getStallGuardCommand : Obligations.GetStallGuardCommand := by
  intro c s hfatal hc
  refine ⟨fun hfeature => ⟨Config.stallGuard s.freeAt, ?_⟩, fun hfeature => ?_⟩
  · exact applyCommand_of_legal hfatal hc hfeature stallGuardEffect
  · exact applyCommand_of_illegal hfeature c stallGuardEffect s

/-! ### Device reset -/

/-- R97. `RESET` is read from its `op` alone. -/
theorem decode_reset {w : BitVec 103} (hop : w.extractLsb' 0 3 = 0#3) : decode (.cw w) = .ok .reset := by
  simp [decode, decodeCw, hop]

theorem readByte_zero {s : State} (h : s.reader = .awaitLength) : readByte 0#8 s = .next s.deviceReset := by
  rw [readByte, h]
  rfl

theorem deviceReset_chan {s : State} {c : Nat} (hc : c < s.chans.length) :
    ∃ dir line, s.deviceReset.chans[c]? = some (Channel.atReset s.cfg dir line) := by
  have hlen : c < s.deviceReset.chans.length := by rwa [deviceReset_length]
  obtain ⟨dir, line, hreset⟩ := eq_atReset_of_mem_deviceReset (List.getElem_mem hlen)
  exact ⟨dir, line, by rw [List.getElem?_eq_getElem hlen, hreset]⟩

/-- Settles O10: every way to request it comes to `deviceReset`, whose channels are all at reset. -/
theorem resetCommand : Obligations.ResetCommand := by
  intro s
  refine ⟨s.deviceReset, rfl, fun w hop => applyWord_of_decode (decode_reset hop) s, readByte_zero, rfl, ?powerUp, ?chans,
    deviceReset_length s, rfl, rfl, rfl, rfl, rfl, rfl⟩
  case powerUp =>
    rintro u rest hinputs rfl
    exact step_of_input hinputs (.inr rfl)
  case chans =>
    intro c hc
    obtain ⟨dir, line, hreset⟩ := deviceReset_chan hc
    exact ⟨_, hreset, rfl, rfl, rfl, rfl, rfl⟩

end Sys2Proof.Machine
end

section
/-! R238. A host command and the dispatcher do not see each other: every command is built from state changes that write nothing
of the dispatcher's side and read nothing of it. -/

namespace Sys2Proof.Machine

open Host

/-- R238. A state change that neither writes nor reads the dispatcher's side. -/
structure HostEffect (g : State → State) : Prop where
  keeps : ∀ s : State, s.sameDispatch (g s)
  agrees : ∀ s s' : State, s.sameForHost s' → (g s).sameForHost (g s')

/-- A field of the channel record that is not the sequencer's is in every channel as it was. -/
theorem onSeq_map_of_not_seq {α : Type} {field : Channel → α} (hfield : ∀ ch S, field { ch with seq := S } = field ch)
    (s : State) (c : Nat) (f : Sequencer → Sequencer) : (s.onSeq c f).chans.map field = s.chans.map field := by
  rw [State.onSeq, onChan_chans, List.map_set, hfield, ← List.map_set, set_chan_self]

theorem onSeq_map_seq (s : State) (c : Nat) (f : Sequencer → Sequencer) :
    (s.onSeq c f).chans.map Channel.seq = (s.chans.map Channel.seq).set c (f (s.chan c).seq) := by
  rw [State.onSeq, onChan_chans, List.map_set]

/-- The sequencer records determine what is read of any channel's, one that does not exist included. -/
theorem chan_seq_eq_getD (s : State) (c : Nat) : (s.chan c).seq = (s.chans.map Channel.seq).getD c default := by
  simp only [State.chan, List.getD_eq_getElem?_getD, List.getElem?_map]
  cases s.chans[c]? <;> rfl

theorem State.sameForHost.chan_seq {s s' : State} (h : s.sameForHost s') (c : Nat) : (s'.chan c).seq = (s.chan c).seq := by
  obtain ⟨_, hseq, _⟩ := h
  rw [chan_seq_eq_getD, hseq, ← chan_seq_eq_getD]

namespace HostEffect

variable {f g : State → State}

theorem unchanged : HostEffect fun s => s where
  keeps _ := ⟨rfl, rfl, rfl, rfl, rfl, rfl, rfl⟩
  agrees _ _ h := h

/-- One change after another. -/
theorem andThen (hf : HostEffect f) (hg : HostEffect g) : HostEffect fun s => g (f s) where
  keeps s := by
    obtain ⟨disp, en, dir, pending, watcher, line, endstop⟩ := hf.keeps s
    obtain ⟨disp', en', dir', pending', watcher', line', endstop'⟩ := hg.keeps (f s)
    exact ⟨disp'.trans disp, en'.trans en, dir'.trans dir, pending'.trans pending, watcher'.trans watcher,
      line'.trans line, endstop'.trans endstop⟩
  agrees s s' h := hg.agrees _ _ (hf.agrees s s' h)

/-- A change made only under a condition that is read from the host's side. -/
theorem guarded {cond : State → Prop} [DecidablePred cond] (hcond : ∀ s s', s.sameForHost s' → (cond s' ↔ cond s))
    (hg : HostEffect g) : HostEffect fun s => if cond s then g s else s where
  keeps s := by
    by_cases h : cond s
    · simpa only [if_pos h] using hg.keeps s
    · simpa only [if_neg h] using HostEffect.unchanged.keeps s
  agrees s s' hs := by
    by_cases h : cond s
    · simpa only [if_pos h, if_pos ((hcond s s' hs).2 h)] using hg.agrees s s' hs
    · simpa only [if_neg h, if_neg (mt (hcond s s' hs).1 h)] using hs

theorem onSeq (c : Nat) (F : Params → Sequencer → Sequencer) : HostEffect fun s => s.onSeq c (F s.cfg) where
  keeps s := by
    have hkept {α : Type} {field : Channel → α} (hfield : ∀ ch S, field { ch with seq := S } = field ch) :=
      onSeq_map_of_not_seq hfield s c (F s.cfg)
    exact ⟨hkept fun _ _ => rfl, hkept fun _ _ => rfl, hkept fun _ _ => rfl, hkept fun _ _ => rfl, hkept fun _ _ => rfl,
      hkept fun _ _ => rfl, rfl⟩
  agrees s s' h := by
    have hchan := h.chan_seq c
    obtain ⟨hcfg, hseq, hrest⟩ := h
    exact ⟨hcfg, by rw [onSeq_map_seq, onSeq_map_seq, hseq, hchan, hcfg], hrest⟩

/-- R244. A report of what the host's side holds. -/
theorem emit {r : State → Report} (hr : ∀ s s', s.sameForHost s' → r s' = r s) : HostEffect fun s => s.emit (r s) where
  keeps s := HostEffect.unchanged.keeps s
  agrees s s' h := by
    have hreport := hr s s' h
    obtain ⟨hcfg, hseq, hpolarity, hfatal, hreports, hrest⟩ := h
    exact ⟨hcfg, hseq, hpolarity, hfatal, by rw [emit_reports, emit_reports, hreports, hreport], hrest⟩

theorem emitPosition (c : Nat) : HostEffect fun s => s.emitPosition c :=
  emit fun s s' h => by rw [h.chan_seq c]

theorem writePolarity (c : Nat) (b : Bool) : HostEffect fun s => { s with polarity := writeBit s.polarity c b } where
  keeps s := HostEffect.unchanged.keeps s
  agrees _ _ := fun ⟨hcfg, hseq, hpolarity, hrest⟩ => ⟨hcfg, hseq, congrArg (writeBit · c b) hpolarity, hrest⟩

theorem handOver (c : Nat) (sgthrs : Option U8) : HostEffect (handOver c sgthrs) := by
  cases sgthrs with
  | none => exact .unchanged
  | some v =>
    exact
      { keeps := fun s => HostEffect.unchanged.keeps s
        agrees := fun s s' ⟨hcfg, hseq, hpolarity, hfatal, hreports, hfree, hdriver⟩ =>
          ⟨hcfg, hseq, hpolarity, hfatal, hreports, hfree, congrArg (· ++ [(c, v)]) hdriver⟩ }

theorem nextFree : HostEffect fun s => { s with freeAt := s.freeAt + 1 } where
  keeps s := HostEffect.unchanged.keeps s
  agrees _ _ := fun ⟨hcfg, hseq, hpolarity, hfatal, hreports, hfree, hdriver⟩ =>
    ⟨hcfg, hseq, hpolarity, hfatal, hreports, congrArg (· + 1) hfree, hdriver⟩

theorem stallGuardEffect (c : Nat) : HostEffect (stallGuardEffect c) := by
  have hreport : HostEffect fun s => s.emit (.stallGuardResult c (Config.stallGuard s.freeAt)) :=
    emit fun s s' ⟨_, _, _, _, _, hfree, _⟩ => by rw [hfree]
  exact hreport.andThen nextFree

theorem setupEffect (init : WState) (fullCycle : U32) (reverse : Option Bool) (fullTilt : Option U32) (sgthrs : Option U8)
    (c : Nat) : HostEffect (setupEffect init fullCycle reverse fullTilt sgthrs c) :=
  (onSeq c fun p _ => setupSequencer p init fullCycle fullTilt)
    |>.andThen (writePolarity c (reverseBit reverse))
    |>.andThen (handOver c sgthrs)
    |>.andThen (emitPosition c)

end HostEffect

/-- What the command port does on every state, when the command's effect is one that stays on the host's side. -/
theorem applyCommand_hostEffect (channel : U8) (legal : Params → Bool) {effect : Nat → State → State}
    (h : ∀ c, HostEffect (effect c)) :
    ∃ g, HostEffect g ∧ ∀ s, applyCommand channel (legal s.cfg) effect s = .next (g s) := by
  refine ⟨_, HostEffect.guarded ?_ (h channel.toNat), fun s => applyCommand_eq channel (legal s.cfg) effect s⟩
  rintro s s' ⟨hcfg, _, _, hfatal, _⟩
  rw [hcfg, hfatal]

theorem exec_hostEffect {i : Instr} (hp : i.port = .cw) (hreset : i ≠ .reset) :
    ∃ g, HostEffect g ∧ ∀ s, exec i s = .next (g s) := by
  cases i with
  | reset => exact absurd rfl hreset
  | home channel =>
    exact applyCommand_hostEffect channel (fun _ => true) fun c => (HostEffect.onSeq c homeSequencer).andThen (.emitPosition c)
  | setup channel position tilt fullCycle reverse fullTilt sgthrs =>
    exact applyCommand_hostEffect channel (fun _ => positionOk position && tiltOk tilt)
      (.setupEffect (stateOf position tilt) fullCycle reverse fullTilt sgthrs)
  | set channel position tilt =>
    exact applyCommand_hostEffect channel (fun _ => optOk positionOk position && optOk tiltOk tilt) fun c =>
      (HostEffect.onSeq c fun p S => setTiltIf p tilt (setPositionIf p position S)).andThen (.emitPosition c)
  | get channel => exact applyCommand_hostEffect channel (fun _ => true) .emitPosition
  | getSg channel => exact applyCommand_hostEffect channel Params.stallFeature .stallGuardEffect
  | _ => cases hp

/-- Settles O19: a command is one state change on the host's side, the same from both states. -/
theorem commandsAndDispatcherApart : Obligations.CommandsAndDispatcherApart := by
  intro i s t s' hp hreset hexec hsame
  obtain ⟨g, hg, heq⟩ := exec_hostEffect hp hreset
  obtain rfl : g s = t := Outcome.next.inj ((heq s).symm.trans hexec)
  exact ⟨hg.keeps s, g s', heq s', hg.keeps s', hg.agrees s s' hsame⟩

end Sys2Proof.Machine
end

section
/-! The halted block (R262): no instruction but `RESET` does anything to it, row by row of the three ports that work on the
block, and what the encoder takes stands outside it (log 18). And a fault that never halts it: `MergeMismatch` (R263). -/

namespace Sys2Proof.Machine

open Host

/-! ### The shared operations and the instructions in a halted block -/

section Halted

variable {s : State} (hhalt : s.halted = true)

include hhalt

theorem applyCommand_halted (channel : U8) (legal : Bool) (effect : Nat → State → State) :
    applyCommand channel legal effect s = .next s := if_pos hhalt

theorem motionRequest_halted (m : Motion) : motionRequest m s = .next s := if_pos hhalt

theorem startPass_halted : s.startPass = s := if_pos hhalt

theorem watch_halted (c : Nat) : s.watch c = s := if_pos hhalt

/-- R262. An instruction of the command, sequencer or motion port; of a well-formed one the operand check passes. -/
theorem exec_halted {i : Instr} (hwf : i.wellFormed = true) (hreset : i ≠ .reset) (hport : i.port ≠ .rw) :
    exec i s = .next s := by
  cases i with
  | reset => exact absurd rfl hreset
  | home | setup | set | get | getSg => exact applyCommand_halted hhalt _ _ _
  | new fc ft => exact seqRequest_halted hhalt fun p _ => newSequencer p fc ft
  | newRoller fc => exact seqRequest_halted hhalt fun p _ => newSequencer p fc none
  | newVenetian fc ft => exact seqRequest_halted hhalt fun p _ => newSequencer p fc (some ft)
  | trigEndstop | homeFullyOpened | homeFullyClosed => exact seqRequest_halted hhalt _
  | loadState | setPosition | setTilt | addTilt | setState =>
    exact (ifRange_of_true hwf _).trans (seqRequest_halted hhalt _)
  | getNextInstruction => exact seqFetch_halted hhalt fetchOne
  | getNextInstructionGrouped th => exact seqFetch_halted hhalt fun p => getNextGrouped p th
  | getCurrentState | getDesiredState => exact seqRead_halted hhalt _
  | extend | retract | hold => exact (ifRange_of_true hwf _).trans (motionRequest_halted hhalt _)
  | ready | position | stallGuardResult => exact absurd rfl hport

end Halted

/-- R101. A well-formed instruction of the report port is the encoder's taking of one report, in every state. -/
theorem exec_present_of_rw {i : Instr} (hwf : i.wellFormed = true) (hport : i.port = .rw) (s : State) :
    ∃ r, exec i s = .next (s.present r) := by
  cases i with
  | ready => exact ⟨.ready, rfl⟩
  | position => exact ⟨_, ifRange_of_true hwf _⟩
  | stallGuardResult c v => exact ⟨.stallGuardResult c.toNat v, rfl⟩
  | _ => cases hport

/-- Settles O18: a report word only presents a report, which is no part of the block; every other instruction, and the three
steps, ask whether the block is halted first. -/
theorem haltedBlock : Obligations.HaltedBlock := by
  intro s hhalt
  refine ⟨fun i hwf hreset => ?instr, startPass_halted hhalt, channelStep_of_halted hhalt, watch_halted hhalt⟩
  by_cases hport : i.port = .rw
  · obtain ⟨r, hexec⟩ := exec_present_of_rw hwf hport s
    exact ⟨s.present r, hexec, fun hne => absurd hport hne, rfl⟩
  · exact ⟨s, exec_halted hhalt hwf hreset hport, fun _ => rfl, rfl⟩

/-! ### The fault that no step latches -/

/-- Settles O59: a device reset clears the latch, and an effect latches `MergeMismatch` only where it was latched. -/
theorem mismatchUnreachable : Obligations.MismatchUnreachable := by
  intro s t hs hstep
  rcases step_resetOrEffect hstep with ⟨u, -, rfl⟩ | heffect
  · nofun
  · exact fun ht => hs (heffect.noMismatch ht)

end Sys2Proof.Machine
end

section
/-! The Endstop Watcher (R271), one rule for each pair of its state and its line. -/

namespace Sys2Proof.Machine

theorem watch_of_running {s : State} (hfatal : s.fatal = none) (c : Nat) : s.watch c = s.watcherStep c := by
  rw [State.watch, halted_eq_false hfatal, if_neg Bool.false_ne_true]

section Watcher

variable {s : State} {c : Nat} {ch : Channel} (hch : s.chans[c]? = some ch)

include hch

theorem watcherStep_of_asserted (hwatcher : ch.watcher = .armed) (hline : ch.line = true) :
    s.watcherStep c =
      { s with endstop := s.endstop.set c true, chans := s.chans.set c { ch with watcher := .waitRelease } } := by
  simp only [State.watcherStep, State.chan?, hch, hwatcher, hline]
  rfl

theorem watcherStep_of_released (hwatcher : ch.watcher = .waitRelease) (hline : ch.line = false) :
    s.watcherStep c = { s with chans := s.chans.set c { ch with watcher := .armed } } := by
  simp only [State.watcherStep, State.chan?, hch, hwatcher, hline]
  rfl

theorem watcherStep_of_armed_released (hwatcher : ch.watcher = .armed) (hline : ch.line = false) :
    s.watcherStep c = s := by
  simp only [State.watcherStep, State.chan?, hch, hwatcher, hline]

theorem watcherStep_of_waiting_asserted (hwatcher : ch.watcher = .waitRelease) (hline : ch.line = true) :
    s.watcherStep c = s := by
  simp only [State.watcherStep, State.chan?, hch, hwatcher, hline]

end Watcher

/-- Settles O50: a watcher step of a running block is the watcher's own step, by its rule for the case. -/
theorem watcherTransitions : Obligations.WatcherTransitions := by
  intro s c ch hfatal hch
  rw [watch_of_running hfatal]
  refine ⟨watcherStep_of_asserted hch, watcherStep_of_released hch, ?_⟩
  rintro (⟨hwatcher, hline⟩ | ⟨hwatcher, hline⟩)
  · exact watcherStep_of_armed_released hch hwatcher hline
  · exact watcherStep_of_waiting_asserted hch hwatcher hline

end Sys2Proof.Machine
end

section
/-! What power-up leaves (R301), and that no step ends with pulses pending while `Hold` is the latched quality (R320). -/

namespace Sys2Proof.Machine

/-! ### Power-up -/

/-- R301. -/
theorem resetOf_chans_getElem? {p : Params} {c : Nat} (hc : c < p.nch) :
    (State.resetOf p).chans[c]? = some (Channel.atReset p false false) := List.getElem?_replicate_of_lt hc

/-- Settles O9: every channel is a channel at reset, and `resetOf` writes out the rest. -/
theorem resetState : Obligations.ResetState := by
  intro p
  refine ⟨fun c hc => ?_, List.length_replicate, rfl, rfl, rfl, rfl, rfl⟩
  exact ⟨_, resetOf_chans_getElem? hc, rfl, rfl, rfl, rfl, rfl⟩

/-! ### While `Hold` is latched -/

/-- R301. After device reset no pulse is pending. -/
theorem State.deviceReset_holdDrained (s : State) : s.deviceReset.holdDrained := by
  intro ch hch _
  obtain ⟨dir, line, rfl⟩ := eq_atReset_of_mem_deviceReset hch
  exact Channel.atReset_pending s.cfg dir line

/-- R320. A channel turns to `Hold` only when it is stopped, and nothing of quality `Hold` pushes: every primitive change of a
channel keeps it drained. -/
theorem Effect.holdDrained {s t : State} (h : Effect s t) (hs : s.holdDrained) : t.holdDrained := by
  obtain ⟨c, htouch⟩ := h.chans
  exact htouch.all hs fun _ _ _ hch => hch.holdDrained

/-- Settles O55: a device reset leaves no pulse pending, and an effect keeps every channel drained while `Hold` is latched. -/
theorem stepKeepsHoldDrained : Obligations.StepKeepsHoldDrained := by
  intro s t hs hstep
  rcases step_resetOrEffect hstep with ⟨u, -, rfl⟩ | heffect
  · exact State.deviceReset_holdDrained u
  · exact heffect.holdDrained hs

end Sys2Proof.Machine
end
